-- ==== Sys2Proof/Word.lean ====
section
/-! DEFINITION. The two word types of the block: bytes (spec R3, `DATA_WIDTH`) and command words
(spec R3 `CMD_WIDTH`, R50). -/

namespace Sys2Proof

/-- Every byte on the bus, every register address and every register value (R3, `DATA_WIDTH` = 8). -/
abbrev Byte := BitVec 8

/-- One command word as the host presents it (R50, `CMD_WIDTH` = 24). -/
abbrev Command := BitVec 24

end Sys2Proof
end

