-- ==== Sys2Proof/Syntax.lean ====
section
/-! DEFINITION. The ten commands of the block (spec R8, R53), one constructor per row of
`spec/opcode_table.json`. -/

namespace Sys2Proof

/-- The commands, with their operands as R52 takes them from the word. -/
inductive Instr where
  /-- `START` (R63): launch a start condition. -/
  | start
  /-- `SEND b` (R64): launch the transmission of byte `b`, which is field `a` of the word (C10). -/
  | send (b : Byte)
  /-- `RECV k` (R65): launch the reception of a byte; `k` = acknowledge it. -/
  | recv (k : Bool)
  /-- `WAIT` (R67): hold until the completion flag is set. -/
  | wait
  /-- `GETDATA` (R68): return the received byte. -/
  | getdata
  /-- `STOP` (R66): launch a stop condition. -/
  | stop
  /-- `DISABLE` (R80): switch the transport off and reset its state machine. -/
  | disable
  /-- `ENABLE` (R81): switch the transport on. -/
  | enable
  /-- `RDREG a` (R92): read device register `a`. -/
  | rdreg (a : Byte)
  /-- `WRREG a, v` (R93): write `v` to device register `a`. -/
  | wrreg (a v : Byte)
  deriving DecidableEq, Repr

end Sys2Proof
end

