-- ==== Sys2Proof/WellFormed.lean ====
section
/-! DEFINITION. The four formats (spec R51) and the check that a command's operand fields are ones
its format admits: a field that carries no value must be zero. -/

namespace Sys2Proof

/-- The ten commands without their operands (the mnemonics of R53), as faults name them (R111). -/
inductive Cmd where
  | start | send | recv | wait | getdata | stop | disable | enable | rdreg | wrreg
  deriving DecidableEq, Repr

/-- The formats of R51. -/
inductive Format where
  /-- No operand: fields `a` and `b` must be zero. -/
  | n
  /-- A byte in field `a`; field `b` must be zero. -/
  | a
  /-- One bit, bit 0 of field `a`; the rest of `a` and all of `b` must be zero. -/
  | k
  /-- A byte in each field. -/
  | ab
  deriving DecidableEq, Repr

/-- Format column of R53. -/
def Cmd.format : Cmd → Format
  | .start => .n
  | .send => .a
  | .recv => .k
  | .wait => .n
  | .getdata => .n
  | .stop => .n
  | .disable => .n
  | .enable => .n
  | .rdreg => .a
  | .wrreg => .ab

/-- The must-be-zero checks of R51 on the two operand fields. -/
def Format.fieldsOk : Format → (fa fb : Byte) → Bool
  | .n, x, y => x == 0 && y == 0
  | .a, _, y => y == 0
  | .k, x, y => x >>> 1 == 0 && y == 0
  | .ab, _, _ => true

/-- The command an instruction is, without its operands. -/
def Instr.cmd : Instr → Cmd
  | .start => .start
  | .send _ => .send
  | .recv _ => .recv
  | .wait => .wait
  | .getdata => .getdata
  | .stop => .stop
  | .disable => .disable
  | .enable => .enable
  | .rdreg _ => .rdreg
  | .wrreg _ _ => .wrreg

/-- Field `a` of an instruction's word (R52). -/
def Instr.fieldA : Instr → Byte
  | .start => 0
  | .send b => b
  | .recv k => if k then 1 else 0
  | .wait => 0
  | .getdata => 0
  | .stop => 0
  | .disable => 0
  | .enable => 0
  | .rdreg a => a
  | .wrreg a _ => a

/-- Field `b` of an instruction's word (R52): only `WRREG` uses it. -/
def Instr.fieldB : Instr → Byte
  | .start => 0
  | .send _ => 0
  | .recv _ => 0
  | .wait => 0
  | .getdata => 0
  | .stop => 0
  | .disable => 0
  | .enable => 0
  | .rdreg _ => 0
  | .wrreg _ v => v

/-- A command is well formed when its fields satisfy its format (R51). -/
def Instr.wellFormed (i : Instr) : Bool :=
  i.cmd.format.fieldsOk i.fieldA i.fieldB

end Sys2Proof
end

