-- ==== Sys2Proof/Decode.lean ====
section
/-! DEFINITION. Decoding and encoding of command words (spec R50 to R55). `decode` is total: a word
that is no command is rejected by name. Decoding reads no state (R55). -/

namespace Sys2Proof

/-- Field `op` = `w[23:16]` (R50). -/
def opOf (w : Command) : Byte := w.extractLsb' 16 8

/-- Field `a` = `w[15:8]` (R50). -/
def aOf (w : Command) : Byte := w.extractLsb' 8 8

/-- Field `b` = `w[7:0]` (R50). -/
def bOf (w : Command) : Byte := w.extractLsb' 0 8

/-- The word with the three given fields, `op` in the high bits (R50). -/
def joinFields (op a b : Byte) : Command := op ++ a ++ b

/-- Why a word is illegal (R54). -/
inductive Illegal where
  /-- The opcode is none of the ten. -/
  | unassignedOpcode (op : Byte)
  /-- The opcode is a command's and a must-be-zero field is not zero. -/
  | nonZeroField (c : Cmd)
  deriving DecidableEq, Repr

/-- The `op` column of R53. -/
def Cmd.opcode : Cmd → Byte
  | .start => 0x01
  | .send => 0x02
  | .recv => 0x03
  | .wait => 0x04
  | .getdata => 0x05
  | .stop => 0x06
  | .disable => 0x07
  | .enable => 0x08
  | .rdreg => 0x10
  | .wrreg => 0x11

/-- The command an opcode selects, if any (R53, R54). -/
def cmdOfOpcode (op : Byte) : Option Cmd :=
  if op = 0x01 then some .start
  else if op = 0x02 then some .send
  else if op = 0x03 then some .recv
  else if op = 0x04 then some .wait
  else if op = 0x05 then some .getdata
  else if op = 0x06 then some .stop
  else if op = 0x07 then some .disable
  else if op = 0x08 then some .enable
  else if op = 0x10 then some .rdreg
  else if op = 0x11 then some .wrreg
  else none

/-- The instruction a command is with the given operand fields (R52). -/
def Cmd.build : Cmd → (a b : Byte) → Instr
  | .start, _, _ => .start
  | .send, a, _ => .send a
  | .recv, a, _ => .recv (a.getLsbD 0)
  | .wait, _, _ => .wait
  | .getdata, _, _ => .getdata
  | .stop, _, _ => .stop
  | .disable, _, _ => .disable
  | .enable, _, _ => .enable
  | .rdreg, a, _ => .rdreg a
  | .wrreg, a, b => .wrreg a b

/-- The `match` column of R53. -/
def Cmd.matchWord : Cmd → Command
  | .start => 0x010000
  | .send => 0x020000
  | .recv => 0x030000
  | .wait => 0x040000
  | .getdata => 0x050000
  | .stop => 0x060000
  | .disable => 0x070000
  | .enable => 0x080000
  | .rdreg => 0x100000
  | .wrreg => 0x110000

/-- The `mask` column of R53. -/
def Cmd.maskWord : Cmd → Command
  | .start => 0xFFFFFF
  | .send => 0xFF00FF
  | .recv => 0xFFFEFF
  | .wait => 0xFFFFFF
  | .getdata => 0xFFFFFF
  | .stop => 0xFFFFFF
  | .disable => 0xFFFFFF
  | .enable => 0xFFFFFF
  | .rdreg => 0xFF00FF
  | .wrreg => 0xFF0000

/-- `w` matches the row of command `c` in R53's table. -/
def Cmd.rowMatches (c : Cmd) (w : Command) : Bool := w &&& c.maskWord == c.matchWord

/-- Decode a command word (R53, R54). -/
def decode (w : Command) : Except Illegal Instr :=
  match cmdOfOpcode (opOf w) with
  | none => .error (.unassignedOpcode (opOf w))
  | some c =>
    if c.rowMatches w then .ok (c.build (aOf w) (bOf w))
    else .error (.nonZeroField c)

/-- The word of a command (R50 to R53). -/
def encode (i : Instr) : Command :=
  joinFields i.cmd.opcode i.fieldA i.fieldB

/-- The instruction the decoder reads from a table row's word: the block's words are one 24-bit word
each (R50), numbered as the table numbers them. A row of more than 24 bits does not exist (log 19). -/
def decodeTableWord (nbits w : Nat) : Option Instr :=
  if nbits ≤ 24 then (decode (BitVec.ofNat 24 (w % 2 ^ nbits))).toOption else none

end Sys2Proof
end

