-- ==== Sys2Proof/Config.lean ====
section
/-! DEFINITION. What is fixed for one machine (spec R3), the events the block and the wires exchange
(R19), and the free values: constants without a body, so that no proof can know a value of theirs. -/

namespace Sys2Proof

/-- The events of the wire trace (R19). An acknowledge bit is `true` when the byte was acknowledged. -/
inductive WireEvent where
  /-- `S`: start condition on a free bus. -/
  | start
  /-- `Sr`: repeated start. -/
  | repStart
  /-- `Tx(b, k)`: byte `b` from master to device, `k` the device's acknowledge bit. -/
  | tx (b : Byte) (k : Bool)
  /-- `Rx(d, k)`: byte `d` from device to master, `k` the master's acknowledge bit. -/
  | rx (d : Byte) (k : Bool)
  /-- `P`: stop condition. -/
  | stop
  /-- `Rel`: the wires let go without a stop condition. -/
  | release
  deriving DecidableEq, Repr

namespace Config

/-- `DEV_ADDR7` (R2, R3): the one device's 7-bit bus address. -/
def devAddr7 : BitVec 7 := 0x5A#7

/-- `STATUS_REG` (R3, R43): the device's touch status register; used by examples only. -/
def statusReg : Byte := 0x00#8

/-- `EN_RESET` (R3, D7, U15): the model argument for `EN` after reset, at its default 0. -/
def enReset : Bool := false

/-- FREE VALUE (R38, U2, U11): the acknowledge bit the unconstrained device gives for a sent byte,
asked with the whole trace so far. See log 4. -/
opaque devAck : List WireEvent → Byte → Bool

/-- FREE VALUE (R38, U11): the byte the unconstrained device sends, asked with the whole trace so
far. See log 4. -/
opaque devByte : List WireEvent → Byte

/-- FREE VALUE (U1): the byte read from `DATA` while it is unspecified; the argument counts the
draws, so that each read is a fresh one. See log 6. -/
opaque freeByte : Nat → Byte

/-- FREE VALUE (R5, R69, U10): whether the engine completes its pending operation at this step, where
no scheduled turn says so. Nothing makes it ever true: `A_READY` (R135) is not assumed. See log 1. -/
opaque engineReady : Nat → Bool

end Config
end Sys2Proof
end

