-- ==== Sys2Proof/Machine/State.lean ====
section
/-! DEFINITION. The state of the block (spec R10), the environment data a step reads (R10: inputs of
a step), the five model faults (R111) and the state after reset (R130). -/

namespace Sys2Proof.Machine

/-- `PEND` (R13): the operation launched and not yet complete. -/
inductive Pend where
  | none
  | start
  | send (b : Byte)
  | recv (k : Bool)
  | stop
  deriving DecidableEq, Repr

/-- `PH` (R14): the phase of the bus transaction. -/
inductive Phase where
  | idle | startSent | addrSent | dataSent | dataRcvd | stopSent
  deriving DecidableEq, Repr

/-- `DIR` (R15): `w` is `W`, master to device; `r` is `R`, device to master. -/
inductive Dir where
  | w | r
  deriving DecidableEq, Repr

/-- What `DATA` holds (R17): a received byte, or the spec's own condition "unspecified", entered by
reset (R130) and by `DISABLE` (R80). Reading it then gives a free byte, a fresh draw at each read
(U1, log 6); it is never a fault. -/
inductive Latch where
  | latched (b : Byte)
  | unspecified
  deriving DecidableEq, Repr

/-- `MODE` (R18): which transaction the sequencer is running. -/
inductive Mode where
  | none | rd | wr
  deriving DecidableEq, Repr

/-- Who steps next when the engine is enabled (R5): the engine, or the command side, which is `SEQ`
while a transaction runs and `HOST` otherwise (R90). -/
inductive Turn where
  | engine | command
  deriving DecidableEq, Repr

/-- `sel` of the reference device (R39). -/
inductive Sel where
  | no | wr0 | wr1 | rd
  deriving DecidableEq, Repr

/-- The device register space (R30): addresses and bytes, in one canonical form (`Memory.wf`). -/
abbrev Memory := List Host.Cell

/-- The reference device `REFDEV` (R39): its register file, register pointer and selection. -/
structure RefDev where
  reg : Memory
  ptr : Byte
  sel : Sel
  deriving DecidableEq, Repr

/-- The device and the wires `DEV` (R38). -/
inductive Device where
  /-- The unconstrained device: it gives the listed acknowledge bits and bytes first, oldest first,
  and free values after them (log 4). -/
  | oracle (acks : List Bool) (bytes : List Byte)
  /-- The reference device of R39. -/
  | reference (r : RefDev)
  deriving DecidableEq, Repr

/-- The state. The first thirteen fields are R10's; the last five are the model's own, holding what
R10 calls parameters and inputs of a step. -/
structure State where
  /-- `EN` (R11). -/
  en : Bool
  /-- `DONE` (R12). -/
  done : Bool
  /-- `PEND` (R13). -/
  pend : Pend
  /-- `PH` (R14). -/
  ph : Phase
  /-- `DIR` (R15); `none` is the spec's "no value". -/
  dir : Option Dir
  /-- `RXEND` (R16). -/
  rxend : Bool
  /-- `DATA` (R17). -/
  data : Latch
  /-- `MODE` (R18). -/
  mode : Mode
  /-- `STEP` (R18). -/
  stepIx : BitVec 5
  /-- `RA` (R18). -/
  ra : Byte
  /-- `RV` (R18). -/
  rv : Byte
  /-- `RES` (R18). -/
  res : Byte
  /-- `TRACE` (R19), oldest event first. -/
  trace : List WireEvent
  /-- The host's command words not yet retired; the front one is at the command port (R60, log 2). -/
  cmds : List Command
  /-- The bytes returned to the host, oldest first (R6, R56, log 3). -/
  returned : List Byte
  /-- The coming turns at steps where the engine is enabled (R5, log 1). -/
  sched : List Turn
  /-- How many free values have been drawn (log 5). -/
  draws : Nat
  /-- The device on the wires (R38, log 4). -/
  dev : Device
  deriving DecidableEq, Repr

/-- The five model faults (R111). Each is terminal and is raised before any state changes (R119).
Each is safe: the spec gives the misuse no behaviour, so stopping proves nothing false. -/
inductive Fault where
  /-- Code 1 (R112), raised by the host's step when the word matches no command. Safe. -/
  | illegalCommand (w : Command)
  /-- Code 2 (R113), raised by `START`, `SEND`, `RECV`, `STOP`, `RDREG`, `WRREG` with `EN = 0`. Safe. -/
  | disabled (c : Cmd)
  /-- Code 3 (R114), raised by the launches, `GETDATA`, `RDREG`, `WRREG` with an operation pending. Safe. -/
  | busy (c : Cmd) (p : Pend)
  /-- Code 4 (R115), raised by a launch that the phase table of R62 does not allow. Safe. -/
  | phaseViolation (c : Cmd) (ph : Phase) (dir : Option Dir) (rxend : Bool)
  /-- Code 5 (R116), raised by `RDREG`, `WRREG` with a transaction open. Safe. -/
  | transactionOpen (c : Cmd) (ph : Phase)
  deriving DecidableEq, Repr

/-- Why an instruction has no meaning in the model. No arm of `exec` answers with it: every command
of the table is modelled. -/
inductive Refusal where
  /-- Raised by an arm of `exec` for an instruction without a meaning. Safe. -/
  | notModelled (mnemonic : String)
  deriving DecidableEq, Repr

/-- The state after reset with the model argument `EN_RESET` (R130, U15). `ra`, `rv`, `res` hold 0,
which the spec does not give (DESIGN CHOICE, log 7); the model's own fields start empty. -/
def State.resetWith (enReset : Bool) : State where
  en := enReset
  done := false
  pend := .none
  ph := .idle
  dir := none
  rxend := false
  data := .unspecified
  mode := .none
  stepIx := 0
  ra := 0
  rv := 0
  res := 0
  trace := []
  cmds := []
  returned := []
  sched := []
  draws := 0
  dev := .oracle [] []

/-- The state after reset, with `EN_RESET` at its default 0 (R130). -/
def State.reset : State := State.resetWith Config.enReset

end Sys2Proof.Machine
end

