-- ==== Sys2Proof/Machine/Flags.lean ====
section
/-! DEFINITION. The two flags (spec R22), the phase table (R62) and the other conditions that decide
whether a command may execute. -/

namespace Sys2Proof.Machine

/-- `DONE` after a launch (R12). -/
def doneAtLaunch : Bool := false

/-- `DONE` after the engine completes an operation (R12). -/
def doneAtCompletion : Bool := true

/-- `RXEND` after a reception with acknowledge choice `k` (R16): `1 - k`. -/
def rxendAfter (k : Bool) : Bool := !k

/-- No transaction is open: `PH` in `IDLE`, `STOP_SENT` (R14, R70, R80, R91). -/
def Phase.released : Phase → Bool
  | .idle => true
  | .stopSent => true
  | .startSent => false
  | .addrSent => false
  | .dataSent => false
  | .dataRcvd => false

/-- The code of a phase (R14). -/
def Phase.code : Phase → Nat
  | .idle => 0
  | .startSent => 1
  | .addrSent => 2
  | .dataSent => 3
  | .dataRcvd => 4
  | .stopSent => 5

/-- The number of a fault's cause (R111). -/
def Fault.code : Fault → Nat
  | .illegalCommand _ => 1
  | .disabled _ => 2
  | .busy _ _ => 3
  | .phaseViolation _ _ _ _ => 4
  | .transactionOpen _ _ => 5

/-- Column `START` of the phase table (R62, R63). -/
def startLegal (ph : Phase) : Bool := ph != .startSent

/-- Column `SEND` of the phase table (R62, R64). -/
def sendLegal (ph : Phase) (dir : Option Dir) : Bool :=
  ph == .startSent || ((ph == .addrSent || ph == .dataSent) && dir == some .w)

/-- Column `RECV` of the phase table (R62, R65). -/
def recvLegal (ph : Phase) (dir : Option Dir) (rxend : Bool) : Bool :=
  (ph == .addrSent && dir == some .r) || (ph == .dataRcvd && !rxend)

/-- Column `STOP` of the phase table (R62, R66). -/
def stopLegal (ph : Phase) : Bool :=
  ph == .addrSent || ph == .dataSent || ph == .dataRcvd

/-- The engine's step is enabled (R69). -/
def State.engineEnabled (s : State) : Bool := s.en && s.pend != .none

end Sys2Proof.Machine
end

