-- ==== Sys2Proof/Machine/Operands.lean ====
section
/-! DEFINITION. Operand forms: the address byte (spec R4, R33), and where a micro-operation's byte
comes from (R92, R93). -/

namespace Sys2Proof.Machine

/-- The direction bit of an address byte (R4): 0 write, 1 read. -/
def Dir.bit : Dir → Byte
  | .w => 0
  | .r => 1

/-- The address byte (R4): the 7-bit device address in bits 7 to 1, the direction in bit 0. -/
def addressByte (a : BitVec 7) (d : Dir) : Byte :=
  ((a.setWidth 8) <<< 1) ||| d.bit

/-- The 7-bit device address in an address byte (R33). -/
def addressOf (b : Byte) : BitVec 7 := b.extractLsb' 1 7

/-- The direction in an address byte (R15, R33). -/
def directionOf (b : Byte) : Dir := if b.getLsbD 0 then .r else .w

/-- `SLA_W` (R3, R52). -/
def slaW : Byte := addressByte Config.devAddr7 .w

/-- `SLA_R` (R3, R52). -/
def slaR : Byte := addressByte Config.devAddr7 .r

/-- The sources of a byte a micro-operation sends (R92, R93). -/
inductive ByteSource where
  | slaW | slaR | ra | rv
  deriving DecidableEq, Repr

/-- The byte a source gives. -/
def ByteSource.value (src : ByteSource) (s : State) : Byte :=
  match src with
  | .slaW => Machine.slaW
  | .slaR => Machine.slaR
  | .ra => s.ra
  | .rv => s.rv

end Sys2Proof.Machine
end

