-- ==== Sys2Proof/Machine/Ops.lean ====
section
/-! DEFINITION. The named operations over the device register space, the device, and the block's
state, and the ways a command's rule can end (spec 00_scope.md section 6). -/

namespace Sys2Proof.Machine

/-! ### The device register space (R30, R35) -/

/-- What a register the list does not name reads as. Representation only: every content of the 256
registers has a list (log 10). -/
def Memory.unlisted : Byte := 0

/-- `MemRead(a, 1)`. -/
def Memory.read : Memory → Nat → Byte
  | [], _ => Memory.unlisted
  | (k, x) :: m, a => if k = a then x else Memory.read m a

/-- The list with `v` at `a` in front, unless that is what an unlisted register reads as. -/
def Memory.put (a : Nat) (v : Byte) (m : Memory) : Memory :=
  if v = Memory.unlisted then m else (a, v) :: m

/-- `MemWrite(a, 1, v)`, keeping the canonical form. -/
def Memory.write : Memory → Nat → Byte → Memory
  | [], a, v => Memory.put a v []
  | (k, x) :: m, a, v =>
    if a < k then Memory.put a v ((k, x) :: m)
    else if a = k then Memory.put a v m
    else (k, x) :: Memory.write m a v

/-- The canonical form from address `lo` on: addresses strictly rising and below 256, no entry equal
to what an unlisted register reads as. -/
def Memory.wfFrom : Nat → Memory → Bool
  | _, [] => true
  | lo, (k, x) :: m =>
    decide (lo ≤ k) && decide (k < 256) && x != Memory.unlisted && Memory.wfFrom (k + 1) m

/-- The canonical form. -/
def Memory.wf (m : Memory) : Bool := Memory.wfFrom 0 m

/-! ### The device (R38, R39) -/

/-- The last event is a start condition, so the next byte sent is an address byte (R39). -/
def afterStart (tr : List WireEvent) : Bool :=
  match tr.getLast? with
  | some .start => true
  | some .repStart => true
  | some (.tx _ _) => false
  | some (.rx _ _) => false
  | some .stop => false
  | some .release => false
  | none => false

/-- `REFDEV`'s acknowledge bit (R39). -/
def RefDev.ack (r : RefDev) (tr : List WireEvent) (b : Byte) : Bool :=
  if afterStart tr then addressOf b == Config.devAddr7
  else r.sel == .wr0 || r.sel == .wr1

/-- `REFDEV`'s answer to a read (R39): the register at the pointer, or 0xFF when not addressed. -/
def RefDev.byte (r : RefDev) : Byte :=
  if r.sel = .rd then Memory.read r.reg r.ptr.toNat else 0xFF

/-- What `REFDEV` does on a byte sent to it (R39). -/
def RefDev.hearTx (r : RefDev) (tr : List WireEvent) (b : Byte) : RefDev :=
  if afterStart tr then
    if addressOf b = Config.devAddr7 then
      { r with sel := match directionOf b with
                      | .w => .wr0
                      | .r => .rd }
    else { r with sel := .no }
  else
    match r.sel with
    | .wr0 => { r with ptr := b, sel := .wr1 }
    | .wr1 => { r with reg := Memory.write r.reg r.ptr.toNat b }
    | .no => r
    | .rd => r

/-- What `REFDEV` does on an event, given the trace before it (R39). -/
def RefDev.hear (r : RefDev) (tr : List WireEvent) : WireEvent → RefDev
  | .start => { r with sel := .no }
  | .repStart => { r with sel := .no }
  | .tx b _ => r.hearTx tr b
  | .rx _ _ => r
  | .stop => { r with sel := .no }
  | .release => { r with sel := .no }

/-- `REFDEV` after a whole trace, read off the trace (R39). -/
def RefDev.replayFrom (r : RefDev) (before : List WireEvent) : List WireEvent → RefDev
  | [] => r
  | e :: es => RefDev.replayFrom (r.hear before e) (before ++ [e]) es

/-- `DevAck(TRACE, b)` (R38). -/
def Device.ack (d : Device) (tr : List WireEvent) (b : Byte) : Bool :=
  match d with
  | .oracle (k :: _) _ => k
  | .oracle [] _ => Config.devAck tr b
  | .reference r => r.ack tr b

/-- `DevByte(TRACE)` (R38). -/
def Device.byte (d : Device) (tr : List WireEvent) : Byte :=
  match d with
  | .oracle _ (x :: _) => x
  | .oracle _ [] => Config.devByte tr
  | .reference r => r.byte

/-- The device after an event, given the trace before it: the unconstrained device has used up one
listed answer for each byte transfer; the reference device follows R39. -/
def Device.hear (d : Device) (tr : List WireEvent) (e : WireEvent) : Device :=
  match d with
  | .reference r => .reference (r.hear tr e)
  | .oracle acks bytes =>
    match e with
    | .tx _ _ => .oracle acks.tail bytes
    | .rx _ _ => .oracle acks bytes.tail
    | .start => .oracle acks bytes
    | .repStart => .oracle acks bytes
    | .stop => .oracle acks bytes
    | .release => .oracle acks bytes

/-- The register space held for a device is in canonical form. -/
def Device.wf : Device → Bool
  | .oracle _ _ => true
  | .reference r => Memory.wf r.reg

/-! ### Operations on the block's state -/

/-- `TRACE <- TRACE ++ [e]`; the device hears the event. -/
def State.emit (s : State) (e : WireEvent) : State :=
  { s with trace := s.trace ++ [e], dev := s.dev.hear s.trace e }

/-- A launch (R63 to R66): `PEND <- p`, `DONE <- 0`. -/
def State.launched (s : State) (p : Pend) : State :=
  { s with pend := p, done := doneAtLaunch }

/-- The end of every completion (R69): `PEND <- None`, `DONE <- 1`. -/
def State.completed (s : State) : State :=
  { s with pend := .none, done := doneAtCompletion }

/-- `retire` for the host (R60): the command word at the port is used up (log 2). -/
def State.retire (s : State) : State :=
  { s with cmds := s.cmds.tail }

/-- `retire with b` for the host (R56): the byte is returned as well. -/
def State.retireWith (s : State) (b : Byte) : State :=
  { s with cmds := s.cmds.tail, returned := s.returned ++ [b] }

/-- The byte a read of `DATA` gives, and the state after the read: unchanged when a byte is latched;
while `DATA` is unspecified, one more free value is drawn (R68, U1, log 6). -/
def State.readData (s : State) : Byte × State :=
  match s.data with
  | .latched b => (b, s)
  | .unspecified => (Config.freeByte s.draws, { s with draws := s.draws + 1 })

/-- Whose turn it is at a step where the engine is enabled (R5, log 1). -/
def State.nextTurn (s : State) : Turn :=
  match s.sched with
  | t :: _ => t
  | [] => if Config.engineReady s.draws then .engine else .command

/-- The state after that turn has been read off: one scheduled turn, or one free value, used up. -/
def State.turnTaken (s : State) : State :=
  match s.sched with
  | _ :: ts => { s with sched := ts }
  | [] => { s with draws := s.draws + 1 }

/-! ### How a command's rule ends -/

/-- The ways the pseudocode of a command ends (00_scope.md section 6). The host and the sequencer
share the rules and differ in what `retire` does (R94). -/
inductive Act where
  /-- `retire`, in the state given. -/
  | retire (s : State)
  /-- `retire with b`, in the state given. -/
  | retireWith (b : Byte) (s : State)
  /-- `hold`: the condition waited for is false, nothing changes. -/
  | hold
  /-- `raise`: nothing changes, the run is over (R119). -/
  | raise (f : Fault)
  deriving DecidableEq, Repr

/-- A command's rule executed by the host (R60): retiring uses up the word at the port; a held
command stays there. -/
def hostResult (s : State) : Act → Host.Outcome State Fault Refusal
  | .retire t => .next t.retire
  | .retireWith b t => .next (t.retireWith b)
  | .hold => .next s
  | .raise f => .fault f

/-- The two checks of R61 and R91 common to launches and transactions, in their order (R117). -/
def enabledAndFree (c : Cmd) (s : State) : Option Fault :=
  if s.en = false then some (.disabled c)
  else if s.pend = .none then none
  else some (.busy c s.pend)

/-- A launch of `p` by command `c` (R61, R62): the common checks, the phase check `legal`, then the
launch. -/
def launch (c : Cmd) (legal : Bool) (p : Pend) (s : State) : Act :=
  match enabledAndFree c s with
  | some f => .raise f
  | none =>
    if legal then .retire (s.launched p)
    else .raise (.phaseViolation c s.ph s.dir s.rxend)

/-- A transaction's presentation (R91): the common checks, the open-transaction check, then the
sequencer is started. The command does not retire here. -/
def present (c : Cmd) (started : State) (s : State) : Host.Outcome State Fault Refusal :=
  match enabledAndFree c s with
  | some f => .fault f
  | none =>
    if s.ph.released then .next started
    else .fault (.transactionOpen c s.ph)

end Sys2Proof.Machine
end

