-- ==== Sys2Proof/Machine/Control.lean ====
section
/-! DEFINITION. `DISABLE` and `ENABLE` (spec R80, R81), as rules shared by the host and the
sequencer, and as the host's commands. -/

namespace Sys2Proof.Machine

/-- Something is pending or a transaction is open, so that `DISABLE` records `Rel` (R80). -/
def State.wiresHeld (s : State) : Bool := s.pend != .none || !s.ph.released

/-- The transport's state machine reset by `DISABLE` (R80, D13). -/
def State.switchedOff (s : State) : State :=
  { s with en := false, pend := .none, done := false, ph := .idle, dir := none, rxend := false,
           data := .unspecified }

/-- The rule of `DISABLE` (R80): legal with an operation pending and while disabled. -/
def disableRule (s : State) : Act :=
  .retire (if s.wiresHeld then (s.emit .release).switchedOff else s.switchedOff)

/-- The rule of `ENABLE` (R81): `EN <- 1` and nothing else. -/
def enableRule (s : State) : Act := .retire { s with en := true }

/-- `DISABLE` presented by the host (R80). -/
def execDisable (s : State) : Host.Outcome State Fault Refusal := hostResult s (disableRule s)

/-- `ENABLE` presented by the host (R81). -/
def execEnable (s : State) : Host.Outcome State Fault Refusal := hostResult s (enableRule s)

end Sys2Proof.Machine
end

