-- ==== Sys2Proof/Machine/Primitives.lean ====
section
/-! DEFINITION. The six bus primitives (spec R63 to R68), each as a rule shared by the host and the
sequencer, and as the host's command. -/

namespace Sys2Proof.Machine

/-- The rule of `START` (R63). -/
def startRule (s : State) : Act := launch .start (startLegal s.ph) .start s

/-- The rule of `SEND b` (R64). The byte is not inspected. -/
def sendRule (b : Byte) (s : State) : Act := launch .send (sendLegal s.ph s.dir) (.send b) s

/-- The rule of `RECV k` (R65). -/
def recvRule (k : Bool) (s : State) : Act := launch .recv (recvLegal s.ph s.dir s.rxend) (.recv k) s

/-- The rule of `STOP` (R66). -/
def stopRule (s : State) : Act := launch .stop (stopLegal s.ph) .stop s

/-- The rule of `WAIT` (R67): no check, no change, a hold while `DONE = 0`. -/
def waitRule (s : State) : Act := if s.done then .retire s else .hold

/-- The rule of `GETDATA` (R68): legal while disabled and in every phase. -/
def getdataRule (s : State) : Act :=
  if s.pend = .none then .retireWith s.readData.1 s.readData.2
  else .raise (.busy .getdata s.pend)

/-- `START` presented by the host (R63). -/
def execStart (s : State) : Host.Outcome State Fault Refusal := hostResult s (startRule s)

/-- `SEND b` presented by the host (R64). -/
def execSend (b : Byte) (s : State) : Host.Outcome State Fault Refusal := hostResult s (sendRule b s)

/-- `RECV k` presented by the host (R65). -/
def execRecv (k : Bool) (s : State) : Host.Outcome State Fault Refusal := hostResult s (recvRule k s)

/-- `STOP` presented by the host (R66). -/
def execStop (s : State) : Host.Outcome State Fault Refusal := hostResult s (stopRule s)

/-- `WAIT` presented by the host (R67). A hold that nothing can lift is stuck, not a fault (R118,
log 12). -/
def execWait (s : State) : Host.Outcome State Fault Refusal := hostResult s (waitRule s)

/-- `GETDATA` presented by the host (R68). -/
def execGetdata (s : State) : Host.Outcome State Fault Refusal := hostResult s (getdataRule s)

end Sys2Proof.Machine
end

