-- ==== Sys2Proof/Machine/Transactions.lean ====
section
/-! DEFINITION. The register transactions `RDREG` and `WRREG` (spec R90 to R93) and the sequencer's
step (R94, R95). -/

namespace Sys2Proof.Machine

/-- The micro-operations (R92, R93). -/
inductive MicroOp where
  | start
  | send (src : ByteSource)
  | recv (k : Bool)
  | wait
  | getdata
  | stop
  | disable
  | enable
  deriving DecidableEq, Repr

/-- The micro-program of `Rd` (R92). -/
def rdProgram : List MicroOp :=
  [.start, .wait, .send .slaW, .wait, .send .ra, .wait, .start, .wait, .send .slaR, .wait,
   .recv true, .wait, .getdata, .stop, .wait, .disable, .enable]

/-- The micro-program of `Wr` (R93). -/
def wrProgram : List MicroOp :=
  [.start, .wait, .send .slaW, .wait, .send .ra, .wait, .send .rv, .wait, .stop, .wait]

/-- The micro-program of a mode; its length is `LEN(MODE)` (R94). -/
def Mode.program : Mode → List MicroOp
  | .none => []
  | .rd => rdProgram
  | .wr => wrProgram

/-- The micro-operation at `STEP` of the running transaction, if there is one (R94, log 14). -/
def State.microOp (s : State) : Option MicroOp := s.mode.program[s.stepIx.toNat]?

/-- The rule a micro-operation executes: that of the host command of the same name, checks
included (R94). -/
def MicroOp.rule (m : MicroOp) (s : State) : Act :=
  match m with
  | .start => startRule s
  | .send src => sendRule (src.value s) s
  | .recv k => recvRule k s
  | .wait => waitRule s
  | .getdata => getdataRule s
  | .stop => stopRule s
  | .disable => disableRule s
  | .enable => enableRule s

/-- Finishing (R95): the sequencer stops, and the command that started it retires, `RDREG` with
`RES`. -/
def State.finish (s : State) : State :=
  match s.mode with
  | .rd => { s with mode := .none, stepIx := 0 }.retireWith s.res
  | .wr => { s with mode := .none, stepIx := 0 }.retire
  | .none => s

/-- What stands in the place of `retire` in a micro-operation (R94): `STEP` goes up by one, or the
transaction finishes. -/
def State.advance (s : State) : State :=
  if s.stepIx.toNat + 1 < s.mode.program.length then { s with stepIx := s.stepIx + 1 } else s.finish

/-- A rule executed by the sequencer (R94). -/
def sequencerResult (s : State) : Act → Host.Outcome State Fault Refusal
  | .retire t => .next t.advance
  | .retireWith b t => .next { t with res := b }.advance
  | .hold => .next s
  | .raise f => .fault f

/-- The sequencer's step (R94). At a `STEP` past the end of the micro-program, which no run reaches
(R24 item 5), no micro-operation stands and nothing happens (log 14). -/
def sequencerStep (s : State) : Host.Outcome State Fault Refusal :=
  match s.microOp with
  | some m => sequencerResult s (m.rule s)
  | none => .next s

/-- `RDREG a` presented by the host (R91, R92). -/
def execRdreg (a : Byte) (s : State) : Host.Outcome State Fault Refusal :=
  present .rdreg { s with mode := .rd, ra := a, stepIx := 0 } s

/-- `WRREG a, v` presented by the host (R91, R93). -/
def execWrreg (a v : Byte) (s : State) : Host.Outcome State Fault Refusal :=
  present .wrreg { s with mode := .wr, ra := a, rv := v, stepIx := 0 } s

end Sys2Proof.Machine
end

