-- ==== Sys2Proof/Machine/Dispatch.lean ====
section
/-! DEFINITION. The rule of the decoded command (spec R60): one arm per command of R53. -/

namespace Sys2Proof.Machine

def exec (i : Instr) (s : State) : Host.Outcome State Fault Refusal :=
  match i with
  | .start => Sys2Proof.Machine.execStart s
  | .send b => Sys2Proof.Machine.execSend b s
  | .recv k => Sys2Proof.Machine.execRecv k s
  | .wait => Sys2Proof.Machine.execWait s
  | .getdata => Sys2Proof.Machine.execGetdata s
  | .stop => Sys2Proof.Machine.execStop s
  | .disable => Sys2Proof.Machine.execDisable s
  | .enable => Sys2Proof.Machine.execEnable s
  | .rdreg a => Sys2Proof.Machine.execRdreg a s
  | .wrreg a v => Sys2Proof.Machine.execWrreg a v s

end Sys2Proof.Machine
end

