-- ==== Sys2Proof/Machine/Engine.lean ====
section
/-! DEFINITION. The bus engine's completion steps (spec R69 to R73). They raise no fault (R111). -/

namespace Sys2Proof.Machine

/-- The event a completed `Start` leaves: `S` on a free bus, `Sr` otherwise (R19, R70). -/
def startEvent (ph : Phase) : WireEvent := if ph.released then .start else .repStart

/-- Completion of `Start` (R70). -/
def completeStart (s : State) : State :=
  { s.emit (startEvent s.ph) with ph := .startSent, dir := none, rxend := false }.completed

/-- Completion of `Send(b)` (R71). The acknowledge bit goes to the trace only (D10, log 11). -/
def completeSend (b : Byte) (s : State) : State :=
  let t := s.emit (.tx b (s.dev.ack s.trace b))
  if s.ph = .startSent then { t with ph := .addrSent, dir := some (directionOf b) }.completed
  else { t with ph := .dataSent }.completed

/-- Completion of `Recv(k)` (R72). -/
def completeRecv (k : Bool) (s : State) : State :=
  let d := s.dev.byte s.trace
  { s.emit (.rx d k) with data := .latched d, ph := .dataRcvd, rxend := rxendAfter k }.completed

/-- Completion of `Stop` (R73). -/
def completeStop (s : State) : State :=
  { s.emit .stop with ph := .stopSent, dir := none, rxend := false }.completed

/-- The engine's step (R69): it completes the pending operation. It is taken only where
`State.engineEnabled` holds; with nothing pending it changes nothing. -/
def engineStep (s : State) : State :=
  match s.pend with
  | .none => s
  | .start => completeStart s
  | .send b => completeSend b s
  | .recv k => completeRecv k s
  | .stop => completeStop s

end Sys2Proof.Machine
end

