-- ==== Sys2Proof/Machine/Agents.lean ====
section
/-! DEFINITION. The steps of the agents (spec R5): the host's step with its command port (R60), the
command side (host or sequencer, R90), and placing a command at the port. -/

namespace Sys2Proof.Machine

/-- The host's step (R60): it presents the word at the command port. With no word left it presents
nothing and nothing happens (R136, log 13). -/
def hostStep (s : State) : Host.Outcome State Fault Refusal :=
  match s.cmds with
  | [] => .next s
  | w :: _ =>
    match decode w with
    | .error _ => .fault (.illegalCommand w)
    | .ok i => exec i s

/-- The command side's step: the host is held while a transaction runs (R60, R90). -/
def commandStep (s : State) : Host.Outcome State Fault Refusal :=
  match s.mode with
  | .none => hostStep s
  | .rd => sequencerStep s
  | .wr => sequencerStep s

/-- `w` placed in front of the host's list, at the command port. -/
def State.withCommand (s : State) (w : Command) : State :=
  { s with cmds := w :: s.cmds }

/-- No transaction runs, so that the host's step is enabled (R60). -/
def State.hostFreed (s : State) : State :=
  if s.mode = .none then s else { s with mode := .none, stepIx := 0 }

/-- The next turn is the command side's, where there is a turn to decide (R5). -/
def State.commandNext (s : State) : State :=
  if s.engineEnabled then { s with sched := .command :: s.sched } else s

end Sys2Proof.Machine
end

