-- ==== Sys2Proof/Machine/Step.lean ====
section
/-! DEFINITION. One step of the block and its environment (spec R5). -/

namespace Sys2Proof.Machine

/-- One step. The engine, when enabled, may or may not be the agent that takes it (R5, R69); the turn
is read off the state (log 1). Otherwise the command side takes it. -/
def step (s : State) : Host.Outcome State Fault Refusal :=
  if s.engineEnabled then
    match s.nextTurn with
    | .engine => .next (engineStep s.turnTaken)
    | .command => commandStep s.turnTaken
  else commandStep s

/-- `s` with the command word `w` of a table row placed at the command port, so that the very next
step presents it (log 2, log 20). -/
def State.withFetchWord (s : State) (nbits w : Nat) : State :=
  ((s.withCommand (BitVec.ofNat 24 (w % 2 ^ nbits))).hostFreed).commandNext

end Sys2Proof.Machine
end

