-- ==== Sys2Proof/Machine/Text.lean ====
section
/-! DEFINITION. The text form of commands and the pseudo-commands (spec R57, R58). Text is a list of
characters, one line a command; the block never sees it (D28). -/

namespace Sys2Proof

/-! ### Pseudo-commands (R58) -/

/-- `BUSRESET` (R58, R82). -/
def busreset : List Instr := [.disable, .enable]

/-- `SENDW b` (R58). -/
def sendw (b : Byte) : List Instr := [.send b, .wait]

/-- `STARTW` (R58). -/
def startw : List Instr := [.start, .wait]

/-- `RECVW k` (R58). -/
def recvw (k : Bool) : List Instr := [.recv k, .wait]

/-- `STOPW` (R58). -/
def stopw : List Instr := [.stop, .wait]

/-! ### Writing a command -/

/-- The mnemonic of R53, upper case (R57). -/
def Cmd.mnemonic : Cmd → List Char
  | .start => ['S', 'T', 'A', 'R', 'T']
  | .send => ['S', 'E', 'N', 'D']
  | .recv => ['R', 'E', 'C', 'V']
  | .wait => ['W', 'A', 'I', 'T']
  | .getdata => ['G', 'E', 'T', 'D', 'A', 'T', 'A']
  | .stop => ['S', 'T', 'O', 'P']
  | .disable => ['D', 'I', 'S', 'A', 'B', 'L', 'E']
  | .enable => ['E', 'N', 'A', 'B', 'L', 'E']
  | .rdreg => ['R', 'D', 'R', 'E', 'G']
  | .wrreg => ['W', 'R', 'R', 'E', 'G']

/-- The digits of R57's numbers, upper case. -/
def hexDigits : List Char :=
  ['0', '1', '2', '3', '4', '5', '6', '7', '8', '9', 'A', 'B', 'C', 'D', 'E', 'F']

/-- A byte in C-style hexadecimal, two digits. -/
def byteText (b : Byte) : List Char :=
  ['0', 'x', hexDigits.getD (b.toNat / 16) '0', hexDigits.getD (b.toNat % 16) '0']

/-- The operands of a command as text (R57). -/
def Instr.operandText : Instr → List Char
  | .start => []
  | .send b => ' ' :: byteText b
  | .recv k => [' ', if k then '1' else '0']
  | .wait => []
  | .getdata => []
  | .stop => []
  | .disable => []
  | .enable => []
  | .rdreg a => ' ' :: byteText a
  | .wrreg a v => ' ' :: byteText a ++ [',', ' '] ++ byteText v

/-- A command as a line of text (R57). -/
def Instr.text (i : Instr) : List Char := i.cmd.mnemonic ++ i.operandText

/-! ### Reading a line -/

/-- A token finished: `acc` holds its characters, last one first. -/
def closeToken (acc : List Char) (rest : List (List Char)) : List (List Char) :=
  match acc with
  | [] => rest
  | _ :: _ => acc.reverse :: rest

/-- The tokens of a line: blanks separate, a comma is a token of its own, `;` starts a comment. -/
def tokens : List Char → (acc : List Char) → List (List Char)
  | [], acc => closeToken acc []
  | c :: cs, acc =>
    if c = ';' then closeToken acc []
    else if c = ' ' ∨ c = '\t' then closeToken acc (tokens cs [])
    else if c = ',' then closeToken acc ([','] :: tokens cs [])
    else tokens cs (c :: acc)

/-- The value of a digit, in either case. -/
def digitValue (c : Char) : Option Nat :=
  let n := c.toNat
  if 48 ≤ n ∧ n ≤ 57 then some (n - 48)
  else if 65 ≤ n ∧ n ≤ 70 then some (n - 55)
  else if 97 ≤ n ∧ n ≤ 102 then some (n - 87)
  else none

/-- The value of digits in a base, most significant first. -/
def digitsValue (base : Nat) : List Char → (acc : Nat) → Option Nat
  | [], acc => some acc
  | c :: cs, acc =>
    match digitValue c with
    | some d => if d < base then digitsValue base cs (acc * base + d) else none
    | none => none

/-- A number in hexadecimal (`0x`), binary (`0b`) or decimal (R57). -/
def numberValue : List Char → Option Nat
  | [] => none
  | [c] => digitsValue 10 [c] 0
  | [c, d] => digitsValue 10 [c, d] 0
  | c :: d :: e :: cs =>
    if c = '0' ∧ (d = 'x' ∨ d = 'X') then digitsValue 16 (e :: cs) 0
    else if c = '0' ∧ (d = 'b' ∨ d = 'B') then digitsValue 2 (e :: cs) 0
    else digitsValue 10 (c :: d :: e :: cs) 0

/-- A byte operand. -/
def byteOperand (t : List Char) : Option Byte :=
  match numberValue t with
  | some n => if n < 256 then some (BitVec.ofNat 8 n) else none
  | none => none

/-- `RECV`'s operand: 0 or 1 only (R57). -/
def bitOperand (t : List Char) : Option Bool :=
  match numberValue t with
  | some n => if n = 0 then some false else if n = 1 then some true else none
  | none => none

/-- The commands without operand, pseudo-commands among them. -/
def plainCommands : List (List Char × List Instr) :=
  [(Cmd.start.mnemonic, [.start]), (Cmd.wait.mnemonic, [.wait]), (Cmd.getdata.mnemonic, [.getdata]),
   (Cmd.stop.mnemonic, [.stop]), (Cmd.disable.mnemonic, [.disable]), (Cmd.enable.mnemonic, [.enable]),
   (['B', 'U', 'S', 'R', 'E', 'S', 'E', 'T'], busreset), (['S', 'T', 'A', 'R', 'T', 'W'], startw),
   (['S', 'T', 'O', 'P', 'W'], stopw)]

/-- The commands of one operand, pseudo-commands among them. -/
def oneOperand (name operand : List Char) : Option (List Instr) :=
  if name = Cmd.send.mnemonic then (byteOperand operand).map fun b => [.send b]
  else if name = Cmd.recv.mnemonic then (bitOperand operand).map fun k => [.recv k]
  else if name = Cmd.rdreg.mnemonic then (byteOperand operand).map fun a => [.rdreg a]
  else if name = ['S', 'E', 'N', 'D', 'W'] then (byteOperand operand).map sendw
  else if name = ['R', 'E', 'C', 'V', 'W'] then (bitOperand operand).map recvw
  else none

/-- The commands of two operands. -/
def twoOperands (name x y : List Char) : Option (List Instr) :=
  if name = Cmd.wrreg.mnemonic then
    (byteOperand x).bind fun a => (byteOperand y).map fun v => [.wrreg a v]
  else none

/-- The commands a line of text stands for (R57, R58): none for a blank or comment line. Only the
mnemonics of R53 and the pseudo-commands of R58 are read: DOC0's own spellings, which R57 says may be
read as aliases (`sendStart()` for `START`), are refused (DESIGN CHOICE, log 24). -/
def assembleLine (line : List Char) : Option (List Instr) :=
  match tokens line [] with
  | [] => some []
  | [name] => plainCommands.lookup name
  | [name, x] => oneOperand name x
  | [name, x, comma, y] => if comma = [','] then twoOperands name x y else none
  | _ => none

end Sys2Proof
end

