-- ==== Sys2Proof/Safety.lean ====
section
/-! DEFINITION. What claims about the block are stated in: runs (spec R136), the invariants of
reachable states (R24), the trace grammar (R75), the rows of R96, well-sequenced command lists (R74),
stuck and hanging states (R118) and the bus-reset hazard (R133). -/

namespace Sys2Proof.Machine

/-! ### Runs (R136) -/

/-- `n` steps, stopping at the first fault: the host's `Core.run` of this machine (`steps_eq_run`). -/
def steps : Nat → State → Host.Outcome State Fault Refusal
  | 0, s => .next s
  | n + 1, s =>
    match step s with
    | .next t => steps n t
    | .fault f => .fault f
    | .refused r => .refused r

/-- A machine about to run a list of command words: the reset state for some `EN_RESET`, with the
words in the host's list and some environment (R130, R136). -/
def State.begin (enReset : Bool) (cmds : List Command) (sched : List Turn) (draws : Nat)
    (dev : Device) : State :=
  { State.resetWith enReset with cmds := cmds, sched := sched, draws := draws, dev := dev }

/-- The run has ended well (R136): the last command has retired and no transaction runs. -/
abbrev State.Ended (s : State) : Prop := s.cmds = [] ∧ s.mode = .none

/-- The bus is released and nothing is pending (R136). -/
abbrev State.Released (s : State) : Prop := s.pend = .none ∧ s.ph.released = true

/-- The outcome is a next state. -/
def isNext : Host.Outcome State Fault Refusal → Bool
  | .next _ => true
  | .fault _ => false
  | .refused _ => false

/-! ### Who moves (R5) -/

/-- The engine is the agent that takes this step (R69). -/
abbrev State.EngineMoves (s : State) : Prop := s.engineEnabled = true ∧ s.nextTurn = .engine

/-- The host command a micro-operation is (R94). -/
def MicroOp.command (m : MicroOp) (s : State) : Instr :=
  match m with
  | .start => .start
  | .send src => .send (src.value s)
  | .recv k => .recv k
  | .wait => .wait
  | .getdata => .getdata
  | .stop => .stop
  | .disable => .disable
  | .enable => .enable

/-- The command the command side executes when it moves: the one at the command port, or the
micro-operation at `STEP`. -/
def State.current (s : State) : Option Instr :=
  match s.mode with
  | .none => s.cmds.head?.bind fun w => (decode w).toOption
  | .rd => s.microOp.map fun m => m.command s
  | .wr => s.microOp.map fun m => m.command s

/-- The device after it has heard a list of events, given the trace before them. -/
def Device.hearAll (d : Device) (tr : List WireEvent) : List WireEvent → Device
  | [] => d
  | e :: es => Device.hearAll (d.hear tr e) (tr ++ [e]) es

/-- From `s1`, the running transaction first finishes after `n` steps, in state `t`. -/
def FinishesAt (n : Nat) (s1 t : State) : Prop :=
  steps n s1 = .next t ∧ t.mode = .none ∧
  ∀ m u, m < n → steps m s1 = .next u → u.mode ≠ .none

/-- The instruction is a register transaction. -/
def isTransaction : Instr → Bool
  | .rdreg _ => true
  | .wrreg _ _ => true
  | .start => false
  | .send _ => false
  | .recv _ => false
  | .wait => false
  | .getdata => false
  | .stop => false
  | .disable => false
  | .enable => false

/-! ### The trace (R19, R24, R75) -/

/-- Whether a transaction is open after a trace: an `S` with no `P` or `Rel` since (R24 item 6). -/
def openAfter : Bool → List WireEvent → Bool
  | o, [] => o
  | _, .start :: es => openAfter true es
  | _, .stop :: es => openAfter false es
  | _, .release :: es => openAfter false es
  | o, .repStart :: es => openAfter o es
  | o, .tx _ _ :: es => openAfter o es
  | o, .rx _ _ :: es => openAfter o es

/-- R24 item 6 for a trace. -/
def Bracketed (tr : List WireEvent) : Prop :=
  ∀ (before : List WireEvent) (e : WireEvent) (after : List WireEvent), tr = before ++ (e :: after) →
    (e = .start → openAfter false before = false) ∧
    (e ≠ .start → e ≠ .release → openAfter false before = true)

/-- The points between the symbols of the grammar of R75. -/
inductive BusPoint where
  /-- Between segments. -/
  | closed
  /-- After `S` or `Sr`. -/
  | started
  /-- After an address byte; `d` is the direction its bit 0 names. -/
  | addressed (d : Dir)
  /-- After a data byte sent. -/
  | sent
  /-- After a data byte received and acknowledged (`k`) or not. -/
  | received (k : Bool)
  deriving DecidableEq, Repr

/-- One symbol of the grammar of R75: where it may stand and where it leads. -/
def BusPoint.next : BusPoint → WireEvent → Option BusPoint
  | _, .release => some .closed
  | .closed, .start => some .started
  | .started, .tx b _ => some (.addressed (if b.getLsbD 0 then .r else .w))
  | .addressed .w, .tx _ _ => some .sent
  | .addressed .r, .rx _ k => some (.received k)
  | .sent, .tx _ _ => some .sent
  | .received true, .rx _ k => some (.received k)
  | .addressed _, .repStart => some .started
  | .sent, .repStart => some .started
  | .received _, .repStart => some .started
  | .addressed _, .stop => some .closed
  | .sent, .stop => some .closed
  | .received _, .stop => some .closed
  | .closed, _ => none
  | .started, _ => none
  | .addressed _, _ => none
  | .sent, _ => none
  | .received _, _ => none

/-- Where a trace leads, if the grammar of R75 admits it. -/
def BusPoint.after : BusPoint → List WireEvent → Option BusPoint
  | p, [] => some p
  | p, e :: es =>
    match p.next e with
    | some q => q.after es
    | none => none

/-- The grammar of R75 admits the trace. -/
def Grammatical (tr : List WireEvent) : Prop := (BusPoint.closed.after tr).isSome = true

/-- The grammar point that `PH`, `DIR` and `RXEND` stand for. -/
def State.busPoint (s : State) : Option BusPoint :=
  match s.ph with
  | .idle => some .closed
  | .stopSent => some .closed
  | .startSent => some .started
  | .addrSent => s.dir.map .addressed
  | .dataSent => some .sent
  | .dataRcvd => some (.received !s.rxend)

/-! ### The invariants of reachable states (R24) -/

/-- R24 item 1. -/
abbrev State.PendingEnabled (s : State) : Prop := s.pend ≠ .none → s.en = true ∧ s.done = false

/-- R24 item 2. -/
abbrev State.DisabledQuiet (s : State) : Prop :=
  s.en = false →
    s.pend = .none ∧ s.done = false ∧ s.ph = .idle ∧ s.rxend = false ∧ s.dir = none

/-- R24 item 3. -/
abbrev State.DirMatchesPhase (s : State) : Prop :=
  (s.dir.isSome = true ↔ s.ph = .addrSent ∨ s.ph = .dataSent ∨ s.ph = .dataRcvd) ∧
  (s.ph = .dataSent → s.dir = some .w) ∧ (s.ph = .dataRcvd → s.dir = some .r)

/-- R24 item 4. -/
abbrev State.RxendMatchesPhase (s : State) : Prop := s.rxend = true → s.ph = .dataRcvd

/-- R24 item 5. -/
abbrev State.StepInRange (s : State) : Prop :=
  (s.mode = .none → s.stepIx = 0) ∧ (s.mode = .rd → s.stepIx.toNat ≤ 16) ∧
  (s.mode = .wr → s.stepIx.toNat ≤ 9)

/-- Items 1 to 6 of R24. -/
def State.R24Items (s : State) : Prop :=
  s.PendingEnabled ∧ s.DisabledQuiet ∧ s.DirMatchesPhase ∧ s.RxendMatchesPhase ∧ s.StepInRange ∧
  Bracketed s.trace

/-- The phase table's column of an operation: it may be launched in the given phase, direction and
`RXEND` (R62). -/
def Pend.legal (ph : Phase) (dir : Option Dir) (rxend : Bool) : Pend → Bool
  | .none => true
  | .start => startLegal ph
  | .send _ => sendLegal ph dir
  | .recv _ => recvLegal ph dir rxend
  | .stop => stopLegal ph

/-- The pending operation is one the phase table allows in the present phase: `PH` cannot change
between a launch and its completion (R62). -/
abbrev State.PendingLegal (s : State) : Prop := s.pend.legal s.ph s.dir s.rxend = true

/-- The invariant every step keeps: items 1 to 5 of R24, the pending operation's legality, and the
trace standing at the grammar point that the phase names, which implies item 6 and R75. -/
abbrev State.Inv (s : State) : Prop :=
  s.PendingEnabled ∧ s.DisabledQuiet ∧ s.DirMatchesPhase ∧ s.RxendMatchesPhase ∧ s.StepInRange ∧
  s.PendingLegal ∧ BusPoint.closed.after s.trace = s.busPoint

/-! ### The sequencer (R91, R96) -/

/-- The checks of R91 pass. -/
abbrev State.PassesR91 (s : State) : Prop :=
  s.en = true ∧ s.pend = .none ∧ s.ph.released = true

/-- The transport with nothing pending, enabled, at a phase with its direction and `RXEND`. -/
abbrev State.At (s : State) (ph : Phase) (dir : Option Dir) (rxend : Bool) : Prop :=
  s.en = true ∧ s.pend = .none ∧ s.ph = ph ∧ s.dir = dir ∧ s.rxend = rxend

/-- The rows of R96 for `Rd`: the state before the micro-operation at a `STEP` that has a row. -/
def State.RdRow (s : State) : Prop :=
  match s.stepIx.toNat with
  | 0 => s.At .idle none false ∨ s.At .stopSent none false
  | 2 => s.At .startSent none false
  | 4 => s.At .addrSent (some .w) false
  | 6 => s.At .dataSent (some .w) false
  | 8 => s.At .startSent none false
  | 10 => s.At .addrSent (some .r) false
  | 12 => s.At .dataRcvd (some .r) false
  | 13 => s.At .dataRcvd (some .r) false
  | 15 => s.At .stopSent none false
  | 16 => s.en = false ∧ s.pend = .none ∧ s.ph = .idle ∧ s.dir = none ∧ s.rxend = false
  | _ => True

/-- The rows of R96 for `Wr`. -/
def State.WrRow (s : State) : Prop :=
  match s.stepIx.toNat with
  | 0 => (s.At .idle none s.rxend ∨ s.At .stopSent none s.rxend)
  | 2 => s.At .startSent none s.rxend
  | 4 => s.At .addrSent (some .w) s.rxend
  | 6 => s.At .dataSent (some .w) s.rxend
  | 8 => s.At .dataSent (some .w) s.rxend
  | _ => True

/-- The events of `RDREG a` up to its reception, with the device's acknowledge bits (R97). -/
def readAsked (a : Byte) (k1 k2 k3 : Bool) : List WireEvent :=
  [.start, .tx 0xB4 k1, .tx a k2, .repStart, .tx 0xB5 k3]

/-- The events of `WRREG a, v`, with the device's acknowledge bits (R99). -/
def writeEvents (a v : Byte) (k1 k2 k3 : Bool) : List WireEvent :=
  [.start, .tx 0xB4 k1, .tx a k2, .tx v k3, .stop]

/-- The list of host commands `RDREG a` is equivalent to (R98). -/
def readAsPrimitives (a : Byte) : List Instr :=
  [.start, .wait, .send 0xB4, .wait, .send a, .wait, .start, .wait, .send 0xB5, .wait,
   .recv true, .wait, .getdata, .stop, .wait, .disable, .enable]

/-- The list of host commands `WRREG a, v` is equivalent to (R98). -/
def writeAsPrimitives (a v : Byte) : List Instr :=
  [.start, .wait, .send 0xB4, .wait, .send a, .wait, .send v, .wait, .stop, .wait]

/-- What R98 compares: the transport, the trace, and the environment that drives both runs. -/
structure BusView where
  en : Bool
  done : Bool
  pend : Pend
  ph : Phase
  dir : Option Dir
  rxend : Bool
  data : Latch
  trace : List WireEvent
  sched : List Turn
  draws : Nat
  dev : Device
  deriving DecidableEq, Repr

/-- That part of a state. -/
def State.view (s : State) : BusView :=
  { en := s.en, done := s.done, pend := s.pend, ph := s.ph, dir := s.dir, rxend := s.rxend,
    data := s.data, trace := s.trace, sched := s.sched, draws := s.draws, dev := s.dev }

/-! ### Well-sequenced command lists (R74, log 18) -/

/-- The four launches (R61). -/
def isLaunch : Instr → Bool
  | .start => true
  | .send _ => true
  | .recv _ => true
  | .stop => true
  | .wait => false
  | .getdata => false
  | .disable => false
  | .enable => false
  | .rdreg _ => false
  | .wrreg _ _ => false

/-- The commands that raise `Busy` while an operation is pending (R111). -/
def needsFree : Instr → Bool
  | .start => true
  | .send _ => true
  | .recv _ => true
  | .stop => true
  | .getdata => true
  | .rdreg _ => true
  | .wrreg _ _ => true
  | .wait => false
  | .disable => false
  | .enable => false

/-- Between a launch and the next command that needs the transport free stands a `WAIT`; `launched`
says whether a launch without its `WAIT` precedes the list. -/
def wellSequenced : (launched : Bool) → List Instr → Bool
  | _, [] => true
  | launched, i :: is =>
    !(launched && needsFree i) &&
      wellSequenced (isLaunch i || (launched && i != .wait)) is

/-! ### Stuck and hanging (R118) -/

/-- The host or the sequencer stands at a `WAIT`. -/
def State.atWait (s : State) : Bool :=
  match s.mode with
  | .none => s.cmds.head? == some (encode .wait)
  | .rd => s.microOp == some .wait
  | .wr => s.microOp == some .wait

/-- `WaitNoOperation` (R118): at a `WAIT` that nothing can lift. -/
abbrev State.WaitNoOperation (s : State) : Prop :=
  s.atWait = true ∧ s.done = false ∧ s.pend = .none

/-- `EngineNeverReady` (R118), as far as the scheduled turns go: at a `WAIT`, the engine enabled, and
no turn of the next `n` is its own. -/
abbrev State.EngineNotReadyFor (n : Nat) (s : State) : Prop :=
  s.atWait = true ∧ s.done = false ∧ s.engineEnabled = true ∧
  s.sched.take n = List.replicate n .command

/-! ### The bus-reset hazard (R133) -/

/-- The last segment of a trace holds a received byte. -/
def readInLastSegment : Bool → List WireEvent → Bool
  | r, [] => r
  | _, .start :: es => readInLastSegment false es
  | _, .rx _ _ :: es => readInLastSegment true es
  | r, .repStart :: es => readInLastSegment r es
  | r, .tx _ _ :: es => readInLastSegment r es
  | r, .stop :: es => readInLastSegment r es
  | r, .release :: es => readInLastSegment r es

/-- A read has ended with its stop condition and no `DISABLE` has followed (R133): a launch here is
one whose behaviour on hardware the model may miss. A cautious claim takes its absence as a premise. -/
def State.readNotReset (s : State) : Bool :=
  s.ph == .stopSent && readInLastSegment false s.trace

end Sys2Proof.Machine
end

