-- ==== Sys2Proof/Certificates/Slice0/Obligations.lean ====
section
/-! DEFINITION. The statements for the provers. Each names the rule of `spec/` it formalises. A next
state written as a record update of `s` states the instruction's frame as well: every field not named
in it is unchanged. `cmds := s.cmds.tail` is the model's form of "retire" (log 2), `returned` holds the
bytes given back (log 3), and a hold is a next state equal to the state (log 12). -/

open Sys2Proof Sys2Proof.Machine

/-! ### Encoding -/

/-- Every command is well formed and the decoder reads its word back, with every operand at every
value (R50 to R53). -/
def Obligations.EveryCommandDecodesBack : Prop :=
  ∀ i : Instr, i.wellFormed = true ∧ decode (encode i) = .ok i

/-- A word that decodes is the encoding of what it decodes to: no bit of a legal word is ignored
(R51, R54). -/
def Obligations.EveryDecodedWordEncodesBack : Prop :=
  ∀ (w : Command) (i : Instr), decode w = .ok i → encode i = w

/-- R53's table: a word is a command exactly when it matches the row, with the operand fields the row
gives. -/
def Obligations.TableRowsDecode : Prop :=
  ∀ w : Command,
    (w &&& 0xFFFFFF = 0x010000 ↔ decode w = .ok .start) ∧
    (w &&& 0xFF00FF = 0x020000 ↔ decode w = .ok (.send (w.extractLsb' 8 8))) ∧
    (w &&& 0xFFFEFF = 0x030000 ↔ decode w = .ok (.recv (w.getLsbD 8))) ∧
    (w &&& 0xFFFFFF = 0x040000 ↔ decode w = .ok .wait) ∧
    (w &&& 0xFFFFFF = 0x050000 ↔ decode w = .ok .getdata) ∧
    (w &&& 0xFFFFFF = 0x060000 ↔ decode w = .ok .stop) ∧
    (w &&& 0xFFFFFF = 0x070000 ↔ decode w = .ok .disable) ∧
    (w &&& 0xFFFFFF = 0x080000 ↔ decode w = .ok .enable) ∧
    (w &&& 0xFF00FF = 0x100000 ↔ decode w = .ok (.rdreg (w.extractLsb' 8 8))) ∧
    (w &&& 0xFF0000 = 0x110000 ↔ decode w = .ok (.wrreg (w.extractLsb' 8 8) (w.extractLsb' 0 8)))

/-- R54, R112: a word that matches no row of R53's table raises `IllegalCommand`, whatever the state
of the block; the words with an unassigned opcode, and those with a legal opcode and a non-zero
must-be-zero field, are such words. -/
def Obligations.IllegalWordsRaise : Prop :=
  (∀ (s : State) (w : Command) (rest : List Command),
    s.mode = .none → ¬ s.EngineMoves → s.cmds = w :: rest →
    (∀ c : Cmd, w &&& c.maskWord ≠ c.matchWord) → step s = .fault (.illegalCommand w)) ∧
  (∀ w : Command,
    opOf w ∉ [0x01, 0x02, 0x03, 0x04, 0x05, 0x06, 0x07, 0x08, 0x10, 0x11] →
    ∀ c : Cmd, w &&& c.maskWord ≠ c.matchWord) ∧
  (∀ w : Command,
    (opOf w ∈ [0x01, 0x04, 0x05, 0x06, 0x07, 0x08] ∧ (aOf w ≠ 0 ∨ bOf w ≠ 0)) ∨
    (opOf w ∈ [0x02, 0x10] ∧ bOf w ≠ 0) ∨
    (opOf w = 0x03 ∧ ((aOf w).extractLsb' 1 7 ≠ 0 ∨ bOf w ≠ 0)) →
    ∀ c : Cmd, w &&& c.maskWord ≠ c.matchWord)

/-- Words written out from R53's table decode to the commands they stand for, and words R54 names
are rejected (95_test_vectors.md section 2.1). -/
def Obligations.SpecWordsDecode : Prop :=
  decode 0x010000 = .ok .start ∧ decode 0x02B400 = .ok (.send 0xB4) ∧
  decode 0x030000 = .ok (.recv false) ∧ decode 0x030100 = .ok (.recv true) ∧
  decode 0x040000 = .ok .wait ∧ decode 0x050000 = .ok .getdata ∧ decode 0x060000 = .ok .stop ∧
  decode 0x070000 = .ok .disable ∧ decode 0x080000 = .ok .enable ∧
  decode 0x10FF00 = .ok (.rdreg 0xFF) ∧ decode 0x112B01 = .ok (.wrreg 0x2B 0x01) ∧
  decode 0x000000 = .error (.unassignedOpcode 0x00) ∧
  decode 0x030200 = .error (.nonZeroField .recv)

/-- R57: the text of every command reads back as that command. -/
def Obligations.TextReadsBack : Prop :=
  ∀ i : Instr, assembleLine i.text = some [i]

/-- R58: each pseudo-command stands for its list of commands, in text as well. -/
def Obligations.PseudoCommandsExpand : Prop :=
  assembleLine ['B', 'U', 'S', 'R', 'E', 'S', 'E', 'T'] = some [.disable, .enable] ∧
  assembleLine ['S', 'T', 'A', 'R', 'T', 'W'] = some [.start, .wait] ∧
  assembleLine ['S', 'T', 'O', 'P', 'W'] = some [.stop, .wait] ∧
  (∀ b : Byte, assembleLine (['S', 'E', 'N', 'D', 'W', ' '] ++ byteText b) =
    some [.send b, .wait]) ∧
  (∀ k : Bool, assembleLine ['R', 'E', 'C', 'V', 'W', ' ', if k then '1' else '0'] =
    some [.recv k, .wait])

/-! ### The step -/

/-- A step in which the command side moves, with no transaction running and a legal word at the
command port, is `exec` of the decoded command; where the engine was enabled too, the turn has been
read off first (R60, log 1). The turn changes `sched` and `draws` only. -/
def Obligations.StepPresentsTheCommand : Prop :=
  ∀ (s : State) (w : Command) (rest : List Command) (i : Instr),
    s.mode = .none → s.cmds = w :: rest → decode w = .ok i →
    (s.engineEnabled = false → step s = exec i s) ∧
    (s.engineEnabled = true → s.nextTurn = .command → step s = exec i s.turnTaken) ∧
    s.turnTaken = { s with sched := s.turnTaken.sched, draws := s.turnTaken.draws }

/-- A table row's word placed with `withFetchWord` is presented by the very next step, in every state
and right after reset (log 2, log 20). -/
def Obligations.FetchedWordRuns : Prop :=
  ∀ (w : Nat) (i : Instr), decodeTableWord 24 w = some i →
    step (State.reset.withFetchWord 24 w) = exec i (State.reset.withFetchWord 24 w) ∧
    ∀ s : State, ∃ u : State, step (s.withFetchWord 24 w) = exec i u ∧
      u.mode = .none ∧ u.cmds = BitVec.ofNat 24 w :: s.cmds ∧ u.view = s.view

/-- The engine's step (R69) is enabled exactly when `EN = 1` and something is pending. Enabled, it may
still leave the step to the command side (R5): who takes it, and the turn read off (`EngineMoves`,
`turnTaken`), are the model's choice of log 1. Every step it takes ends with nothing pending and
`DONE` set; it takes no step when nothing is pending; and while an operation is pending on an enabled
transport the host can do nothing but hold at `WAIT`, `DISABLE`, `ENABLE`, or fault with `Busy`. -/
def Obligations.EngineStepCompletes : Prop :=
  (∀ s : State, s.engineEnabled = true ↔ s.en = true ∧ s.pend ≠ .none) ∧
  (∀ s : State, s.EngineMoves →
    step s = .next (engineStep s.turnTaken) ∧ (engineStep s.turnTaken).pend = .none ∧
    (engineStep s.turnTaken).done = true ∧ (engineStep s.turnTaken).cmds = s.cmds ∧
    (engineStep s.turnTaken).mode = s.mode) ∧
  (∀ s : State, ¬ s.EngineMoves → step s = commandStep s ∨ step s = commandStep s.turnTaken) ∧
  (∀ s : State, s.pend = .none → step s = commandStep s) ∧
  (∀ (s : State) (i : Instr), s.en = true → s.pend ≠ .none → s.done = false →
    exec i s = .fault (.busy i.cmd s.pend) ∨ i = .disable ∨ i = .enable ∨
    (i = .wait ∧ exec i s = .next s))

/-! ### The bus primitives -/

/-- R63, whole: encoding, checks in order, effect, and nothing else changed. -/
def Obligations.StartRule : Prop :=
  encode .start = 0x010000 ∧
  ∀ s : State,
    (s.en = false → exec .start s = .fault (.disabled .start)) ∧
    (s.en = true → s.pend ≠ .none → exec .start s = .fault (.busy .start s.pend)) ∧
    (s.en = true → s.pend = .none → s.ph = .startSent →
      exec .start s = .fault (.phaseViolation .start s.ph s.dir s.rxend)) ∧
    (s.en = true → s.pend = .none → s.ph ≠ .startSent →
      exec .start s = .next { s with pend := .start, done := false, cmds := s.cmds.tail })

/-- R64, whole. -/
def Obligations.SendRule : Prop :=
  ∀ (b : Byte) (s : State),
    encode (.send b) = (0x020000#24 ||| (b.setWidth 24 <<< 8)) ∧
    (s.en = false → exec (.send b) s = .fault (.disabled .send)) ∧
    (s.en = true → s.pend ≠ .none → exec (.send b) s = .fault (.busy .send s.pend)) ∧
    (s.en = true → s.pend = .none →
      ¬ (s.ph = .startSent ∨ ((s.ph = .addrSent ∨ s.ph = .dataSent) ∧ s.dir = some .w)) →
      exec (.send b) s = .fault (.phaseViolation .send s.ph s.dir s.rxend)) ∧
    (s.en = true → s.pend = .none →
      (s.ph = .startSent ∨ ((s.ph = .addrSent ∨ s.ph = .dataSent) ∧ s.dir = some .w)) →
      exec (.send b) s = .next { s with pend := .send b, done := false, cmds := s.cmds.tail })

/-- R65, whole. -/
def Obligations.RecvRule : Prop :=
  ∀ (k : Bool) (s : State),
    encode (.recv k) = (0x030000#24 ||| ((BitVec.ofBool k).setWidth 24 <<< 8)) ∧
    (s.en = false → exec (.recv k) s = .fault (.disabled .recv)) ∧
    (s.en = true → s.pend ≠ .none → exec (.recv k) s = .fault (.busy .recv s.pend)) ∧
    (s.en = true → s.pend = .none →
      ¬ ((s.ph = .addrSent ∧ s.dir = some .r) ∨ (s.ph = .dataRcvd ∧ s.rxend = false)) →
      exec (.recv k) s = .fault (.phaseViolation .recv s.ph s.dir s.rxend)) ∧
    (s.en = true → s.pend = .none →
      ((s.ph = .addrSent ∧ s.dir = some .r) ∨ (s.ph = .dataRcvd ∧ s.rxend = false)) →
      exec (.recv k) s = .next { s with pend := .recv k, done := false, cmds := s.cmds.tail })

/-- R66, whole. -/
def Obligations.StopRule : Prop :=
  encode .stop = 0x060000 ∧
  ∀ s : State,
    (s.en = false → exec .stop s = .fault (.disabled .stop)) ∧
    (s.en = true → s.pend ≠ .none → exec .stop s = .fault (.busy .stop s.pend)) ∧
    (s.en = true → s.pend = .none → s.ph ∉ [.addrSent, .dataSent, .dataRcvd] →
      exec .stop s = .fault (.phaseViolation .stop s.ph s.dir s.rxend)) ∧
    (s.en = true → s.pend = .none → s.ph ∈ [.addrSent, .dataSent, .dataRcvd] →
      exec .stop s = .next { s with pend := .stop, done := false, cmds := s.cmds.tail })

/-- R62, whole: the phase table, row by row, for an enabled transport with nothing pending, the event a
legal `START` will leave, and whether a legal `SEND` will be the address byte or a data byte; and while an operation is pending the phase does not change before
its completion except by a `DISABLE`, which also clears `PEND`. -/
def Obligations.PhaseTable : Prop :=
  (∀ s t : State, s.en = true → s.pend ≠ .none → ¬ s.EngineMoves → step s = .next t →
    (t.ph = s.ph ∧ t.dir = s.dir ∧ t.rxend = s.rxend ∧ t.pend = s.pend) ∨
    (s.current = some .disable ∧ t.pend = .none)) ∧
  ∀ (s : State) (b : Byte) (k : Bool), s.en = true → s.pend = .none →
    let launches := fun (i : Instr) (p : Pend) =>
      exec i s = .next { s with pend := p, done := false, cmds := s.cmds.tail }
    let violation := fun (i : Instr) =>
      exec i s = .fault (.phaseViolation i.cmd s.ph s.dir s.rxend)
    let gives := fun (e : WireEvent) =>
      launches .start .start ∧ ∀ t, exec .start s = .next t → (engineStep t).trace = s.trace ++ [e]
    let sends := fun (q : Phase) =>
      launches (.send b) (.send b) ∧ ∀ t, exec (.send b) s = .next t → (engineStep t).ph = q
    (s.ph = .idle →
      gives .start ∧ violation (.send b) ∧ violation (.recv k) ∧ violation .stop) ∧
    (s.ph = .stopSent →
      gives .start ∧ violation (.send b) ∧ violation (.recv k) ∧ violation .stop) ∧
    (s.ph = .startSent →
      violation .start ∧ sends .addrSent ∧ violation (.recv k) ∧ violation .stop) ∧
    (s.ph = .addrSent → s.dir = some .w →
      gives .repStart ∧ sends .dataSent ∧ violation (.recv k) ∧ launches .stop .stop) ∧
    (s.ph = .addrSent → s.dir = some .r →
      gives .repStart ∧ violation (.send b) ∧ launches (.recv k) (.recv k) ∧
      launches .stop .stop) ∧
    (s.ph = .dataSent → s.dir = some .w →
      gives .repStart ∧ sends .dataSent ∧ violation (.recv k) ∧ launches .stop .stop) ∧
    (s.ph = .dataRcvd → s.dir = some .r → s.rxend = false →
      gives .repStart ∧ violation (.send b) ∧ launches (.recv k) (.recv k) ∧
      launches .stop .stop) ∧
    (s.ph = .dataRcvd → s.dir = some .r → s.rxend = true →
      gives .repStart ∧ violation (.send b) ∧ violation (.recv k) ∧ launches .stop .stop)

/-- R67, whole: `WAIT` retires when `DONE` is set and holds otherwise; it makes no check and changes
nothing of the block; only the engine's step lifts the hold; with nothing pending nothing does; and
for any number of steps there are turns on which the engine does not. -/
def Obligations.WaitRule : Prop :=
  encode .wait = 0x040000 ∧
  (∀ s : State, s.done = true → exec .wait s = .next { s with cmds := s.cmds.tail }) ∧
  (∀ s : State, s.done = false → exec .wait s = .next s) ∧
  (∀ s t : State, step s = .next t → s.done = false → t.done = true →
    s.EngineMoves ∧ s.en = true ∧ s.pend ≠ .none) ∧
  (∀ (s : State) (n : Nat), s.mode = .none → s.cmds.head? = some (encode .wait) →
    s.done = false → s.pend = .none → steps n s = .next s) ∧
  (∀ (s : State) (n : Nat), s.mode = .none → s.cmds.head? = some (encode .wait) →
    s.done = false → s.en = true → s.pend ≠ .none → s.sched.take n = List.replicate n .command →
    steps n s = .next { s with sched := s.sched.drop n })

/-- R68: `GETDATA` raises `Busy` while an operation is pending, otherwise returns the latched byte and
changes nothing; while `DATA` is unspecified it returns some byte (any value: U1, log 6), the count
of draws being the only other change. It is legal with `EN = 0` and in every phase. R68's "reading
twice returns the same byte twice" holds here of a latched byte only, as U1 says (log 6). -/
def Obligations.GetdataRule : Prop :=
  encode .getdata = 0x050000 ∧
  ∀ s : State,
    (s.pend ≠ .none → exec .getdata s = .fault (.busy .getdata s.pend)) ∧
    (∀ b : Byte, s.pend = .none → s.data = .latched b →
      exec .getdata s = .next { s with cmds := s.cmds.tail, returned := s.returned ++ [b] }) ∧
    (s.pend = .none → s.data = .unspecified →
      ∃ b : Byte, exec .getdata s =
        .next { s with cmds := s.cmds.tail, returned := s.returned ++ [b], draws := s.draws + 1 })

/-- R16, whole: a completed `Recv(k)` leaves `RXEND = 1 - k`; with `RXEND = 1` a further `RECV` is a
`PhaseViolation`, and `STOP` and `START` remain legal. -/
def Obligations.RxendRule : Prop :=
  (∀ (k : Bool) (s : State), s.pend = .recv k → (engineStep s).rxend = !k) ∧
  (∀ (k : Bool) (s : State), s.en = true → s.pend = .none → s.ph = .dataRcvd → s.rxend = true →
    exec (.recv k) s = .fault (.phaseViolation .recv s.ph s.dir s.rxend) ∧
    (∃ t, exec .stop s = .next t ∧ t.pend = .stop) ∧
    (∃ t, exec .start s = .next t ∧ t.pend = .start))

/-! ### Bus control -/

/-- R80, whole: `DISABLE` completes in every state, records `Rel` exactly when something is pending
or a transaction is open, and resets what the engine owns. -/
def Obligations.DisableRule : Prop :=
  encode .disable = 0x070000 ∧
  ∀ s : State,
    (s.pend ≠ .none ∨ s.ph ∉ [.idle, .stopSent] →
      exec .disable s = .next
        { s with en := false, pend := .none, done := false, ph := .idle, dir := none,
                 rxend := false, data := .unspecified, trace := s.trace ++ [WireEvent.release],
                 dev := s.dev.hear s.trace .release, cmds := s.cmds.tail }) ∧
    (s.pend = .none → s.ph ∈ [.idle, .stopSent] →
      exec .disable s = .next
        { s with en := false, pend := .none, done := false, ph := .idle, dir := none,
                 rxend := false, data := .unspecified, cmds := s.cmds.tail })

/-- R81, whole: `ENABLE` completes in every state, sets `EN` and changes nothing else. -/
def Obligations.EnableRule : Prop :=
  encode .enable = 0x080000 ∧
  ∀ s : State, exec .enable s = .next { s with en := true, cmds := s.cmds.tail }

/-- R82, whole: `DISABLE ; ENABLE` presented one after the other takes exactly two steps once the
command side moves, the engine taking none between them, and has the net effect of the rule; the
micro-program of `RDREG` ends with these two and that of `WRREG` has neither. -/
def Obligations.BusResetEffect : Prop :=
  busreset = [.disable, .enable] ∧
  rdProgram.drop 15 = [.disable, .enable] ∧
  MicroOp.disable ∉ wrProgram ∧ MicroOp.enable ∉ wrProgram ∧
  ∀ (s : State) (rest : List Command), s.mode = .none → ¬ s.EngineMoves →
    s.cmds = encode .disable :: encode .enable :: rest →
    ∃ t, steps 2 s = .next t ∧ t.cmds = rest ∧
      t.trace = (if s.pend ≠ .none ∨ s.ph ∉ [.idle, .stopSent] then s.trace ++ [WireEvent.release]
                 else s.trace) ∧
      t.en = true ∧ t.pend = .none ∧ t.done = false ∧ t.ph = .idle ∧ t.dir = none ∧
      t.rxend = false ∧ t.data = .unspecified ∧ t.mode = .none ∧ t.stepIx = s.stepIx ∧
      t.ra = s.ra ∧ t.rv = s.rv ∧ t.res = s.res ∧ t.returned = s.returned

/-! ### Transactions -/

/-- R91, whole: the checks of `RDREG` and `WRREG` in their order; when they pass the command starts
its micro-program, and does not retire. -/
def Obligations.TransactionChecks : Prop :=
  ∀ (i : Instr) (s : State), isTransaction i = true →
    (s.en = false → exec i s = .fault (.disabled i.cmd)) ∧
    (s.en = true → s.pend ≠ .none → exec i s = .fault (.busy i.cmd s.pend)) ∧
    (s.en = true → s.pend = .none → s.ph ∉ [.idle, .stopSent] →
      exec i s = .fault (.transactionOpen i.cmd s.ph)) ∧
    (s.en = true → s.pend = .none → s.ph ∈ [.idle, .stopSent] →
      ∃ t, exec i s = .next t ∧ t.mode ≠ .none ∧ t.stepIx = 0 ∧ t.cmds = s.cmds ∧
        t.view = s.view)

/-- What `RDREG a` and `WRREG a, v` write when they are presented, and the micro-programs they start
(42_transactions.md section 1). The rest of the effect is the sequencer's. -/
def Obligations.TransactionsStart : Prop :=
  (∀ (a : Byte) (s : State), s.PassesR91 →
    exec (.rdreg a) s = .next { s with mode := .rd, ra := a, stepIx := 0 }) ∧
  (∀ (a v : Byte) (s : State), s.PassesR91 →
    exec (.wrreg a v) s = .next { s with mode := .wr, ra := a, rv := v, stepIx := 0 }) ∧
  (∀ a : Byte, encode (.rdreg a) = (0x100000#24 ||| (a.setWidth 24 <<< 8))) ∧
  (∀ a v : Byte,
    encode (.wrreg a v) = (0x110000#24 ||| (a.setWidth 24 <<< 8) ||| v.setWidth 24)) ∧
  (∀ s : State, rdProgram.map (fun m => m.command s) = readAsPrimitives s.ra) ∧
  (∀ s : State, wrProgram.map (fun m => m.command s) = writeAsPrimitives s.ra s.rv) ∧
  rdProgram.length = 17 ∧ wrProgram.length = 10

/-- R94: the sequencer executes the micro-operation at `STEP` as the host command of the same name,
checks included: the same fault, or the same change to the block, with the host's list and returned
bytes untouched, `GETDATA`'s byte going to `RES`, and `STEP` going up by one or the transaction
finishing. A `WAIT` with `DONE = 0` leaves it where it is. -/
def Obligations.SequencerRunsHostRules : Prop :=
  ∀ (s : State) (m : MicroOp), s.mode ≠ .none → s.microOp = some m →
    commandStep s = sequencerStep s ∧
    (∀ f, exec (m.command s) s = .fault f → sequencerStep s = .fault f) ∧
    (m = .wait → s.done = false → sequencerStep s = .next s) ∧
    (∀ u, (m ≠ .wait ∨ s.done = true) → exec (m.command s) s = .next u →
      let v := { u with cmds := s.cmds, returned := s.returned,
                        res := if m = MicroOp.getdata then u.returned.getLast?.getD s.res else s.res }
      (s.stepIx.toNat + 1 < (if s.mode = .rd then 17 else 10) →
        sequencerStep s = .next { v with stepIx := s.stepIx + 1 }) ∧
      (¬ s.stepIx.toNat + 1 < (if s.mode = .rd then 17 else 10) →
        sequencerStep s = .next v.finish))

/-- R95, whole: finishing. -/
def Obligations.FinishingRetires : Prop :=
  ∀ s : State,
    (s.mode = .rd → s.finish =
      { s with mode := .none, stepIx := 0, cmds := s.cmds.tail,
               returned := s.returned ++ [s.res] }) ∧
    (s.mode = .wr → s.finish = { s with mode := .none, stepIx := 0, cmds := s.cmds.tail })

/-- R90: while a transaction runs the host's list and the returned bytes stay as they are, until the
step in which the transaction finishes and its command retires. -/
def Obligations.HostHeldDuringTransaction : Prop :=
  ∀ s t : State, s.mode ≠ .none → step s = .next t →
    (t.mode = s.mode ∧ t.cmds = s.cmds ∧ t.returned = s.returned) ∨
    (t.mode = .none ∧ t.stepIx = 0 ∧ t.cmds = s.cmds.tail ∧
      (s.mode = .rd → t.returned = s.returned ++ [s.res]) ∧
      (s.mode = .wr → t.returned = s.returned))

/-- R96: once the checks of R91 have passed, no micro-operation raises a fault, on any schedule and
for any answers of the device; the state before each micro-operation is the one of its row; the
transport stays enabled up to the bus reset; and no `WAIT` of a transaction is one nothing can lift. -/
def Obligations.NoFaultInsideTransaction : Prop :=
  ∀ (i : Instr) (s s1 : State) (n : Nat), isTransaction i = true → s.Inv → exec i s = .next s1 →
    (∀ m u, m < n → steps m s1 = .next u → u.mode ≠ .none) →
    ∃ t, steps n s1 = .next t ∧
      (t.mode = .rd → t.RdRow) ∧ (t.mode = .wr → t.WrRow) ∧
      (t.mode ≠ .none → (t.en = true ∨ t.stepIx = 16) ∧ ¬ t.WaitNoOperation)

/-- R97, whole: the end state of `RDREG a`, in whatever step it finishes, its trace, and the byte it
returns: the device's answer at micro-operation 10. -/
def Obligations.ReadEndState : Prop :=
  ∀ (a : Byte) (s s1 t : State) (n : Nat),
    s.PassesR91 → exec (.rdreg a) s = .next s1 → FinishesAt n s1 t →
    ∃ k1 k2 k3 : Bool,
      let asked : List WireEvent := readAsked a k1 k2 k3
      let d : Byte := (s.dev.hearAll s.trace asked).byte (s.trace ++ asked)
      t.trace = s.trace ++ (asked ++ [WireEvent.rx d true, WireEvent.stop]) ∧
      t.en = true ∧ t.done = false ∧ t.pend = .none ∧ t.ph = .idle ∧ t.dir = none ∧
      t.rxend = false ∧ t.data = .unspecified ∧ t.mode = .none ∧ t.stepIx = 0 ∧
      t.ra = a ∧ t.res = d ∧ t.rv = s.rv ∧
      t.returned = s.returned ++ [d] ∧ t.cmds = s.cmds.tail

/-- R99, whole: the end state of `WRREG a, v` and its trace. -/
def Obligations.WriteEndState : Prop :=
  ∀ (a v : Byte) (s s1 t : State) (n : Nat),
    s.PassesR91 → exec (.wrreg a v) s = .next s1 → FinishesAt n s1 t →
    ∃ k1 k2 k3 : Bool,
      t.trace = s.trace ++ writeEvents a v k1 k2 k3 ∧
      t.en = true ∧ t.done = true ∧ t.pend = .none ∧ t.ph = .stopSent ∧ t.dir = none ∧
      t.rxend = false ∧ t.data = s.data ∧ t.mode = .none ∧ t.stepIx = 0 ∧
      t.ra = a ∧ t.rv = v ∧ t.res = s.res ∧
      t.returned = s.returned ∧ t.cmds = s.cmds.tail

/-- R98, whole: a transaction and its list of primitives, run with the same turns and the same device,
agree after every number of steps on the transport, the trace and the device, and on faults of what
follows; whenever no transaction runs they agree on the returned bytes and on the host's list as well.
Started with a transaction open they differ: the list begins with a repeated start, the transaction
raises `TransactionOpen`. -/
def Obligations.TransactionsEqualPrimitives : Prop :=
  (∀ (i : Instr) (prims : List Instr) (s s1 : State) (n : Nat),
    ((∃ a, i = .rdreg a ∧ prims = readAsPrimitives a) ∨
      (∃ a v, i = .wrreg a v ∧ prims = writeAsPrimitives a v)) →
    s.mode = .none → exec i s = .next s1 →
    let s2 : State := { s with cmds := prims.map encode ++ s.cmds.tail }
    (∃ u v, steps n s1 = .next u ∧ steps n s2 = .next v ∧ u.view = v.view ∧
      (u.mode = .none → u.returned = v.returned ∧ u.cmds = v.cmds)) ∨
    (∃ f, steps n s1 = .fault f ∧ steps n s2 = .fault f)) ∧
  (∀ (i : Instr) (s : State), isTransaction i = true → s.en = true → s.pend = .none →
    s.ph ∈ [.addrSent, .dataSent, .dataRcvd] →
    exec i s = .fault (.transactionOpen i.cmd s.ph) ∧
    ∃ t, exec .start s = .next t ∧ (engineStep t).trace = s.trace ++ [WireEvent.repStart])

/-- R100, whole: with the reference device every acknowledge bit is 1, `WRREG a, v` writes `v` at `a`
and touches no other location, `RDREG a` returns the byte at `a` and changes no location, and
`WRREG a, v ; RDREG a` returns `v`. -/
def Obligations.ReferenceDeviceReadsBack : Prop :=
  ∀ (r : RefDev) (a v : Byte) (s : State), s.PassesR91 → s.dev = .reference r →
    Memory.wf r.reg = true →
    (∀ (s1 t : State) (n : Nat), exec (.wrreg a v) s = .next s1 → FinishesAt n s1 t →
      t.trace = s.trace ++ writeEvents a v true true true ∧
      ∃ r', t.dev = .reference r' ∧
        ∀ x : Byte, Memory.read r'.reg x.toNat = if x = a then v else Memory.read r.reg x.toNat) ∧
    (∀ (s1 t : State) (n : Nat), exec (.rdreg a) s = .next s1 → FinishesAt n s1 t →
      let d : Byte := Memory.read r.reg a.toNat
      t.returned = s.returned ++ [d] ∧
      t.trace = s.trace ++ (readAsked a true true true ++ [WireEvent.rx d true, WireEvent.stop]) ∧
      ∃ r', t.dev = .reference r' ∧ r'.reg = r.reg) ∧
    (∀ (t : State) (n : Nat), s.mode = .none → s.cmds = [encode (.wrreg a v), encode (.rdreg a)] →
      steps n s = .next t → t.Ended → t.returned = s.returned ++ [v])

/-- A transaction returns once the engine has had the turns its waits need: the termination claim of
R135, with `A_READY` as a premise on the coming turns. -/
def Obligations.TransactionsReturnWhenEngineReady : Prop :=
  ∀ s s1 : State,
    (∀ a : Byte, exec (.rdreg a) s = .next s1 → 7 ≤ s.sched.count .engine →
      ∃ n t, n ≤ 17 + s.sched.length ∧ FinishesAt n s1 t) ∧
    (∀ a v : Byte, exec (.wrreg a v) s = .next s1 → 5 ≤ s.sched.count .engine →
      ∃ n t, n ≤ 10 + s.sched.length ∧ FinishesAt n s1 t)

/-- After `DISABLE`, and after every `RDREG`, no read stands whose stop condition was not followed by
a bus reset, the condition R133 warns of (log 9). -/
def Obligations.BusResetClearsReadHazard : Prop :=
  (∀ s t : State, exec .disable s = .next t → t.readNotReset = false) ∧
  (∀ (a : Byte) (s s1 t : State) (n : Nat),
    exec (.rdreg a) s = .next s1 → FinishesAt n s1 t → t.readNotReset = false)

/-! ### Completions -/

/-- R70, whole. -/
def Obligations.CompletionOfStart : Prop :=
  ∀ s : State, s.pend = .start →
    (s.ph ∈ [.idle, .stopSent] →
      engineStep s = { s with trace := s.trace ++ [.start], dev := s.dev.hear s.trace .start,
                              ph := .startSent, dir := none, rxend := false, pend := .none,
                              done := true }) ∧
    (s.ph ∉ [.idle, .stopSent] →
      engineStep s = { s with trace := s.trace ++ [WireEvent.repStart],
                              dev := s.dev.hear s.trace .repStart,
                              ph := .startSent, dir := none, rxend := false, pend := .none,
                              done := true })

/-- R71, whole: the operation completes and the phase advances in the same way whatever the
acknowledge bit, which only the trace (and the device) keeps. -/
def Obligations.CompletionOfSend : Prop :=
  ∀ (b : Byte) (s : State), s.pend = .send b →
    let k := s.dev.ack s.trace b
    (s.ph = .startSent →
      engineStep s = { s with trace := s.trace ++ [.tx b k], dev := s.dev.hear s.trace (.tx b k),
                              ph := .addrSent, dir := some (if b.getLsbD 0 then .r else .w),
                              pend := .none, done := true }) ∧
    (s.ph ≠ .startSent →
      engineStep s = { s with trace := s.trace ++ [.tx b k], dev := s.dev.hear s.trace (.tx b k),
                              ph := .dataSent, pend := .none, done := true })

/-- R72, whole. -/
def Obligations.CompletionOfRecv : Prop :=
  ∀ (k : Bool) (s : State), s.pend = .recv k →
    let d := s.dev.byte s.trace
    engineStep s = { s with trace := s.trace ++ [.rx d k], dev := s.dev.hear s.trace (.rx d k),
                            data := .latched d, ph := .dataRcvd, rxend := !k, pend := .none,
                            done := true }

/-- R73, whole. -/
def Obligations.CompletionOfStop : Prop :=
  ∀ s : State, s.pend = .stop →
    engineStep s = { s with trace := s.trace ++ [.stop], dev := s.dev.hear s.trace .stop,
                            ph := .stopSent, dir := none, rxend := false, pend := .none,
                            done := true }

/-! ### Faults -/

/-- R113 to R116: each fault is raised by exactly the commands and in exactly the conditions its rule
gives, and records what R111 says; no command is refused. `WAIT`, `DISABLE`, `ENABLE` raise none. -/
def Obligations.FaultsExactlyWhen : Prop :=
  ∀ (i : Instr) (s : State),
    (∀ c, exec i s = .fault (.disabled c) ↔
      c = i.cmd ∧ s.en = false ∧ c ∈ [.start, .send, .recv, .stop, .rdreg, .wrreg]) ∧
    (∀ c p, exec i s = .fault (.busy c p) ↔
      c = i.cmd ∧ p = s.pend ∧ s.pend ≠ .none ∧
      ((s.en = true ∧ c ∈ [.start, .send, .recv, .stop, .rdreg, .wrreg]) ∨ c = .getdata)) ∧
    (∀ c ph dir rxend, exec i s = .fault (.phaseViolation c ph dir rxend) ↔
      c = i.cmd ∧ ph = s.ph ∧ dir = s.dir ∧ rxend = s.rxend ∧ s.en = true ∧ s.pend = .none ∧
      ((c = .start ∧ ph = .startSent) ∨
        (c = .send ∧ ¬ (ph = .startSent ∨ ((ph = .addrSent ∨ ph = .dataSent) ∧ dir = some .w))) ∨
        (c = .recv ∧
          ¬ ((ph = .addrSent ∧ dir = some .r) ∨ (ph = .dataRcvd ∧ rxend = false))) ∨
        (c = .stop ∧ ph ∉ [.addrSent, .dataSent, .dataRcvd]))) ∧
    (∀ c ph, exec i s = .fault (.transactionOpen c ph) ↔
      c = i.cmd ∧ ph = s.ph ∧ s.en = true ∧ s.pend = .none ∧ ph ∉ [.idle, .stopSent] ∧
      c ∈ [.rdreg, .wrreg]) ∧
    (∀ w, exec i s ≠ .fault (.illegalCommand w)) ∧ (∀ r, exec i s ≠ .refused r) ∧
    (i.cmd ∈ [.wait, .disable, .enable] → ∃ t, exec i s = .next t)

/-- R117: the first failing check in the rule's order is the one reported: `IllegalCommand` before
anything of the state, then `Disabled`, then `Busy`, then the check of the command itself. -/
def Obligations.OrderOfChecks : Prop :=
  (∀ (s : State) (w : Command) (rest : List Command) (e : Illegal),
    s.mode = .none → ¬ s.EngineMoves → s.cmds = w :: rest → decode w = .error e →
    step s = .fault (.illegalCommand w)) ∧
  (∀ (s : State) (i : Instr), isLaunch i = true ∨ isTransaction i = true →
    (s.en = false → exec i s = .fault (.disabled i.cmd)) ∧
    (s.en = true → s.pend ≠ .none → exec i s = .fault (.busy i.cmd s.pend)) ∧
    (s.en = true → s.pend = .none →
      (∃ t, exec i s = .next t) ∨
      (isLaunch i = true ∧ exec i s = .fault (.phaseViolation i.cmd s.ph s.dir s.rxend)) ∨
      (isTransaction i = true ∧ exec i s = .fault (.transactionOpen i.cmd s.ph)))) ∧
  (∀ (b : Byte) (s : State), s = State.reset → exec (.send b) s = .fault (.disabled .send)) ∧
  (∀ s : State, s.en = true → s.pend ≠ .none → s.ph = .idle →
    exec .stop s = .fault (.busy .stop s.pend))

/-! ### Reachable states -/

/-- What reset leaves (R130, less the values the spec calls unspecified): each field the spec gives a
value holds it, and `DATA` is unspecified. `RA`, `RV`, `RES` are not mentioned (log 7). That a step
with an empty list of host commands changes nothing is the model's (log 13). -/
def Obligations.ResetState : Prop :=
  let s := State.reset
  s.en = false ∧ s.done = false ∧ s.pend = .none ∧ s.ph = .idle ∧ s.dir = none ∧
  s.rxend = false ∧ s.data = .unspecified ∧ s.mode = .none ∧ s.stepIx = 0 ∧ s.trace = [] ∧
  step s = .next s

/-- The invariant holds right after reset. -/
def Obligations.InvAtReset : Prop :=
  ∀ enReset : Bool, (State.resetWith enReset).Inv

/-- Every step from a state with the invariant leads to a state with the invariant (R24, R62, R75). -/
def Obligations.StepKeepsInv : Prop :=
  ∀ s t : State, s.Inv → step s = .next t → t.Inv

/-- R24, whole: the six items hold in every state a run reaches without a fault, for any `EN_RESET`,
command list, turns, free values and device. -/
def Obligations.ReachableStatesMeetR24 : Prop :=
  ∀ (enReset : Bool) (cmds : List Command) (sched : List Turn) (draws : Nat) (dev : Device)
    (n : Nat) (t : State),
    steps n (State.begin enReset cmds sched draws dev) = .next t → t.R24Items

/-- R75: every trace the block can produce without a fault is one the grammar admits. -/
def Obligations.ReachableTracesGrammatical : Prop :=
  ∀ (enReset : Bool) (cmds : List Command) (sched : List Turn) (draws : Nat) (dev : Device)
    (n : Nat) (t : State),
    steps n (State.begin enReset cmds sched draws dev) = .next t → Grammatical t.trace

/-- A list of commands with a `WAIT` between every launch and the next command that needs the
transport free never raises `Busy`, on any schedule. The reading of R74 that counts the transactions
among the commands a `WAIT` must precede is the model's (log 18). -/
def Obligations.WellSequencedNeverBusy : Prop :=
  ∀ (enReset : Bool) (is : List Instr) (sched : List Turn) (draws : Nat) (dev : Device)
    (n : Nat) (c : Cmd) (p : Pend),
    wellSequenced false is = true →
    steps n (State.begin enReset (is.map encode) sched draws dev) ≠ .fault (.busy c p)

/-- The two waits of R118 that lie inside the block: a `WAIT` with `DONE = 0` and nothing pending is never left, and nothing changes; and while
the engine does not take its step, a `WAIT` is held with nothing changed but the turns used up. -/
def Obligations.WaitsHold : Prop :=
  (∀ (s : State) (n : Nat), s.WaitNoOperation → steps n s = .next s) ∧
  (∀ (s : State) (n : Nat), s.EngineNotReadyFor n →
    steps n s = .next { s with sched := s.sched.drop n })

/-- A run that has ended with nothing pending stays where it is (R136; the idle step is the model's,
log 13). -/
def Obligations.EndedRunStays : Prop :=
  ∀ (s : State) (n : Nat), s.Ended → s.pend = .none → steps n s = .next s

/-! ### What changes each piece of state -/

/-- R12: the engine's step sets `DONE`; a launch and `DISABLE` clear it, by the host or by the
sequencer; nothing else changes it. -/
def Obligations.DoneChangesOnly : Prop :=
  ∀ s t : State, step s = .next t →
    (s.EngineMoves → t.done = true) ∧
    (¬ s.EngineMoves →
      (∀ i, s.current = some i → isLaunch i = true ∨ i = .disable → t.done = false) ∧
      (∀ i, s.current = some i → isLaunch i = false → i ≠ .disable → t.done = s.done) ∧
      (s.current = none → t.done = s.done))

/-- R14: `PH` changes only when the engine completes an operation and on `DISABLE`, never at a
launch. -/
def Obligations.PhaseChangesOnly : Prop :=
  ∀ s t : State, step s = .next t → ¬ s.EngineMoves →
    (s.current = some .disable → t.ph = .idle) ∧ (s.current ≠ some .disable → t.ph = s.ph)

/-- `EN`, `PEND`, `DIR` and `RXEND` change as the table of R10 says: `EN` by `ENABLE` and `DISABLE`,
`PEND` by launches, completions and `DISABLE`, `DIR` and `RXEND` by completions and `DISABLE`. -/
def Obligations.TransportChangesOnly : Prop :=
  ∀ s t : State, step s = .next t →
    (s.EngineMoves → t.en = s.en ∧ t.pend = .none) ∧
    (¬ s.EngineMoves →
      (s.current = some .disable →
        t.en = false ∧ t.pend = .none ∧ t.dir = none ∧ t.rxend = false) ∧
      (s.current = some .enable → t.en = true ∧ t.pend = s.pend) ∧
      (s.current ≠ some .disable →
        t.dir = s.dir ∧ t.rxend = s.rxend ∧
        (s.current ≠ some .enable → t.en = s.en) ∧
        ((∀ i, s.current = some i → isLaunch i = false) → t.pend = s.pend)))

/-- R17: `DATA` is written only when the engine completes a `Recv`, with the device's byte, and made
unspecified only by `DISABLE`; it is unspecified after reset. -/
def Obligations.DataChangesOnly : Prop :=
  State.reset.data = .unspecified ∧
  ∀ s t : State, step s = .next t →
    (∀ k, s.EngineMoves → s.pend = .recv k → t.data = .latched (s.dev.byte s.trace)) ∧
    (s.EngineMoves → (∀ k, s.pend ≠ .recv k) → t.data = s.data) ∧
    (¬ s.EngineMoves → s.current = some .disable → t.data = .unspecified) ∧
    (¬ s.EngineMoves → s.current ≠ some .disable → t.data = s.data)

/-- The sequencer's registers change only as R10's table says: never by the engine; `RA` and `RV` only
when the host presents a transaction; `RES` only at the sequencer's `GETDATA`; `MODE` and `STEP` only
by those two and by the sequencer's steps. -/
def Obligations.SequencerStateChangesOnly : Prop :=
  ∀ s t : State, step s = .next t →
    (s.EngineMoves →
      t.mode = s.mode ∧ t.stepIx = s.stepIx ∧ t.ra = s.ra ∧ t.rv = s.rv ∧ t.res = s.res) ∧
    (s.mode ≠ .none → t.ra = s.ra ∧ t.rv = s.rv) ∧
    (s.mode ≠ .none → s.current ≠ some .getdata → t.res = s.res) ∧
    (s.mode = .none → t.res = s.res) ∧
    (s.mode = .none → ¬ s.EngineMoves →
      (∀ a, s.current = some (.rdreg a) →
        t.mode = .rd ∧ t.stepIx = 0 ∧ t.ra = a ∧ t.rv = s.rv) ∧
      (∀ a v, s.current = some (.wrreg a v) →
        t.mode = .wr ∧ t.stepIx = 0 ∧ t.ra = a ∧ t.rv = v) ∧
      ((∀ i, s.current = some i → isTransaction i = false) →
        t.mode = .none ∧ t.stepIx = s.stepIx ∧ t.ra = s.ra ∧ t.rv = s.rv))

/-- R40, R36: a step adds at most one event to the trace and never takes one away; an event is added
exactly by a completion, or as `Rel` by a `DISABLE` that finds the wires held. -/
def Obligations.TraceOnlyGrows : Prop :=
  ∀ s t : State, step s = .next t →
    (s.EngineMoves → ∃ e, t.trace = s.trace ++ [e] ∧ e ≠ .release) ∧
    (¬ s.EngineMoves → t.trace = s.trace ∨
      (t.trace = s.trace ++ [WireEvent.release] ∧ s.current = some .disable ∧
        (s.pend ≠ .none ∨ s.ph ∉ [.idle, .stopSent])))

/-- R56: a byte is returned only by `GETDATA` of the host, and then it is `DATA` where `DATA` holds a
byte, and by `RDREG` when it finishes, and then it is `RES`. The other commands return nothing. -/
def Obligations.ReturnedBytes : Prop :=
  ∀ s t : State, step s = .next t →
    t.returned = s.returned ∨
    (s.mode = .none ∧ s.current = some .getdata ∧
      ∃ b, t.returned = s.returned ++ [b] ∧ (∀ d, s.data = .latched d → b = d)) ∨
    (s.mode = .rd ∧ t.mode = .none ∧ t.returned = s.returned ++ [t.res])

/-! ### The device register space -/

/-- R4: the two address bytes, and every address byte's two parts. -/
def Obligations.AddressBytes : Prop :=
  slaW = 0xB4 ∧ slaR = 0xB5 ∧ slaR = slaW ||| 1 ∧
  ∀ (a : BitVec 7) (d : Dir),
    (addressByte a d).extractLsb' 1 7 = a ∧ (addressByte a d).getLsbD 0 = decide (d = .r) ∧
    addressOf (addressByte a d) = a ∧ directionOf (addressByte a d) = d

/-- The register space held for the reference device stays in canonical form under every step
(log 10). -/
def Obligations.RegisterSpaceStaysCanonical : Prop :=
  ∀ s t : State, s.dev.wf = true → step s = .next t → t.dev.wf = true

/-- R39, whole: what the reference device does on each event and what it answers. -/
def Obligations.ReferenceDeviceRule : Prop :=
  ∀ (r : RefDev) (tr : List WireEvent) (b d : Byte) (k : Bool),
    (∀ e ∈ [WireEvent.start, .repStart, .stop, .release], r.hear tr e = { r with sel := .no }) ∧
    r.hear tr (.rx d k) = r ∧
    r.byte = (if r.sel = .rd then Memory.read r.reg r.ptr.toNat else 0xFF) ∧
    (tr.getLast? = some .start ∨ tr.getLast? = some .repStart →
      (b.extractLsb' 1 7 = Config.devAddr7 → r.ack tr b = true ∧
        r.hear tr (.tx b k) = { r with sel := if b.getLsbD 0 = false then .wr0 else .rd }) ∧
      (b.extractLsb' 1 7 ≠ Config.devAddr7 → r.ack tr b = false ∧
        r.hear tr (.tx b k) = { r with sel := .no })) ∧
    (tr.getLast? ≠ some .start → tr.getLast? ≠ some .repStart →
      (r.sel = .wr0 → r.ack tr b = true ∧ r.hear tr (.tx b k) = { r with ptr := b, sel := .wr1 }) ∧
      (r.sel = .wr1 → r.ack tr b = true ∧
        r.hear tr (.tx b k) = { r with reg := Memory.write r.reg r.ptr.toNat b }) ∧
      (r.sel = .no ∨ r.sel = .rd → r.ack tr b = false ∧ r.hear tr (.tx b k) = r))

/-- R39: the reference device's state can be read off the trace alone, in every run. -/
def Obligations.ReferenceDeviceReadOffTrace : Prop :=
  ∀ (enReset : Bool) (cmds : List Command) (sched : List Turn) (draws : Nat) (r : RefDev)
    (n : Nat) (t : State),
    steps n (State.begin enReset cmds sched draws (.reference r)) = .next t →
    t.dev = .reference (r.replayFrom [] t.trace)
end

