-- ==== Sys2Proof/Laws/Decode.lean ====
section
/-! SUPPORT. The three fields of a joined word read back, and a word is its three fields
(spec R50). -/

namespace Sys2Proof

theorem joinFields_toNat (op a b : Byte) :
    (joinFields op a b).toNat = op.toNat * 65536 + a.toNat * 256 + b.toNat := by
  have h := BitVec.toNat_append op a
  have h' := BitVec.toNat_append (op ++ a) b
  have ha := a.isLt
  have hb := b.isLt
  simp only [joinFields]
  rw [h', h, ← Nat.shiftLeft_add_eq_or_of_lt hb, ← Nat.shiftLeft_add_eq_or_of_lt ha,
    Nat.shiftLeft_eq, Nat.shiftLeft_eq]
  omega

theorem opOf_toNat (w : Command) : (opOf w).toNat = w.toNat / 65536 := by
  have := w.isLt
  simp only [opOf, BitVec.extractLsb'_toNat, Nat.shiftRight_eq_div_pow]
  omega

theorem aOf_toNat (w : Command) : (aOf w).toNat = w.toNat / 256 % 256 := by
  simp only [aOf, BitVec.extractLsb'_toNat, Nat.shiftRight_eq_div_pow]

theorem bOf_toNat (w : Command) : (bOf w).toNat = w.toNat % 256 := by
  simp only [bOf, BitVec.extractLsb'_toNat, Nat.shiftRight_zero]

@[simp] theorem opOf_joinFields (op a b : Byte) : opOf (joinFields op a b) = op := by
  apply BitVec.eq_of_toNat_eq
  rw [opOf_toNat, joinFields_toNat]
  omega

@[simp] theorem aOf_joinFields (op a b : Byte) : aOf (joinFields op a b) = a := by
  apply BitVec.eq_of_toNat_eq
  rw [aOf_toNat, joinFields_toNat]
  omega

@[simp] theorem bOf_joinFields (op a b : Byte) : bOf (joinFields op a b) = b := by
  apply BitVec.eq_of_toNat_eq
  rw [bOf_toNat, joinFields_toNat]
  omega

/-- A word is its three fields. -/
theorem joinFields_fields (w : Command) : joinFields (opOf w) (aOf w) (bOf w) = w := by
  apply BitVec.eq_of_toNat_eq
  rw [joinFields_toNat, opOf_toNat, aOf_toNat, bOf_toNat]
  omega

/-- Two joined words are equal exactly when their fields are. -/
theorem joinFields_inj {op a b op' a' b' : Byte} :
    joinFields op a b = joinFields op' a' b' ↔ op = op' ∧ a = a' ∧ b = b' := by
  constructor
  · intro h
    have h1 := congrArg opOf h
    have h2 := congrArg aOf h
    have h3 := congrArg bOf h
    simp only [opOf_joinFields, aOf_joinFields, bOf_joinFields] at h1 h2 h3
    exact ⟨h1, h2, h3⟩
  · rintro ⟨rfl, rfl, rfl⟩
    rfl

/-- Masking a word masks its fields. -/
theorem joinFields_and (op a b m1 m2 m3 : Byte) :
    joinFields op a b &&& joinFields m1 m2 m3 = joinFields (op &&& m1) (a &&& m2) (b &&& m3) := by
  apply BitVec.eq_of_getLsbD_eq
  intro i _
  simp only [joinFields, BitVec.getLsbD_and, BitVec.getLsbD_append]
  split
  · rfl
  · split <;> rfl

theorem byte_and_ff (x : Byte) : x &&& 255#8 = x := by
  revert x; decide

/-- A word matches a command's row exactly when its opcode is the command's and its operand fields
are ones the format admits: the masks of R53 say what the formats of R51 say. -/
theorem Cmd.rowMatches_iff (c : Cmd) (w : Command) :
    c.rowMatches w = true ↔
      opOf w = c.opcode ∧ c.format.fieldsOk (aOf w) (bOf w) = true := by
  have hm : ∃ m2 m3 : Byte, c.maskWord = joinFields 0xFF m2 m3 ∧
      c.matchWord = joinFields c.opcode 0 0 ∧
      ∀ a b : Byte, (a &&& m2 = 0 ∧ b &&& m3 = 0) ↔ c.format.fieldsOk a b = true := by
    cases c
    case recv =>
      refine ⟨0xFE, 0xFF, by decide, by decide, fun a b => ?_⟩
      have h : a &&& 254#8 = 0#8 ↔ a >>> 1 = 0#8 := by revert a; decide
      simp [Cmd.format, Format.fieldsOk, h, byte_and_ff]
    case wrreg =>
      exact ⟨0, 0, by decide, by decide, fun a b => by simp [Cmd.format, Format.fieldsOk]⟩
    case send =>
      exact ⟨0, 0xFF, by decide, by decide, fun a b => by
        simp [Cmd.format, Format.fieldsOk, byte_and_ff]⟩
    case rdreg =>
      exact ⟨0, 0xFF, by decide, by decide, fun a b => by
        simp [Cmd.format, Format.fieldsOk, byte_and_ff]⟩
    all_goals
      exact ⟨0xFF, 0xFF, by decide, by decide, fun a b => by
        simp [Cmd.format, Format.fieldsOk, byte_and_ff]⟩
  obtain ⟨m2, m3, h1, h2, h3⟩ := hm
  have hop : opOf w &&& (0xFF : Byte) = opOf w := byte_and_ff _
  unfold Cmd.rowMatches
  rw [beq_iff_eq, h1, h2, ← joinFields_fields w, joinFields_and, joinFields_inj]
  simp only [opOf_joinFields, aOf_joinFields, bOf_joinFields]
  rw [hop, h3]

/-- An opcode selects a command exactly when it is the command's opcode. -/
theorem cmdOfOpcode_eq_some {op : Byte} {c : Cmd} : cmdOfOpcode op = some c ↔ op = c.opcode := by
  revert op c
  have h1 : ∀ c : Cmd, cmdOfOpcode c.opcode = some c := by intro c; cases c <;> rfl
  have h2 : ∀ op : Byte, ∀ c ∈ cmdOfOpcode op, op = c.opcode := by decide
  exact fun {op c} => ⟨fun h => h2 op c h, fun h => h ▸ h1 c⟩

/-- A word decodes to `i` exactly when it matches the row of a command that builds `i` from its
fields. -/
theorem decode_eq_ok {w : Command} {i : Instr} :
    decode w = .ok i ↔ ∃ c : Cmd, c.rowMatches w = true ∧ i = c.build (aOf w) (bOf w) := by
  unfold decode
  constructor
  · intro h
    split at h
    · cases h
    · next c _ =>
      split at h
      · next hr => cases h; exact ⟨c, hr, rfl⟩
      · cases h
  · rintro ⟨c, hr, rfl⟩
    have hc := cmdOfOpcode_eq_some.2 ((c.rowMatches_iff w).1 hr).1
    rw [hc]
    simp [hr]

end Sys2Proof
end

