-- ==== Sys2Proof/Laws/State.lean ====
section
/-! SUPPORT. One lemma per field per state operation, true by rfl and tagged simp, so that no later
proof unfolds a record update. -/

namespace Sys2Proof.Machine

/-! ### `emit` (R19) -/

@[simp] theorem State.emit_en (s : State) (e : WireEvent) : (s.emit e).en = s.en := rfl
@[simp] theorem State.emit_done (s : State) (e : WireEvent) : (s.emit e).done = s.done := rfl
@[simp] theorem State.emit_pend (s : State) (e : WireEvent) : (s.emit e).pend = s.pend := rfl
@[simp] theorem State.emit_ph (s : State) (e : WireEvent) : (s.emit e).ph = s.ph := rfl
@[simp] theorem State.emit_dir (s : State) (e : WireEvent) : (s.emit e).dir = s.dir := rfl
@[simp] theorem State.emit_rxend (s : State) (e : WireEvent) : (s.emit e).rxend = s.rxend := rfl
@[simp] theorem State.emit_data (s : State) (e : WireEvent) : (s.emit e).data = s.data := rfl
@[simp] theorem State.emit_mode (s : State) (e : WireEvent) : (s.emit e).mode = s.mode := rfl
@[simp] theorem State.emit_stepIx (s : State) (e : WireEvent) : (s.emit e).stepIx = s.stepIx := rfl
@[simp] theorem State.emit_ra (s : State) (e : WireEvent) : (s.emit e).ra = s.ra := rfl
@[simp] theorem State.emit_rv (s : State) (e : WireEvent) : (s.emit e).rv = s.rv := rfl
@[simp] theorem State.emit_res (s : State) (e : WireEvent) : (s.emit e).res = s.res := rfl
@[simp] theorem State.emit_trace (s : State) (e : WireEvent) : (s.emit e).trace = s.trace ++ [e] := rfl
@[simp] theorem State.emit_cmds (s : State) (e : WireEvent) : (s.emit e).cmds = s.cmds := rfl
@[simp] theorem State.emit_returned (s : State) (e : WireEvent) : (s.emit e).returned = s.returned := rfl
@[simp] theorem State.emit_sched (s : State) (e : WireEvent) : (s.emit e).sched = s.sched := rfl
@[simp] theorem State.emit_draws (s : State) (e : WireEvent) : (s.emit e).draws = s.draws := rfl
@[simp] theorem State.emit_dev (s : State) (e : WireEvent) : (s.emit e).dev = s.dev.hear s.trace e := rfl

/-! ### `launched` (R63 to R66) -/

@[simp] theorem State.launched_en (s : State) (p : Pend) : (s.launched p).en = s.en := rfl
@[simp] theorem State.launched_done (s : State) (p : Pend) : (s.launched p).done = false := rfl
@[simp] theorem State.launched_pend (s : State) (p : Pend) : (s.launched p).pend = p := rfl
@[simp] theorem State.launched_ph (s : State) (p : Pend) : (s.launched p).ph = s.ph := rfl
@[simp] theorem State.launched_dir (s : State) (p : Pend) : (s.launched p).dir = s.dir := rfl
@[simp] theorem State.launched_rxend (s : State) (p : Pend) : (s.launched p).rxend = s.rxend := rfl
@[simp] theorem State.launched_data (s : State) (p : Pend) : (s.launched p).data = s.data := rfl
@[simp] theorem State.launched_mode (s : State) (p : Pend) : (s.launched p).mode = s.mode := rfl
@[simp] theorem State.launched_stepIx (s : State) (p : Pend) : (s.launched p).stepIx = s.stepIx := rfl
@[simp] theorem State.launched_ra (s : State) (p : Pend) : (s.launched p).ra = s.ra := rfl
@[simp] theorem State.launched_rv (s : State) (p : Pend) : (s.launched p).rv = s.rv := rfl
@[simp] theorem State.launched_res (s : State) (p : Pend) : (s.launched p).res = s.res := rfl
@[simp] theorem State.launched_trace (s : State) (p : Pend) : (s.launched p).trace = s.trace := rfl
@[simp] theorem State.launched_cmds (s : State) (p : Pend) : (s.launched p).cmds = s.cmds := rfl
@[simp] theorem State.launched_returned (s : State) (p : Pend) : (s.launched p).returned = s.returned := rfl
@[simp] theorem State.launched_sched (s : State) (p : Pend) : (s.launched p).sched = s.sched := rfl
@[simp] theorem State.launched_draws (s : State) (p : Pend) : (s.launched p).draws = s.draws := rfl
@[simp] theorem State.launched_dev (s : State) (p : Pend) : (s.launched p).dev = s.dev := rfl

/-! ### `completed` (R69) -/

@[simp] theorem State.completed_en (s : State) : s.completed.en = s.en := rfl
@[simp] theorem State.completed_done (s : State) : s.completed.done = true := rfl
@[simp] theorem State.completed_pend (s : State) : s.completed.pend = .none := rfl
@[simp] theorem State.completed_ph (s : State) : s.completed.ph = s.ph := rfl
@[simp] theorem State.completed_dir (s : State) : s.completed.dir = s.dir := rfl
@[simp] theorem State.completed_rxend (s : State) : s.completed.rxend = s.rxend := rfl
@[simp] theorem State.completed_data (s : State) : s.completed.data = s.data := rfl
@[simp] theorem State.completed_mode (s : State) : s.completed.mode = s.mode := rfl
@[simp] theorem State.completed_stepIx (s : State) : s.completed.stepIx = s.stepIx := rfl
@[simp] theorem State.completed_ra (s : State) : s.completed.ra = s.ra := rfl
@[simp] theorem State.completed_rv (s : State) : s.completed.rv = s.rv := rfl
@[simp] theorem State.completed_res (s : State) : s.completed.res = s.res := rfl
@[simp] theorem State.completed_trace (s : State) : s.completed.trace = s.trace := rfl
@[simp] theorem State.completed_cmds (s : State) : s.completed.cmds = s.cmds := rfl
@[simp] theorem State.completed_returned (s : State) : s.completed.returned = s.returned := rfl
@[simp] theorem State.completed_sched (s : State) : s.completed.sched = s.sched := rfl
@[simp] theorem State.completed_draws (s : State) : s.completed.draws = s.draws := rfl
@[simp] theorem State.completed_dev (s : State) : s.completed.dev = s.dev := rfl

/-! ### `retire` (R60) -/

@[simp] theorem State.retire_en (s : State) : s.retire.en = s.en := rfl
@[simp] theorem State.retire_done (s : State) : s.retire.done = s.done := rfl
@[simp] theorem State.retire_pend (s : State) : s.retire.pend = s.pend := rfl
@[simp] theorem State.retire_ph (s : State) : s.retire.ph = s.ph := rfl
@[simp] theorem State.retire_dir (s : State) : s.retire.dir = s.dir := rfl
@[simp] theorem State.retire_rxend (s : State) : s.retire.rxend = s.rxend := rfl
@[simp] theorem State.retire_data (s : State) : s.retire.data = s.data := rfl
@[simp] theorem State.retire_mode (s : State) : s.retire.mode = s.mode := rfl
@[simp] theorem State.retire_stepIx (s : State) : s.retire.stepIx = s.stepIx := rfl
@[simp] theorem State.retire_ra (s : State) : s.retire.ra = s.ra := rfl
@[simp] theorem State.retire_rv (s : State) : s.retire.rv = s.rv := rfl
@[simp] theorem State.retire_res (s : State) : s.retire.res = s.res := rfl
@[simp] theorem State.retire_trace (s : State) : s.retire.trace = s.trace := rfl
@[simp] theorem State.retire_cmds (s : State) : s.retire.cmds = s.cmds.tail := rfl
@[simp] theorem State.retire_returned (s : State) : s.retire.returned = s.returned := rfl
@[simp] theorem State.retire_sched (s : State) : s.retire.sched = s.sched := rfl
@[simp] theorem State.retire_draws (s : State) : s.retire.draws = s.draws := rfl
@[simp] theorem State.retire_dev (s : State) : s.retire.dev = s.dev := rfl

/-! ### `retireWith` (R56) -/

@[simp] theorem State.retireWith_en (s : State) (b : Byte) : (s.retireWith b).en = s.en := rfl
@[simp] theorem State.retireWith_done (s : State) (b : Byte) : (s.retireWith b).done = s.done := rfl
@[simp] theorem State.retireWith_pend (s : State) (b : Byte) : (s.retireWith b).pend = s.pend := rfl
@[simp] theorem State.retireWith_ph (s : State) (b : Byte) : (s.retireWith b).ph = s.ph := rfl
@[simp] theorem State.retireWith_dir (s : State) (b : Byte) : (s.retireWith b).dir = s.dir := rfl
@[simp] theorem State.retireWith_rxend (s : State) (b : Byte) : (s.retireWith b).rxend = s.rxend := rfl
@[simp] theorem State.retireWith_data (s : State) (b : Byte) : (s.retireWith b).data = s.data := rfl
@[simp] theorem State.retireWith_mode (s : State) (b : Byte) : (s.retireWith b).mode = s.mode := rfl
@[simp] theorem State.retireWith_stepIx (s : State) (b : Byte) : (s.retireWith b).stepIx = s.stepIx := rfl
@[simp] theorem State.retireWith_ra (s : State) (b : Byte) : (s.retireWith b).ra = s.ra := rfl
@[simp] theorem State.retireWith_rv (s : State) (b : Byte) : (s.retireWith b).rv = s.rv := rfl
@[simp] theorem State.retireWith_res (s : State) (b : Byte) : (s.retireWith b).res = s.res := rfl
@[simp] theorem State.retireWith_trace (s : State) (b : Byte) : (s.retireWith b).trace = s.trace := rfl
@[simp] theorem State.retireWith_cmds (s : State) (b : Byte) : (s.retireWith b).cmds = s.cmds.tail := rfl
@[simp] theorem State.retireWith_returned (s : State) (b : Byte) : (s.retireWith b).returned = s.returned ++ [b] := rfl
@[simp] theorem State.retireWith_sched (s : State) (b : Byte) : (s.retireWith b).sched = s.sched := rfl
@[simp] theorem State.retireWith_draws (s : State) (b : Byte) : (s.retireWith b).draws = s.draws := rfl
@[simp] theorem State.retireWith_dev (s : State) (b : Byte) : (s.retireWith b).dev = s.dev := rfl

/-! ### `switchedOff` (R80) -/

@[simp] theorem State.switchedOff_en (s : State) : s.switchedOff.en = false := rfl
@[simp] theorem State.switchedOff_done (s : State) : s.switchedOff.done = false := rfl
@[simp] theorem State.switchedOff_pend (s : State) : s.switchedOff.pend = .none := rfl
@[simp] theorem State.switchedOff_ph (s : State) : s.switchedOff.ph = .idle := rfl
@[simp] theorem State.switchedOff_dir (s : State) : s.switchedOff.dir = none := rfl
@[simp] theorem State.switchedOff_rxend (s : State) : s.switchedOff.rxend = false := rfl
@[simp] theorem State.switchedOff_data (s : State) : s.switchedOff.data = .unspecified := rfl
@[simp] theorem State.switchedOff_mode (s : State) : s.switchedOff.mode = s.mode := rfl
@[simp] theorem State.switchedOff_stepIx (s : State) : s.switchedOff.stepIx = s.stepIx := rfl
@[simp] theorem State.switchedOff_ra (s : State) : s.switchedOff.ra = s.ra := rfl
@[simp] theorem State.switchedOff_rv (s : State) : s.switchedOff.rv = s.rv := rfl
@[simp] theorem State.switchedOff_res (s : State) : s.switchedOff.res = s.res := rfl
@[simp] theorem State.switchedOff_trace (s : State) : s.switchedOff.trace = s.trace := rfl
@[simp] theorem State.switchedOff_cmds (s : State) : s.switchedOff.cmds = s.cmds := rfl
@[simp] theorem State.switchedOff_returned (s : State) : s.switchedOff.returned = s.returned := rfl
@[simp] theorem State.switchedOff_sched (s : State) : s.switchedOff.sched = s.sched := rfl
@[simp] theorem State.switchedOff_draws (s : State) : s.switchedOff.draws = s.draws := rfl
@[simp] theorem State.switchedOff_dev (s : State) : s.switchedOff.dev = s.dev := rfl

/-! ### `withCommand` (R60) -/

@[simp] theorem State.withCommand_en (s : State) (w : Command) : (s.withCommand w).en = s.en := rfl
@[simp] theorem State.withCommand_done (s : State) (w : Command) : (s.withCommand w).done = s.done := rfl
@[simp] theorem State.withCommand_pend (s : State) (w : Command) : (s.withCommand w).pend = s.pend := rfl
@[simp] theorem State.withCommand_ph (s : State) (w : Command) : (s.withCommand w).ph = s.ph := rfl
@[simp] theorem State.withCommand_dir (s : State) (w : Command) : (s.withCommand w).dir = s.dir := rfl
@[simp] theorem State.withCommand_rxend (s : State) (w : Command) : (s.withCommand w).rxend = s.rxend := rfl
@[simp] theorem State.withCommand_data (s : State) (w : Command) : (s.withCommand w).data = s.data := rfl
@[simp] theorem State.withCommand_mode (s : State) (w : Command) : (s.withCommand w).mode = s.mode := rfl
@[simp] theorem State.withCommand_stepIx (s : State) (w : Command) : (s.withCommand w).stepIx = s.stepIx := rfl
@[simp] theorem State.withCommand_ra (s : State) (w : Command) : (s.withCommand w).ra = s.ra := rfl
@[simp] theorem State.withCommand_rv (s : State) (w : Command) : (s.withCommand w).rv = s.rv := rfl
@[simp] theorem State.withCommand_res (s : State) (w : Command) : (s.withCommand w).res = s.res := rfl
@[simp] theorem State.withCommand_trace (s : State) (w : Command) : (s.withCommand w).trace = s.trace := rfl
@[simp] theorem State.withCommand_cmds (s : State) (w : Command) : (s.withCommand w).cmds = w :: s.cmds := rfl
@[simp] theorem State.withCommand_returned (s : State) (w : Command) : (s.withCommand w).returned = s.returned := rfl
@[simp] theorem State.withCommand_sched (s : State) (w : Command) : (s.withCommand w).sched = s.sched := rfl
@[simp] theorem State.withCommand_draws (s : State) (w : Command) : (s.withCommand w).draws = s.draws := rfl
@[simp] theorem State.withCommand_dev (s : State) (w : Command) : (s.withCommand w).dev = s.dev := rfl

/-! ### `turnTaken` (R5): only `sched` or `draws` changes -/

@[simp] theorem State.turnTaken_en (s : State) : s.turnTaken.en = s.en := by
  unfold State.turnTaken; split <;> rfl
@[simp] theorem State.turnTaken_done (s : State) : s.turnTaken.done = s.done := by
  unfold State.turnTaken; split <;> rfl
@[simp] theorem State.turnTaken_pend (s : State) : s.turnTaken.pend = s.pend := by
  unfold State.turnTaken; split <;> rfl
@[simp] theorem State.turnTaken_ph (s : State) : s.turnTaken.ph = s.ph := by
  unfold State.turnTaken; split <;> rfl
@[simp] theorem State.turnTaken_dir (s : State) : s.turnTaken.dir = s.dir := by
  unfold State.turnTaken; split <;> rfl
@[simp] theorem State.turnTaken_rxend (s : State) : s.turnTaken.rxend = s.rxend := by
  unfold State.turnTaken; split <;> rfl
@[simp] theorem State.turnTaken_data (s : State) : s.turnTaken.data = s.data := by
  unfold State.turnTaken; split <;> rfl
@[simp] theorem State.turnTaken_mode (s : State) : s.turnTaken.mode = s.mode := by
  unfold State.turnTaken; split <;> rfl
@[simp] theorem State.turnTaken_stepIx (s : State) : s.turnTaken.stepIx = s.stepIx := by
  unfold State.turnTaken; split <;> rfl
@[simp] theorem State.turnTaken_ra (s : State) : s.turnTaken.ra = s.ra := by
  unfold State.turnTaken; split <;> rfl
@[simp] theorem State.turnTaken_rv (s : State) : s.turnTaken.rv = s.rv := by
  unfold State.turnTaken; split <;> rfl
@[simp] theorem State.turnTaken_res (s : State) : s.turnTaken.res = s.res := by
  unfold State.turnTaken; split <;> rfl
@[simp] theorem State.turnTaken_trace (s : State) : s.turnTaken.trace = s.trace := by
  unfold State.turnTaken; split <;> rfl
@[simp] theorem State.turnTaken_cmds (s : State) : s.turnTaken.cmds = s.cmds := by
  unfold State.turnTaken; split <;> rfl
@[simp] theorem State.turnTaken_returned (s : State) : s.turnTaken.returned = s.returned := by
  unfold State.turnTaken; split <;> rfl
@[simp] theorem State.turnTaken_dev (s : State) : s.turnTaken.dev = s.dev := by
  unfold State.turnTaken; split <;> rfl

/-! ### `readData` (R68): only `draws` may change -/

@[simp] theorem State.readData_en (s : State) : s.readData.2.en = s.en := by
  unfold State.readData; split <;> rfl
@[simp] theorem State.readData_done (s : State) : s.readData.2.done = s.done := by
  unfold State.readData; split <;> rfl
@[simp] theorem State.readData_pend (s : State) : s.readData.2.pend = s.pend := by
  unfold State.readData; split <;> rfl
@[simp] theorem State.readData_ph (s : State) : s.readData.2.ph = s.ph := by
  unfold State.readData; split <;> rfl
@[simp] theorem State.readData_dir (s : State) : s.readData.2.dir = s.dir := by
  unfold State.readData; split <;> rfl
@[simp] theorem State.readData_rxend (s : State) : s.readData.2.rxend = s.rxend := by
  unfold State.readData; split <;> rfl
@[simp] theorem State.readData_data (s : State) : s.readData.2.data = s.data := by
  unfold State.readData; split <;> rfl
@[simp] theorem State.readData_mode (s : State) : s.readData.2.mode = s.mode := by
  unfold State.readData; split <;> rfl
@[simp] theorem State.readData_stepIx (s : State) : s.readData.2.stepIx = s.stepIx := by
  unfold State.readData; split <;> rfl
@[simp] theorem State.readData_ra (s : State) : s.readData.2.ra = s.ra := by
  unfold State.readData; split <;> rfl
@[simp] theorem State.readData_rv (s : State) : s.readData.2.rv = s.rv := by
  unfold State.readData; split <;> rfl
@[simp] theorem State.readData_res (s : State) : s.readData.2.res = s.res := by
  unfold State.readData; split <;> rfl
@[simp] theorem State.readData_trace (s : State) : s.readData.2.trace = s.trace := by
  unfold State.readData; split <;> rfl
@[simp] theorem State.readData_cmds (s : State) : s.readData.2.cmds = s.cmds := by
  unfold State.readData; split <;> rfl
@[simp] theorem State.readData_returned (s : State) : s.readData.2.returned = s.returned := by
  unfold State.readData; split <;> rfl
@[simp] theorem State.readData_sched (s : State) : s.readData.2.sched = s.sched := by
  unfold State.readData; split <;> rfl
@[simp] theorem State.readData_dev (s : State) : s.readData.2.dev = s.dev := by
  unfold State.readData; split <;> rfl

end Sys2Proof.Machine
end

