-- ==== Sys2Proof/Laws/Ops.lean ====
section
/-! SUPPORT. One lemma per shared operation that says once everything it can do; later proofs cite
these instead of unfolding the operation. -/

namespace Sys2Proof.Machine

/-- The common checks pass exactly when the transport is enabled with nothing pending (R61, R91). -/
theorem enabledAndFree_eq_none {c : Cmd} {s : State} :
    enabledAndFree c s = none ↔ s.en = true ∧ s.pend = .none := by
  unfold enabledAndFree
  split
  · simp_all
  · split <;> simp_all

/-- The fault of the common checks, when they do not pass (R113, R114, R117). -/
theorem enabledAndFree_eq_some {c : Cmd} {s : State} {f : Fault} :
    enabledAndFree c s = some f ↔
      (s.en = false ∧ f = .disabled c) ∨
      (s.en = true ∧ s.pend ≠ .none ∧ f = .busy c s.pend) := by
  unfold enabledAndFree
  constructor
  · intro h
    split at h
    · next he => cases h; exact .inl ⟨he, rfl⟩
    · next he =>
      split at h
      · cases h
      · next hp => cases h; exact .inr ⟨by simpa using he, hp, rfl⟩
  · rintro (⟨he, rfl⟩ | ⟨he, hp, rfl⟩)
    · rw [if_pos he]
    · rw [if_neg (by simp [he]), if_neg hp]

/-- A launch retires exactly when every check passes, in the launched state. -/
theorem launch_eq_retire {c : Cmd} {legal : Bool} {p : Pend} {s t : State} :
    launch c legal p s = .retire t ↔
      s.en = true ∧ s.pend = .none ∧ legal = true ∧ t = s.launched p := by
  unfold launch
  split
  · next f hf =>
    rcases enabledAndFree_eq_some.1 hf with ⟨h, -⟩ | ⟨-, h, -⟩ <;> simp [h]
  · next hn =>
    obtain ⟨he, hp⟩ := enabledAndFree_eq_none.1 hn
    split
    · next hl => simp [he, hp, hl, eq_comm]
    · next hl => simp [hl]

/-- A launch raises exactly the first check that fails (R61, R62, R117). -/
theorem launch_eq_raise {c : Cmd} {legal : Bool} {p : Pend} {s : State} {f : Fault} :
    launch c legal p s = .raise f ↔
      (s.en = false ∧ f = .disabled c) ∨
      (s.en = true ∧ s.pend ≠ .none ∧ f = .busy c s.pend) ∨
      (s.en = true ∧ s.pend = .none ∧ legal = false ∧
        f = .phaseViolation c s.ph s.dir s.rxend) := by
  unfold launch enabledAndFree
  by_cases he : s.en = false
  · simp [he, eq_comm]
  · by_cases hp : s.pend = .none
    · cases legal <;> simp [he, hp, eq_comm]
    · simp [he, hp, eq_comm]

/-- A launch retires or raises; it never holds and returns no byte. -/
theorem launch_cases {c : Cmd} {legal : Bool} {p : Pend} {s : State} :
    launch c legal p s = .retire (s.launched p) ∨
    launch c legal p s = .raise (.disabled c) ∨
    launch c legal p s = .raise (.busy c s.pend) ∨
    launch c legal p s = .raise (.phaseViolation c s.ph s.dir s.rxend) := by
  unfold launch enabledAndFree
  by_cases he : s.en = false
  · simp [he]
  · by_cases hp : s.pend = .none
    · cases legal <;> simp [he, hp]
    · simp [he, hp]

/-- A transaction starts exactly when the checks of R91 pass. -/
theorem present_eq_next {c : Cmd} {u s t : State} :
    present c u s = .next t ↔
      s.en = true ∧ s.pend = .none ∧ s.ph.released = true ∧ t = u := by
  unfold present
  split
  · next f hf =>
    rcases enabledAndFree_eq_some.1 hf with ⟨h, -⟩ | ⟨-, h, -⟩ <;> simp [h]
  · next hn =>
    obtain ⟨he, hp⟩ := enabledAndFree_eq_none.1 hn
    split
    · next hl => simp [he, hp, hl, eq_comm]
    · next hl => simp [hl]

/-- A rule executed by the host that gives a next state: it retired, or it held. -/
theorem hostResult_eq_next {s t : State} {a : Act} :
    hostResult s a = .next t ↔
      (∃ u, a = .retire u ∧ t = u.retire) ∨ (∃ b u, a = .retireWith b u ∧ t = u.retireWith b) ∨
      (a = .hold ∧ t = s) := by
  cases a <;> simp [hostResult, eq_comm]

/-- A rule executed by the sequencer that gives a next state: it advanced, or it held. -/
theorem sequencerResult_eq_next {s t : State} {a : Act} :
    sequencerResult s a = .next t ↔
      (∃ u, a = .retire u ∧ t = u.advance) ∨
      (∃ b u, a = .retireWith b u ∧ t = State.advance { u with res := b }) ∨
      (a = .hold ∧ t = s) := by
  cases a <;> simp [sequencerResult, eq_comm]

/-- `GETDATA`'s rule: it returns the byte read, or finds the transport busy (R68). -/
theorem getdataRule_cases (s : State) :
    (s.pend = .none ∧ getdataRule s = .retireWith s.readData.1 s.readData.2) ∨
    (s.pend ≠ .none ∧ getdataRule s = .raise (.busy .getdata s.pend)) := by
  by_cases h : s.pend = .none <;> simp [getdataRule, h]

/-- Reading a latched byte gives it and changes nothing (R68). -/
theorem State.readData_latched {s : State} {b : Byte} (h : s.data = .latched b) :
    s.readData = (b, s) := by
  simp [State.readData, h]

/-- Every step is one of three: the engine's, when it is enabled and it is its turn; the command
side's, when the engine is enabled and it is not; the command side's, when the engine is not. -/
theorem step_cases (s : State) :
    (s.engineEnabled = true ∧ s.nextTurn = .engine ∧ step s = .next (engineStep s.turnTaken)) ∨
    (s.engineEnabled = true ∧ s.nextTurn = .command ∧ step s = commandStep s.turnTaken) ∨
    (s.engineEnabled = false ∧ step s = commandStep s) := by
  unfold step
  by_cases h : s.engineEnabled = true
  · rcases ht : s.nextTurn <;> simp [h]
  · simp [h]

/-- A step in which the command side moves. -/
theorem step_of_command {s : State} (h : ¬ (s.engineEnabled = true ∧ s.nextTurn = .engine)) :
    (s.engineEnabled = false ∧ step s = commandStep s) ∨
    (s.engineEnabled = true ∧ step s = commandStep s.turnTaken) := by
  rcases step_cases s with ⟨he, ht, -⟩ | ⟨he, -, hs⟩ | ⟨he, hs⟩
  · exact absurd ⟨he, ht⟩ h
  · exact .inr ⟨he, hs⟩
  · exact .inl ⟨he, hs⟩

end Sys2Proof.Machine
end

