-- ==== Sys2Proof/Laws/Frames.lean ====
section
/-! SUPPORT. Frames: what the engine's step, and a rule executed by the host or the sequencer, leave
unchanged (spec R10's "written by" column). -/

namespace Sys2Proof.Machine

/-- The engine touches neither the enable, nor the sequencer, nor the host's side, nor the turns
(R69 to R73). -/
theorem engineStep_frame (s : State) :
    (engineStep s).en = s.en ∧ (engineStep s).mode = s.mode ∧ (engineStep s).stepIx = s.stepIx ∧
    (engineStep s).ra = s.ra ∧ (engineStep s).rv = s.rv ∧ (engineStep s).res = s.res ∧
    (engineStep s).cmds = s.cmds ∧ (engineStep s).returned = s.returned ∧
    (engineStep s).sched = s.sched ∧ (engineStep s).draws = s.draws := by
  unfold engineStep
  split
  · simp
  · simp [completeStart]
  · simp only [completeSend]
    split <;> simp
  · simp [completeRecv]
  · simp [completeStop]

/-- The state a rule ends in, when it ends in one. -/
def Act.state? : Act → Option State
  | .retire t => some t
  | .retireWith _ t => some t
  | .hold => none
  | .raise _ => none

/-- A launch's end state, when it has one, is the launched state. -/
theorem launch_state {c : Cmd} {legal : Bool} {p : Pend} {s t : State}
    (h : (launch c legal p s).state? = some t) : t = s.launched p := by
  rcases launch_cases (c := c) (legal := legal) (p := p) (s := s) with hl | hl | hl | hl <;>
    rw [hl] at h <;> simp [Act.state?] at h
  exact h.symm

/-- No rule touches the sequencer's registers or the host's side: `retire`, `retire with` and the
sequencer's two lines do that (R94). -/
theorem rule_frame {m : MicroOp} {s t : State} (h : (m.rule s).state? = some t) :
    t.mode = s.mode ∧ t.stepIx = s.stepIx ∧ t.ra = s.ra ∧ t.rv = s.rv ∧ t.res = s.res ∧
    t.cmds = s.cmds ∧ t.returned = s.returned ∧ t.sched = s.sched := by
  cases m with
  | start => rw [launch_state h]; simp
  | send src => rw [launch_state h]; simp
  | recv k => rw [launch_state h]; simp
  | stop => rw [launch_state h]; simp
  | wait =>
    simp only [MicroOp.rule, waitRule] at h
    split at h <;> simp [Act.state?] at h
    subst h
    simp
  | getdata =>
    simp only [MicroOp.rule, getdataRule] at h
    split at h <;> simp [Act.state?] at h
    subst h
    simp
  | disable =>
    simp only [MicroOp.rule, disableRule, Act.state?, Option.some.injEq] at h
    subst h
    split <;> simp
  | enable =>
    simp only [MicroOp.rule, enableRule, Act.state?, Option.some.injEq] at h
    subst h
    simp

end Sys2Proof.Machine
end

