-- ==== Sys2Proof/Laws/Memory.lean ====
section
/-! SUPPORT. The device register space: read after write, and every operation keeps the canonical
form (spec R30, R39). -/

namespace Sys2Proof.Machine

@[simp] theorem Memory.read_nil (a : Nat) : Memory.read [] a = Memory.unlisted := rfl

theorem Memory.read_cons (k : Nat) (x : Byte) (m : Memory) (a : Nat) :
    Memory.read ((k, x) :: m) a = if k = a then x else Memory.read m a := rfl

/-- An address below every listed one reads as unlisted. -/
theorem Memory.read_below {lo : Nat} {m : Memory} (h : Memory.wfFrom lo m = true) {a : Nat}
    (ha : a < lo) : Memory.read m a = Memory.unlisted := by
  induction m generalizing lo with
  | nil => rfl
  | cons c m ih =>
    obtain ⟨k, x⟩ := c
    simp only [Memory.wfFrom, Bool.and_eq_true, decide_eq_true_eq] at h
    rw [Memory.read_cons, if_neg (by omega)]
    exact ih h.2 (by omega)

/-- `put` in front of a list whose addresses are higher: it holds `v` at `a`. -/
theorem Memory.read_put {m : Memory} {a : Nat} (h : Memory.wfFrom (a + 1) m = true) (v : Byte)
    (a' : Nat) : Memory.read (Memory.put a v m) a' = if a' = a then v else Memory.read m a' := by
  unfold Memory.put
  by_cases hv : v = Memory.unlisted
  · rw [if_pos hv]
    split
    · next ha => rw [ha, hv]; exact Memory.read_below h (by omega)
    · rfl
  · rw [if_neg hv, Memory.read_cons]
    split <;> split <;> first | rfl | omega

theorem Memory.wfFrom_mono {lo lo' : Nat} {m : Memory} (h : Memory.wfFrom lo m = true)
    (hl : lo' ≤ lo) : Memory.wfFrom lo' m = true := by
  cases m with
  | nil => rfl
  | cons c m =>
    obtain ⟨k, x⟩ := c
    simp only [Memory.wfFrom, Bool.and_eq_true, decide_eq_true_eq] at h ⊢
    exact ⟨⟨⟨by omega, h.1.1.2⟩, h.1.2⟩, h.2⟩

/-- `put` keeps the canonical form. -/
theorem Memory.put_wfFrom {m : Memory} {a lo : Nat} (h : Memory.wfFrom (a + 1) m = true)
    (hlo : lo ≤ a) (ha : a < 256) (v : Byte) : Memory.wfFrom lo (Memory.put a v m) = true := by
  unfold Memory.put
  split
  · exact Memory.wfFrom_mono h (by omega)
  · next hv => simp [Memory.wfFrom, hlo, ha, hv, h]

/-- A read after a write: the written address gives the value, every other address what it gave. -/
theorem Memory.read_write {m : Memory} {lo : Nat} (h : Memory.wfFrom lo m = true) (a : Nat)
    (v : Byte) (a' : Nat) :
    Memory.read (Memory.write m a v) a' = if a' = a then v else Memory.read m a' := by
  induction m generalizing lo with
  | nil => exact Memory.read_put rfl v a'
  | cons c m ih =>
    obtain ⟨k, x⟩ := c
    have hw := h
    simp only [Memory.wfFrom, Bool.and_eq_true, decide_eq_true_eq] at h
    unfold Memory.write
    split
    · next hk =>
      exact Memory.read_put (by simp [Memory.wfFrom, h.1.1.2, h.2, Nat.succ_le_of_lt hk]
                                simpa using h.1.2) v a'
    · split
      · next hk =>
        subst hk
        rw [Memory.read_put h.2, Memory.read_cons]
        split
        · rfl
        · rw [if_neg (by omega)]
      · rw [Memory.read_cons, Memory.read_cons, ih h.2]
        split
        · rw [if_neg (by omega)]
        · rfl

/-- A write at an address of the space keeps the canonical form. -/
theorem Memory.write_wfFrom {m : Memory} {lo : Nat} (h : Memory.wfFrom lo m = true) {a : Nat}
    (hlo : lo ≤ a) (ha : a < 256) (v : Byte) : Memory.wfFrom lo (Memory.write m a v) = true := by
  induction m generalizing lo with
  | nil => exact Memory.put_wfFrom rfl hlo ha v
  | cons c m ih =>
    obtain ⟨k, x⟩ := c
    simp only [Memory.wfFrom, Bool.and_eq_true, decide_eq_true_eq] at h
    unfold Memory.write
    split
    · next hk =>
      exact Memory.put_wfFrom (by simp [Memory.wfFrom, h.1.1.2, h.2, Nat.succ_le_of_lt hk]
                                  simpa using h.1.2) hlo ha v
    · split
      · next hk => subst hk; exact Memory.put_wfFrom h.2 hlo ha v
      · simp only [Memory.wfFrom, Bool.and_eq_true, decide_eq_true_eq]
        exact ⟨h.1, ih h.2 (by omega)⟩

/-- The form every claim uses: a write of a byte register address keeps `wf`. -/
theorem Memory.write_wf {m : Memory} (h : Memory.wf m = true) (a v : Byte) :
    Memory.wf (Memory.write m a.toNat v) = true :=
  Memory.write_wfFrom h (Nat.zero_le _) (by omega) v

/-- What the reference device hears keeps its register file canonical. -/
theorem RefDev.hear_wf {r : RefDev} (h : Memory.wf r.reg = true) (tr : List WireEvent)
    (e : WireEvent) : Memory.wf (r.hear tr e).reg = true := by
  cases e with
  | tx b k =>
    simp only [RefDev.hear, RefDev.hearTx]
    split
    · split <;> exact h
    · split
      · exact h
      · exact Memory.write_wf h _ _
      · exact h
      · exact h
  | start => exact h
  | repStart => exact h
  | rx d k => exact h
  | stop => exact h
  | release => exact h

/-- What any device hears keeps its register space canonical. -/
theorem Device.hear_wf {d : Device} (h : d.wf = true) (tr : List WireEvent) (e : WireEvent) :
    (d.hear tr e).wf = true := by
  cases d with
  | reference r => exact RefDev.hear_wf h tr e
  | oracle acks bytes => cases e <;> rfl

/-- The reset state's register space is in canonical form. -/
theorem State.reset_dev_wf : State.reset.dev.wf = true := rfl

end Sys2Proof.Machine
end

