-- ==== Sys2Proof/Laws/PerInstr.lean ====
section
/-! SUPPORT. The family `EncodedFields`: the three fields of a command's word are its opcode and its
operand fields (spec R50 to R53), one lemma per command. -/

namespace Sys2Proof.Laws.EncodedFields

/-- The fields of the word `encode` gives, and its format's check passes on them. -/
def Statement (i : Instr) : Prop :=
  opOf (encode i) = i.cmd.opcode ∧ aOf (encode i) = i.fieldA ∧ bOf (encode i) = i.fieldB ∧
  i.cmd.format.fieldsOk i.fieldA i.fieldB = true

/-- The fields of any command's word; the format's check is left to each command. -/
theorem of_fieldsOk {i : Instr} (h : i.cmd.format.fieldsOk i.fieldA i.fieldB = true) :
    Statement i :=
  ⟨opOf_joinFields _ _ _, aOf_joinFields _ _ _, bOf_joinFields _ _ _, h⟩

theorem start : Statement .start := of_fieldsOk rfl
theorem send (b : Byte) : Statement (.send b) := of_fieldsOk rfl
theorem recv (k : Bool) : Statement (.recv k) := of_fieldsOk (by cases k <;> rfl)
theorem wait : Statement .wait := of_fieldsOk rfl
theorem getdata : Statement .getdata := of_fieldsOk rfl
theorem stop : Statement .stop := of_fieldsOk rfl
theorem disable : Statement .disable := of_fieldsOk rfl
theorem enable : Statement .enable := of_fieldsOk rfl
theorem rdreg (a : Byte) : Statement (.rdreg a) := of_fieldsOk rfl
theorem wrreg (a v : Byte) : Statement (.wrreg a v) := of_fieldsOk rfl

end Sys2Proof.Laws.EncodedFields
end

