-- ==== Sys2Proof/Laws/Steps.lean ====
section
/-! SUPPORT. Runs: no step, one more step, and a property every step keeps holds after every run
(spec R136). -/

namespace Sys2Proof.Machine

@[simp] theorem steps_zero (s : State) : steps 0 s = .next s := rfl

theorem steps_succ (n : Nat) (s : State) :
    steps (n + 1) s =
      match step s with
      | .next t => steps n t
      | .fault f => .fault f
      | .refused r => .refused r := rfl

/-- `steps` is the host's run of the machine. -/
theorem steps_eq_run (n : Nat) (s : State) : steps n s = Host.Core.run Sys2Proof.core n s := by
  have run_succ : ∀ (M : Host.Core) (n : Nat) (s : M.State),
      (∀ t, M.step s = .next t → M.run (n + 1) s = M.run n t) ∧
      (∀ f, M.step s = .fault f → M.run (n + 1) s = .fault f) ∧
      (∀ r, M.step s = .refused r → M.run (n + 1) s = .refused r) := by
    intro M n s
    refine ⟨?_, ?_, ?_⟩ <;> intro x h <;> rw [Host.Core.run, h]
  induction n generalizing s with
  | zero => rfl
  | succ n ih =>
    obtain ⟨h1, h2, h3⟩ := run_succ Sys2Proof.core n s
    rw [steps_succ]
    cases h : step s with
    | next t => exact (ih t).trans (h1 t h).symm
    | fault f => exact (h2 f h).symm
    | refused r => exact (h3 r h).symm

theorem steps_succ_next {n : Nat} {s t : State} (h : step s = .next t) :
    steps (n + 1) s = steps n t := by
  rw [steps_succ, h]

theorem steps_succ_fault {n : Nat} {s : State} {f : Fault} (h : step s = .fault f) :
    steps (n + 1) s = .fault f := by
  rw [steps_succ, h]

/-- A state whose step is itself stays. -/
theorem steps_of_fixed {s : State} (h : step s = .next s) (n : Nat) : steps n s = .next s := by
  induction n with
  | zero => rfl
  | succ n ih => rw [steps_succ_next h, ih]

/-- The induction over runs: what holds at the start and is kept by every step holds after every
run. -/
theorem steps_keep {P : State → Prop} (hk : ∀ s t, P s → step s = .next t → P t) :
    ∀ (n : Nat) {s t : State}, P s → steps n s = .next t → P t
  | 0, s, t, hs, h => by cases h; exact hs
  | n + 1, s, t, hs, h => by
    rw [steps_succ] at h
    split at h
    · next u hu => exact steps_keep hk n (hk s u hs hu) h
    · cases h
    · cases h

/-- The last step of a run. -/
theorem steps_succ_last {n : Nat} {s t : State} :
    steps (n + 1) s = .next t ↔ ∃ u, steps n s = .next u ∧ step u = .next t := by
  induction n generalizing s with
  | zero =>
    rw [steps_succ]
    cases h : step s <;> simp [h]
  | succ n ih =>
    rw [steps_succ, steps_succ]
    cases h : step s with
    | next u => exact ih
    | fault f => simp
    | refused r => simp

end Sys2Proof.Machine
end

