-- ==== Sys2Proof/Laws/Trace.lean ====
section
/-! SUPPORT. The trace automata on a trace with one event more, and the reference device read off a
trace with one event more (spec R19, R39, R75). -/

namespace Sys2Proof.Machine

theorem BusPoint.after_append (p : BusPoint) (es : List WireEvent) (e : WireEvent) :
    p.after (es ++ [e]) = (p.after es).bind fun q => q.next e := by
  induction es generalizing p with
  | nil => simp [BusPoint.after]; cases p.next e <;> rfl
  | cons a es ih =>
    simp only [List.cons_append, BusPoint.after]
    cases p.next a with
    | none => rfl
    | some q => exact ih q

theorem RefDev.replayFrom_append (r : RefDev) (before es : List WireEvent) (e : WireEvent) :
    r.replayFrom before (es ++ [e]) = (r.replayFrom before es).hear (before ++ es) e := by
  induction es generalizing r before with
  | nil => simp [RefDev.replayFrom]
  | cons a es ih => simp [RefDev.replayFrom, ih]

theorem Device.hearAll_append (d : Device) (tr es : List WireEvent) (e : WireEvent) :
    d.hearAll tr (es ++ [e]) = (d.hearAll tr es).hear (tr ++ es) e := by
  induction es generalizing d tr with
  | nil => simp [Device.hearAll]
  | cons a es ih => simp [Device.hearAll, ih]

end Sys2Proof.Machine
end

