-- ==== Sys2Proof/Tests/Slice0.lean ====
section
/-! SUPPORT. Tests and witnesses. Expected results are those of `spec/95_test_vectors.md`, whose vector
names (L, E, W, G, B, T, O) and rules are given at each test. A theorem `test_witness_<Name>` shows
concrete states and operands that meet the hypotheses of `Obligations.<Name>`, clause by clause. -/

namespace Sys2Proof.Machine

/-! ### Helpers -/

/-- The tuple of 95_test_vectors.md: `(EN, DONE, PEND, PH, DIR, RXEND, DATA)`, the rest as after
reset. -/
def tuple (en done : Bool) (pend : Pend) (ph : Phase) (dir : Option Dir) (rxend : Bool)
    (data : Latch) : State :=
  { State.reset with en := en, done := done, pend := pend, ph := ph, dir := dir, rxend := rxend,
                     data := data }

/-- The next state an outcome gives, if it is one. -/
def next? : Host.Outcome State Fault Refusal → Option State
  | .next t => some t
  | .fault _ => none
  | .refused _ => none

/-- The fault an outcome is, if it is one. -/
def fault? : Host.Outcome State Fault Refusal → Option Fault
  | .next _ => none
  | .fault f => some f
  | .refused _ => none

theorem eq_next {o : Host.Outcome State Fault Refusal} {t : State} (h : next? o = some t) :
    o = .next t := by
  cases o <;> simp [next?] at h
  rw [h]

theorem exists_next {o : Host.Outcome State Fault Refusal} (h : isNext o = true) :
    ∃ t, o = .next t := by
  cases o with
  | next t => exact ⟨t, rfl⟩
  | fault f => cases h
  | refused r => cases h

/-- Where a running transaction first finishes, looked for over `n` steps. -/
def finishAfter : Nat → State → Option State
  | 0, s => if s.mode = .none then some s else none
  | n + 1, s => if s.mode = .none then none else (next? (step s)).bind (finishAfter n)

theorem finishesAt_of_finishAfter {n : Nat} {s t : State} (h : finishAfter n s = some t) :
    FinishesAt n s t := by
  induction n generalizing s with
  | zero =>
    simp only [finishAfter] at h
    split at h
    · next hm => cases h; exact ⟨rfl, hm, fun m u hm' => absurd hm' (by omega)⟩
    · cases h
  | succ n ih =>
    simp only [finishAfter] at h
    split at h
    · cases h
    · next hm =>
      cases hs : step s with
      | next u =>
        rw [hs] at h
        obtain ⟨h1, h2, h3⟩ := ih h
        refine ⟨by rw [steps_succ_next hs]; exact h1, h2, fun m v hlt hv => ?_⟩
        cases m with
        | zero => cases hv; exact hm
        | succ m => rw [steps_succ_next hs] at hv; exact h3 m v (by omega) hv
      | fault f => rw [hs] at h; cases h
      | refused r => rw [hs] at h; cases h

theorem exists_finishesAt {n : Nat} {s : State} (h : (finishAfter n s).isSome = true) :
    ∃ t, FinishesAt n s t := by
  obtain ⟨t, ht⟩ := Option.isSome_iff_exists.1 h
  exact ⟨t, finishesAt_of_finishAfter ht⟩

/-- Enabled, nothing pending, no transaction: the start state of T1. -/
def idle : State := tuple true false .none .idle none false .unspecified

/-- `idle` with `n` turns of the engine scheduled and a device that acknowledges and sends 0x05. -/
def ready (n : Nat) : State :=
  { idle with sched := List.replicate n .engine, dev := .oracle [true, true, true] [0x05] }

/-- A transaction left open by the host after a written byte. -/
def openWrite : State := tuple true true .none .dataSent (some .w) false .unspecified

/-- `SEND 0x2B` pending after a write address byte (B4), with the engine's or the command side's turn. -/
def sending (turn : Turn) : State :=
  { tuple true false (.send 0x2B) .addrSent (some .w) false .unspecified with
    sched := [turn], dev := .oracle [true] [] }

/-- The reference device with `reg[0x2B] = 0x77` (T9). -/
def refdev : RefDev := { reg := [(0x2B, 0x77)], ptr := 0, sel := .no }

/-! ### Well-formedness: the check of each format refuses an ill-formed field (R51, R54) -/

theorem test_format_n_refuses_a : Format.n.fieldsOk 0x01 0x00 = false := by decide
theorem test_format_n_refuses_b : Format.n.fieldsOk 0x00 0x01 = false := by decide
theorem test_format_a_refuses_b : Format.a.fieldsOk 0xB4 0x01 = false := by decide
theorem test_format_k_refuses_high_bits : Format.k.fieldsOk 0x02 0x00 = false := by decide
theorem test_format_k_refuses_b : Format.k.fieldsOk 0x01 0x01 = false := by decide
theorem test_formats_admit :
    Format.n.fieldsOk 0 0 = true ∧ Format.a.fieldsOk 0xFF 0 = true ∧ Format.k.fieldsOk 1 0 = true ∧
    Format.ab.fieldsOk 0xFF 0xFF = true := by decide

/-! ### Decoding: words written out from the table of R53 (95_test_vectors.md section 2.1) -/

theorem test_decode_start : decode 0b00000001_00000000_00000000 = .ok .start := by decide
theorem test_decode_send : decode 0b00000010_10110100_00000000 = .ok (.send 0xB4) := by decide
theorem test_decode_recv :
    decode 0b00000011_00000000_00000000 = .ok (.recv false) ∧
    decode 0b00000011_00000001_00000000 = .ok (.recv true) := by decide
theorem test_decode_wait : decode 0b00000100_00000000_00000000 = .ok .wait := by decide
theorem test_decode_getdata : decode 0b00000101_00000000_00000000 = .ok .getdata := by decide
theorem test_decode_stop : decode 0b00000110_00000000_00000000 = .ok .stop := by decide
theorem test_decode_disable : decode 0b00000111_00000000_00000000 = .ok .disable := by decide
theorem test_decode_enable : decode 0b00001000_00000000_00000000 = .ok .enable := by decide
theorem test_decode_rdreg : decode 0b00010000_11111111_00000000 = .ok (.rdreg 0xFF) := by decide
theorem test_decode_wrreg :
    decode 0b00010001_00101011_00000001 = .ok (.wrreg 0x2B 0x01) := by decide
theorem test_decode_unassigned :
    decode 0x000000 = .error (.unassignedOpcode 0x00) ∧
    decode 0xFFFFFF = .error (.unassignedOpcode 0xFF) ∧
    decode 0x090000 = .error (.unassignedOpcode 0x09) ∧
    decode 0x0F0000 = .error (.unassignedOpcode 0x0F) ∧
    decode 0x120000 = .error (.unassignedOpcode 0x12) := by decide
theorem test_decode_non_zero_field :
    decode 0x010001 = .error (.nonZeroField .start) ∧
    decode 0x010100 = .error (.nonZeroField .start) ∧
    decode 0x02B401 = .error (.nonZeroField .send) ∧
    decode 0x030200 = .error (.nonZeroField .recv) ∧
    decode 0x030101 = .error (.nonZeroField .recv) ∧
    decode 0x100001 = .error (.nonZeroField .rdreg) := by decide
theorem test_decodeTableWord :
    decodeTableWord 24 0x112B01 = some (.wrreg 0x2B 0x01) ∧ decodeTableWord 24 0x120000 = none ∧
    decodeTableWord 32 0x010000 = none := by decide

/-! ### Text (R57, R58) -/

theorem test_text_send :
    assembleLine "SEND    0xB4           ; 0x02B400".toList = some [.send 0xB4] := by decide
theorem test_text_wrreg :
    assembleLine "WRREG   0x2B, 0x01     ; 0x112B01".toList = some [.wrreg 0x2B 0x01] := by decide
theorem test_text_numbers :
    assembleLine "SEND 0b10110100".toList = some [.send 0xB4] ∧
    assembleLine "SEND 180".toList = some [.send 0xB4] ∧
    assembleLine "SEND 256".toList = none ∧ assembleLine "RECV 2".toList = none ∧
    assembleLine "send 0xB4".toList = none ∧ assembleLine "; a comment".toList = some [] := by decide
theorem test_text_busreset :
    assembleLine "BUSRESET".toList = some [.disable, .enable] := by decide

/-! ### One step of each command -/

/-- L2: `DONE` cleared, `PH` unchanged. -/
theorem test_start_after_stop :
    next? (exec .start (tuple true true .none .stopSent none false .unspecified)) =
      some (tuple true false .start .stopSent none false .unspecified) := by decide
/-- L5. -/
theorem test_start_after_start :
    fault? (exec .start (tuple true true .none .startSent none false .unspecified)) =
      some (.phaseViolation .start .startSent none false) := by decide
/-- L10. -/
theorem test_send_data_byte :
    next? (exec (.send 0xFF) (tuple true true .none .dataSent (some .w) false .unspecified)) =
      some (tuple true false (.send 0xFF) .dataSent (some .w) false .unspecified) := by decide
/-- L11. -/
theorem test_send_in_read :
    fault? (exec (.send 0x00) (tuple true true .none .addrSent (some .r) false .unspecified)) =
      some (.phaseViolation .send .addrSent (some .r) false) := by decide
/-- L17. -/
theorem test_recv_again :
    next? (exec (.recv false) (tuple true true .none .dataRcvd (some .r) false (.latched 0x05))) =
      some (tuple true false (.recv false) .dataRcvd (some .r) false (.latched 0x05)) := by decide
/-- L18. -/
theorem test_recv_after_last :
    fault? (exec (.recv true) (tuple true true .none .dataRcvd (some .r) true (.latched 0x05))) =
      some (.phaseViolation .recv .dataRcvd (some .r) true) := by decide
/-- L23. -/
theorem test_stop_after_acknowledged :
    next? (exec .stop (tuple true true .none .dataRcvd (some .r) false (.latched 0x05))) =
      some (tuple true false .stop .dataRcvd (some .r) false (.latched 0x05)) := by decide
/-- L28, O2: `Busy` before the phase check. -/
theorem test_stop_busy :
    fault? (exec .stop (tuple true false .start .idle none false .unspecified)) =
      some (.busy .stop .start) := by decide
/-- W1: retires at once. -/
theorem test_wait_retires :
    next? (exec .wait { tuple true true .none .startSent none false .unspecified with
                        cmds := [0x040000] }) =
      some (tuple true true .none .startSent none false .unspecified) := by decide
/-- W4: held, no `Disabled` fault. -/
theorem test_wait_holds :
    next? (exec .wait { State.reset with cmds := [0x040000] }) =
      some { State.reset with cmds := [0x040000] } := by decide
/-- G2: the byte is still there after the stop. -/
theorem test_getdata_returns :
    (next? (exec .getdata (tuple true true .none .stopSent none false (.latched 0x05)))).map
        (fun t => (t.returned, t.data)) = some ([0x05], .latched 0x05) := by decide
/-- G4: any byte, no fault. -/
theorem test_getdata_unspecified :
    (next? (exec .getdata State.reset)).map (fun t => (t.returned.length, t.data, t.draws)) =
      some (1, .unspecified, 1) := by decide
/-- B5: a `Rel` with no `S` before it. -/
theorem test_disable_pending :
    next? (exec .disable (tuple true false .start .idle none false .unspecified)) =
      some { tuple false false .none .idle none false .unspecified with trace := [.release] } := by decide
/-- B1: no event on a released bus. -/
theorem test_disable_released :
    next? (exec .disable (tuple true true .none .stopSent none false (.latched 0x05))) =
      some (tuple false false .none .idle none false .unspecified) := by decide
/-- B8. -/
theorem test_enable : next? (exec .enable State.reset) = some idle := by decide
/-- B9: the pending operation is not disturbed. -/
theorem test_enable_pending :
    next? (exec .enable (sending .command)) = some (sending .command) := by decide
/-- T1, presentation: the command starts and does not retire. -/
theorem test_rdreg_starts :
    next? (exec (.rdreg 0x00) { idle with cmds := [0x100000] }) =
      some { idle with cmds := [0x100000], mode := .rd, ra := 0x00, stepIx := 0 } := by decide
/-- T7. -/
theorem test_rdreg_open :
    fault? (exec (.rdreg 0x00) (tuple true true .none .startSent none false .unspecified)) =
      some (.transactionOpen .rdreg .startSent) := by decide
/-- T2, presentation. -/
theorem test_wrreg_starts :
    next? (exec (.wrreg 0x2B 0x01) idle) =
      some { idle with mode := .wr, ra := 0x2B, rv := 0x01 } := by decide
/-- T6. -/
theorem test_wrreg_busy :
    fault? (exec (.wrreg 0x2B 0x01) (tuple true false .start .idle none false .unspecified)) =
      some (.busy .wrreg .start) := by decide

/-! ### One step of the engine -/

/-- E2. -/
theorem test_complete_start :
    engineStep (tuple true false .start .stopSent none false (.latched 0x05)) =
      { tuple true true .none .startSent none false (.latched 0x05) with trace := [.start] } := by decide
/-- E4: repeated start, `RXEND` cleared. -/
theorem test_complete_repeated_start :
    engineStep (tuple true false .start .dataRcvd (some .r) true (.latched 0xA7)) =
      { tuple true true .none .startSent none false (.latched 0xA7) with trace := [.repStart] } := by decide
/-- E7: a missing acknowledge changes nothing; bit 0 gives the direction. -/
theorem test_complete_address_byte :
    engineStep { tuple true false (.send 0x01) .startSent none false .unspecified with
                 dev := .oracle [false] [] } =
      { tuple true true .none .addrSent (some .r) false .unspecified with
        trace := [.tx 0x01 false] } := by decide
/-- E8. -/
theorem test_complete_data_byte :
    next? (step (sending .engine)) = some { openWrite with trace := [.tx 0x2B true] } := by decide
/-- E11: not acknowledged, `RXEND` set. -/
theorem test_complete_recv :
    engineStep { tuple true false (.recv false) .dataRcvd (some .r) false (.latched 0x05) with
                 dev := .oracle [] [0xA7] } =
      { tuple true true .none .dataRcvd (some .r) true (.latched 0xA7) with
        trace := [.rx 0xA7 false] } := by decide
/-- E13: `DATA` kept. -/
theorem test_complete_stop :
    engineStep (tuple true false .stop .dataRcvd (some .r) true (.latched 0xA7)) =
      { tuple true true .none .stopSent none false (.latched 0xA7) with trace := [.stop] } := by decide

/-! ### One step of the sequencer -/

/-- R92 step 2: `SEND SLA_W`. -/
theorem test_sequencer_sends_address :
    (next? (sequencerStep { tuple true true .none .startSent none false .unspecified with
                            mode := .rd, stepIx := 2, ra := 0x00 })).map
        (fun t => (t.pend, t.stepIx)) = some (.send 0xB4, 3) := by decide
/-- R92 step 12: the byte goes to `RES`, nothing is returned yet. -/
theorem test_sequencer_keeps_result :
    (next? (sequencerStep { tuple true true .none .dataRcvd (some .r) false (.latched 0x05) with
                            mode := .rd, stepIx := 12 })).map
        (fun t => (t.res, t.returned, t.stepIx)) = some (0x05, [], 13) := by decide
/-- R92 step 16, R95: `RDREG` retires with `RES`. -/
theorem test_sequencer_finishes_read :
    (next? (sequencerStep { State.reset with mode := .rd, stepIx := 16, res := 0x05,
                                             cmds := [0x100000] })).map
        (fun t => (t.en, t.mode, t.stepIx, t.returned, t.cmds)) =
      some (true, .none, 0, [0x05], []) := by decide
/-- R93 step 9, R95: `WRREG` retires and returns nothing. -/
theorem test_sequencer_finishes_write :
    (next? (sequencerStep { tuple true true .none .stopSent none false .unspecified with
                            mode := .wr, stepIx := 9, cmds := [0x112B01] })).map
        (fun t => (t.done, t.mode, t.stepIx, t.returned, t.cmds)) =
      some (true, .none, 0, [], []) := by decide

/-! ### The reference device (R39) and the step -/

/-- T9, its receptions: the register at the pointer, and 0xFF when not addressed. -/
theorem test_refdev_byte :
    RefDev.byte { refdev with ptr := 0x2B, sel := .rd } = 0x77 ∧ RefDev.byte refdev = 0xFF := by
  decide
/-- T10: a value byte after the pointer byte is written at the pointer, in canonical form. -/
theorem test_refdev_write :
    RefDev.hear { refdev with ptr := 0x2B, sel := .wr1 } [.start, .tx 0xB4 true, .tx 0x2B true]
        (.tx 0x01 true) = { reg := [(0x2B, 0x01)], ptr := 0x2B, sel := .wr1 } ∧
    RefDev.hear { refdev with ptr := 0x2B, sel := .wr1 } [.start, .tx 0xB4 true, .tx 0x2B true]
        (.tx 0x00 true) = { reg := [], ptr := 0x2B, sel := .wr1 } := by decide
/-- O3: the host's step reports the illegal word before anything of the state. -/
theorem test_step_illegal :
    fault? (step { State.reset with cmds := [0x010001] }) = some (.illegalCommand 0x010001) := by
  decide
/-- The five codes (R111). -/
theorem test_fault_codes :
    Fault.code (.illegalCommand 0) = 1 ∧ Fault.code (.disabled .start) = 2 ∧
    Fault.code (.busy .start .start) = 3 ∧ Fault.code (.phaseViolation .stop .idle none false) = 4 ∧
    Fault.code (.transactionOpen .rdreg .dataSent) = 5 := by decide
/-- The six codes (R14). -/
theorem test_phase_codes :
    [Phase.idle, .startSent, .addrSent, .dataSent, .dataRcvd, .stopSent].map Phase.code =
      [0, 1, 2, 3, 4, 5] := by decide

/-! ### Witnesses: the hypotheses of each obligation are met -/

/-- `s` with one word at the command port. -/
def State.at (s : State) (w : Command) : State := { s with cmds := [w] }

/-- A read ended, not acknowledged, the byte latched. -/
def readDone : State := tuple true true .none .dataRcvd (some .r) true (.latched 0xA7)

/-- A start condition pending on a free bus, with a turn. -/
def starting (turn : Turn) : State :=
  { tuple true false .start .idle none false .unspecified with sched := [turn] }

theorem test_witness_EveryDecodedWordEncodesBack : decode 0x030100 = .ok (.recv true) := by decide

theorem test_witness_IllegalWordsRaise :
    ((State.reset.at 0x010001).mode = .none ∧ ¬ (State.reset.at 0x010001).EngineMoves ∧
      (State.reset.at 0x010001).cmds = 0x010001 :: [] ∧
      ∀ c : Cmd, (0x010001 : Command) &&& c.maskWord ≠ c.matchWord) ∧
    opOf 0x000000 ∉ [0x01, 0x02, 0x03, 0x04, 0x05, 0x06, 0x07, 0x08, 0x10, 0x11] ∧
    opOf 0x120000 ∉ [0x01, 0x02, 0x03, 0x04, 0x05, 0x06, 0x07, 0x08, 0x10, 0x11] ∧
    (opOf 0x080001 ∈ ([0x01, 0x04, 0x05, 0x06, 0x07, 0x08] : List Byte) ∧ bOf 0x080001 ≠ 0) ∧
    (opOf 0x100001 ∈ ([0x02, 0x10] : List Byte) ∧ bOf 0x100001 ≠ 0) ∧
    (opOf 0x030200 = 0x03 ∧ (aOf 0x030200).extractLsb' 1 7 ≠ 0) :=
  ⟨⟨by decide, by decide, rfl, by intro c; cases c <;> decide⟩, by decide, by decide, by decide,
    by decide, by decide⟩

theorem test_witness_StepPresentsTheCommand :
    decode 0x070000 = .ok .disable ∧
    ((idle.at 0x070000).mode = .none ∧ (idle.at 0x070000).cmds = 0x070000 :: [] ∧
      (idle.at 0x070000).engineEnabled = false) ∧
    (((sending .command).at 0x070000).mode = .none ∧
      ((sending .command).at 0x070000).cmds = 0x070000 :: [] ∧
      ((sending .command).at 0x070000).engineEnabled = true ∧
      ((sending .command).at 0x070000).nextTurn = .command) := by decide

theorem test_witness_FetchedWordRuns : decodeTableWord 24 0x10FF00 = some (.rdreg 0xFF) := by decide

theorem test_witness_EngineStepCompletes :
    (sending .engine).EngineMoves ∧ ¬ (sending .command).EngineMoves ∧ ¬ idle.EngineMoves ∧
    idle.pend = .none ∧
    ((sending .command).en = true ∧ (sending .command).pend ≠ .none ∧
      (sending .command).done = false) := by decide

/-- One state for each clause of the rules of `START`, `SEND`, `RECV`, `STOP`: disabled; pending;
and, enabled and free, each row of the phase table. -/
def phaseRows : List (Phase × Option Dir × Bool) :=
  [(.idle, none, false), (.stopSent, none, false), (.startSent, none, false),
   (.addrSent, some .w, false), (.addrSent, some .r, false), (.dataSent, some .w, false),
   (.dataRcvd, some .r, false), (.dataRcvd, some .r, true)]

/-- The enabled, free state at a row of the phase table. -/
def atRow (row : Phase × Option Dir × Bool) : State :=
  tuple true true .none row.1 row.2.1 row.2.2 (.latched 0x05)

theorem test_witness_StartRule :
    State.reset.en = false ∧ ((sending .command).en = true ∧ (sending .command).pend ≠ .none) ∧
    ((atRow (.startSent, none, false)).en = true ∧ (atRow (.startSent, none, false)).pend = .none ∧
      (atRow (.startSent, none, false)).ph = .startSent) ∧
    (idle.en = true ∧ idle.pend = .none ∧ idle.ph ≠ .startSent) := by decide

theorem test_witness_SendRule :
    State.reset.en = false ∧ ((sending .command).en = true ∧ (sending .command).pend ≠ .none) ∧
    (∀ row ∈ [phaseRows[0], phaseRows[1], phaseRows[4], phaseRows[6], phaseRows[7]],
      (atRow row).en = true ∧ (atRow row).pend = .none ∧
      ¬ ((atRow row).ph = .startSent ∨
        (((atRow row).ph = .addrSent ∨ (atRow row).ph = .dataSent) ∧ (atRow row).dir = some .w))) ∧
    (∀ row ∈ [phaseRows[2], phaseRows[3], phaseRows[5]],
      (atRow row).en = true ∧ (atRow row).pend = .none ∧
      ((atRow row).ph = .startSent ∨
        (((atRow row).ph = .addrSent ∨ (atRow row).ph = .dataSent) ∧ (atRow row).dir = some .w))) := by
  decide

theorem test_witness_RecvRule :
    State.reset.en = false ∧ ((sending .command).en = true ∧ (sending .command).pend ≠ .none) ∧
    (∀ row ∈ [phaseRows[0], phaseRows[1], phaseRows[2], phaseRows[3], phaseRows[5], phaseRows[7]],
      (atRow row).en = true ∧ (atRow row).pend = .none ∧
      ¬ (((atRow row).ph = .addrSent ∧ (atRow row).dir = some .r) ∨
        ((atRow row).ph = .dataRcvd ∧ (atRow row).rxend = false))) ∧
    (∀ row ∈ [phaseRows[4], phaseRows[6]],
      (atRow row).en = true ∧ (atRow row).pend = .none ∧
      (((atRow row).ph = .addrSent ∧ (atRow row).dir = some .r) ∨
        ((atRow row).ph = .dataRcvd ∧ (atRow row).rxend = false))) := by decide

theorem test_witness_StopRule :
    State.reset.en = false ∧ ((sending .command).en = true ∧ (sending .command).pend ≠ .none) ∧
    (∀ row ∈ [phaseRows[0], phaseRows[1], phaseRows[2]],
      (atRow row).en = true ∧ (atRow row).pend = .none ∧
      (atRow row).ph ∉ [.addrSent, .dataSent, .dataRcvd]) ∧
    (∀ row ∈ [phaseRows[3], phaseRows[5], phaseRows[6], phaseRows[7]],
      (atRow row).en = true ∧ (atRow row).pend = .none ∧
      (atRow row).ph ∈ [.addrSent, .dataSent, .dataRcvd]) := by decide

theorem test_witness_PhaseTable :
    (((sending .command).at 0x040000).en = true ∧ ((sending .command).at 0x040000).pend ≠ .none ∧
      ¬ ((sending .command).at 0x040000).EngineMoves ∧
      ∃ t, step ((sending .command).at 0x040000) = .next t) ∧
    (((sending .command).at 0x070000).current = some .disable ∧
      ¬ ((sending .command).at 0x070000).EngineMoves ∧
      ∃ t, step ((sending .command).at 0x070000) = .next t) ∧
    (∀ row ∈ phaseRows, (atRow row).en = true ∧ (atRow row).pend = .none) ∧
    phaseRows.map (fun row => ((atRow row).ph, (atRow row).dir, (atRow row).rxend)) = phaseRows :=
  ⟨⟨by decide, by decide, by decide, exists_next (by decide)⟩,
    ⟨by decide, by decide, exists_next (by decide)⟩, by decide, rfl⟩

theorem test_witness_WaitRule :
    openWrite.done = true ∧ idle.done = false ∧
    (∃ t, step (sending .engine) = .next t ∧ (sending .engine).done = false ∧ t.done = true) ∧
    ((idle.at 0x040000).mode = .none ∧ (idle.at 0x040000).cmds.head? = some (encode .wait) ∧
      (idle.at 0x040000).done = false ∧ (idle.at 0x040000).pend = .none) ∧
    (((sending .command).at 0x040000).mode = .none ∧
      ((sending .command).at 0x040000).cmds.head? = some (encode .wait) ∧
      ((sending .command).at 0x040000).done = false ∧ ((sending .command).at 0x040000).en = true ∧
      ((sending .command).at 0x040000).pend ≠ .none ∧
      ((sending .command).at 0x040000).sched.take 1 = List.replicate 1 .command) :=
  ⟨by decide, by decide, ⟨_, eq_next (t := { openWrite with trace := [.tx 0x2B true] }) (by decide),
    by decide, by decide⟩, by decide, by decide⟩

theorem test_witness_GetdataRule :
    (sending .command).pend ≠ .none ∧
    (readDone.pend = .none ∧ readDone.data = .latched 0xA7) ∧
    (State.reset.pend = .none ∧ State.reset.data = .unspecified) := by decide

theorem test_witness_RxendRule :
    (tuple true false (.recv false) .addrSent (some .r) false .unspecified).pend = .recv false ∧
    (readDone.en = true ∧ readDone.pend = .none ∧ readDone.ph = .dataRcvd ∧ readDone.rxend = true) :=
  by decide

theorem test_witness_DisableRule :
    ((starting .command).pend ≠ .none ∧ (starting .command).ph ∈ [.idle, .stopSent]) ∧
    (openWrite.pend = .none ∧ openWrite.ph ∉ [.idle, .stopSent]) ∧
    (idle.pend = .none ∧ idle.ph ∈ [.idle, .stopSent]) := by decide

theorem test_witness_BusResetEffect :
    ({ idle with cmds := [0x070000, 0x080000] }.mode = .none ∧
      ¬ { idle with cmds := [0x070000, 0x080000] }.EngineMoves ∧
      { idle with cmds := [0x070000, 0x080000] }.cmds = encode .disable :: encode .enable :: []) ∧
    ¬ { sending .command with cmds := [0x070000, 0x080000] }.EngineMoves := by decide

theorem test_witness_TransactionChecks :
    (isTransaction (.rdreg 0x00) = true ∧ isTransaction (.wrreg 0xFF 0x00) = true) ∧
    State.reset.en = false ∧ ((starting .engine).en = true ∧ (starting .engine).pend ≠ .none) ∧
    (∀ row ∈ phaseRows.drop 2, (atRow row).en = true ∧ (atRow row).pend = .none ∧
      (atRow row).ph ∉ [.idle, .stopSent]) ∧
    (∀ row ∈ phaseRows.take 2, (atRow row).en = true ∧ (atRow row).pend = .none ∧
      (atRow row).ph ∈ [.idle, .stopSent]) := by decide

theorem test_witness_TransactionsStart :
    idle.PassesR91 ∧ (atRow (.stopSent, none, false)).PassesR91 := by decide

/-- A state with the sequencer at a step of a mode. -/
def State.running (s : State) (mode : Mode) (stepIx : BitVec 5) : State :=
  { s with mode := mode, stepIx := stepIx }

theorem test_witness_SequencerRunsHostRules :
    ((State.reset.running .rd 0).mode ≠ .none ∧ (State.reset.running .rd 0).microOp = some .start ∧
      fault? (exec .start (State.reset.running .rd 0)) = some (.disabled .start)) ∧
    (((sending .command).running .wr 5).microOp = some .wait ∧
      ((sending .command).running .wr 5).done = false) ∧
    ((readDone.running .rd 12).microOp = some .getdata ∧
      isNext (exec .getdata (readDone.running .rd 12)) = true ∧
      (readDone.running .rd 12).stepIx.toNat + 1 < 17) ∧
    ((State.reset.running .rd 16).microOp = some .enable ∧
      isNext (exec .enable (State.reset.running .rd 16)) = true ∧
      ¬ (State.reset.running .rd 16).stepIx.toNat + 1 < 17) ∧
    ((openWrite.running .wr 9).microOp = some .wait ∧
      isNext (exec .wait (openWrite.running .wr 9)) = true ∧
      ¬ (openWrite.running .wr 9).stepIx.toNat + 1 < 10) := by decide

theorem test_witness_FinishingRetires :
    (idle.running .rd 16).mode = .rd ∧ (idle.running .wr 9).mode = .wr := by decide

theorem test_witness_HostHeldDuringTransaction :
    ((readDone.running .rd 12).mode ≠ .none ∧ ∃ t, step (readDone.running .rd 12) = .next t) ∧
    ((State.reset.running .rd 16).mode ≠ .none ∧ ∃ t, step (State.reset.running .rd 16) = .next t) ∧
    ((openWrite.running .wr 9).mode ≠ .none ∧ ∃ t, step (openWrite.running .wr 9) = .next t) :=
  ⟨⟨by decide, exists_next (by decide)⟩, ⟨by decide, exists_next (by decide)⟩,
    ⟨by decide, exists_next (by decide)⟩⟩

/-- `RDREG 0x00` started in the state `ready 7`: its seven waits have their turns. -/
def readStarted : State := { ready 7 with mode := .rd, ra := 0x00, stepIx := 0 }

/-- `WRREG 0x2B, 0x01` started in the state `ready 5`: its five waits have their turns. -/
def writeStarted : State := { ready 5 with mode := .wr, ra := 0x2B, rv := 0x01, stepIx := 0 }

theorem readStarted_finishes : ∃ t, FinishesAt 24 readStarted t := exists_finishesAt (by decide)
theorem writeStarted_finishes : ∃ t, FinishesAt 15 writeStarted t := exists_finishesAt (by decide)

theorem test_witness_NoFaultInsideTransaction :
    (isTransaction (.rdreg 0x00) = true ∧ (ready 7).Inv ∧
      exec (.rdreg 0x00) (ready 7) = .next readStarted ∧
      ∀ m u, m < 24 → steps m readStarted = .next u → u.mode ≠ .none) ∧
    (isTransaction (.wrreg 0x2B 0x01) = true ∧ (ready 5).Inv ∧
      exec (.wrreg 0x2B 0x01) (ready 5) = .next writeStarted ∧
      ∀ m u, m < 15 → steps m writeStarted = .next u → u.mode ≠ .none) :=
  ⟨⟨by decide, by decide, eq_next (by decide), readStarted_finishes.choose_spec.2.2⟩,
    ⟨by decide, by decide, eq_next (by decide), writeStarted_finishes.choose_spec.2.2⟩⟩

theorem test_witness_ReadEndState :
    (ready 7).PassesR91 ∧ exec (.rdreg 0x00) (ready 7) = .next readStarted ∧
    ∃ t, FinishesAt 24 readStarted t :=
  ⟨by decide, eq_next (by decide), readStarted_finishes⟩

theorem test_witness_WriteEndState :
    (ready 5).PassesR91 ∧ exec (.wrreg 0x2B 0x01) (ready 5) = .next writeStarted ∧
    ∃ t, FinishesAt 15 writeStarted t :=
  ⟨by decide, eq_next (by decide), writeStarted_finishes⟩

theorem test_witness_TransactionsEqualPrimitives :
    ((ready 7).mode = .none ∧ exec (.rdreg 0x00) (ready 7) = .next readStarted) ∧
    ((ready 5).mode = .none ∧ exec (.wrreg 0x2B 0x01) (ready 5) = .next writeStarted) ∧
    (isTransaction (.rdreg 0x00) = true ∧ openWrite.en = true ∧ openWrite.pend = .none ∧
      openWrite.ph ∈ [.addrSent, .dataSent, .dataRcvd]) :=
  ⟨⟨by decide, eq_next (by decide)⟩, ⟨by decide, eq_next (by decide)⟩, by decide⟩

/-- The reference device on a ready transport (T9, T10), with turns for a write and then a read. -/
def refReady : State := { ready 12 with dev := .reference refdev }

/-- `refReady` with `WRREG 0x2B, 0x01 ; RDREG 0x2B` (P2). -/
def refProgram : State := { refReady with cmds := [0x112B01, 0x102B00] }

theorem test_witness_ReferenceDeviceReadsBack :
    (refReady.PassesR91 ∧ refReady.dev = .reference refdev ∧ Memory.wf refdev.reg = true) ∧
    (∃ s1 t, exec (.wrreg 0x2B 0x01) refReady = .next s1 ∧ FinishesAt 15 s1 t) ∧
    (∃ s1 t, exec (.rdreg 0x2B) refReady = .next s1 ∧ FinishesAt 24 s1 t) ∧
    (refProgram.PassesR91 ∧ refProgram.mode = .none ∧
      refProgram.cmds = [encode (.wrreg 0x2B 0x01), encode (.rdreg 0x2B)] ∧
      ∃ t, steps 41 refProgram = .next t ∧ t.Ended) := by
  refine ⟨by decide, ⟨{ refReady with mode := .wr, ra := 0x2B, rv := 0x01 }, ?_⟩,
    ⟨{ refReady with mode := .rd, ra := 0x2B }, ?_⟩, by decide, by decide, by decide, ?_⟩
  · obtain ⟨t, ht⟩ := exists_finishesAt (n := 15)
      (s := { refReady with mode := .wr, ra := 0x2B, rv := 0x01 }) (by decide)
    exact ⟨t, eq_next (by decide), ht⟩
  · obtain ⟨t, ht⟩ := exists_finishesAt (n := 24)
      (s := { refReady with mode := .rd, ra := 0x2B }) (by decide)
    exact ⟨t, eq_next (by decide), ht⟩
  · have h : ((next? (steps 41 refProgram)).any fun t => t.cmds.isEmpty && t.mode == .none) = true := by
      decide
    obtain ⟨t, ht, hp⟩ := (Option.any_eq_true _ _).1 h
    exact ⟨t, eq_next ht, by simpa using hp⟩

theorem test_witness_TransactionsReturnWhenEngineReady :
    (exec (.rdreg 0x00) (ready 7) = .next readStarted ∧ 7 ≤ (ready 7).sched.count .engine) ∧
    (exec (.wrreg 0x2B 0x01) (ready 5) = .next writeStarted ∧ 5 ≤ (ready 5).sched.count .engine) :=
  ⟨⟨eq_next (by decide), by decide⟩, ⟨eq_next (by decide), by decide⟩⟩

theorem test_witness_BusResetClearsReadHazard :
    (∃ t, exec .disable readDone = .next t) ∧
    exec (.rdreg 0x00) (ready 7) = .next readStarted ∧ ∃ t, FinishesAt 24 readStarted t :=
  ⟨exists_next (by decide), eq_next (by decide), readStarted_finishes⟩

/-- The hazard of R133 is there after a read by primitives, so that its absence says something. -/
theorem test_readNotReset :
    State.readNotReset { tuple true true .none .stopSent none false (.latched 0x05) with
                         trace := [.start, .tx 0xB5 true, .rx 0x05 false, .stop] } = true ∧
    State.readNotReset { tuple true true .none .stopSent none false .unspecified with
                         trace := [.start, .tx 0xB4 true, .stop] } = false := by decide

theorem test_witness_CompletionOfStart :
    ((starting .engine).pend = .start ∧ (starting .engine).ph ∈ [.idle, .stopSent]) ∧
    ((tuple true false .start .dataSent (some .w) false .unspecified).pend = .start ∧
      (tuple true false .start .dataSent (some .w) false .unspecified).ph ∉ [.idle, .stopSent]) := by
  decide

theorem test_witness_CompletionOfSend :
    ((tuple true false (.send 0xB5) .startSent none false .unspecified).pend = .send 0xB5 ∧
      (tuple true false (.send 0xB5) .startSent none false .unspecified).ph = .startSent) ∧
    ((sending .engine).pend = .send 0x2B ∧ (sending .engine).ph ≠ .startSent) := by decide

theorem test_witness_CompletionOfRecv :
    (tuple true false (.recv true) .addrSent (some .r) false .unspecified).pend = .recv true := by
  decide

theorem test_witness_CompletionOfStop :
    (tuple true false .stop .dataSent (some .w) false .unspecified).pend = .stop := by decide

theorem test_witness_FaultsExactlyWhen :
    Instr.wait.cmd ∈ [Cmd.wait, .disable, .enable] ∧
    fault? (exec (.rdreg 0x00) State.reset) = some (.disabled .rdreg) ∧
    fault? (exec .getdata { sending .engine with en := false }) = some (.busy .getdata (.send 0x2B)) ∧
    fault? (exec .stop idle) = some (.phaseViolation .stop .idle none false) ∧
    fault? (exec (.wrreg 0x2B 0x01) openWrite) = some (.transactionOpen .wrreg .dataSent) := by decide

theorem test_witness_OrderOfChecks :
    ((State.reset.at 0x010001).mode = .none ∧ ¬ (State.reset.at 0x010001).EngineMoves ∧
      (State.reset.at 0x010001).cmds = 0x010001 :: [] ∧
      decode 0x010001 = .error (.nonZeroField .start)) ∧
    (isLaunch .stop = true ∧ isTransaction (.rdreg 0x00) = true ∧ State.reset.en = false) ∧
    ((starting .command).en = true ∧ (starting .command).pend ≠ .none ∧
      (starting .command).ph = .idle) ∧
    (idle.en = true ∧ idle.pend = .none) := by decide

/-- A write left open by the host after its pointer byte, with the trace that led there. -/
def openWithTrace : State := { openWrite with trace := [.start, .tx 0xB4 true, .tx 0x2B true] }

theorem test_witness_StepKeepsInv :
    ((starting .engine).Inv ∧ ∃ t, step (starting .engine) = .next t) ∧
    ((openWithTrace.at 0x060000).Inv ∧ ∃ t, step (openWithTrace.at 0x060000) = .next t) ∧
    ((openWithTrace.at 0x070000).Inv ∧ ∃ t, step (openWithTrace.at 0x070000) = .next t) :=
  ⟨⟨by decide, exists_next (by decide)⟩, ⟨by decide, exists_next (by decide)⟩,
    ⟨by decide, exists_next (by decide)⟩⟩

/-- The invariant rules states out. -/
theorem test_inv_excludes : ¬ openWrite.Inv ∧ ¬ (sending .engine).Inv :=
  ⟨fun h => absurd h.2.2.2.2.2.2 (by decide), fun h => absurd h.2.2.2.2.2.2 (by decide)⟩

theorem test_witness_ReachableStatesMeetR24 :
    ∃ t, steps 3 (State.begin false [0x080000, 0x010000, 0x040000] [.engine] 0 (.oracle [] [])) =
      .next t :=
  exists_next (by decide)

theorem test_witness_ReachableTracesGrammatical :
    ∃ t, steps 3 (State.begin false [0x080000, 0x010000, 0x040000] [.engine] 0 (.oracle [] [])) =
      .next t ∧ t.trace = [.start] :=
  ⟨_, eq_next (t := { tuple true true .none .startSent none false .unspecified with
                      trace := [.start], cmds := [0x040000] }) (by decide), rfl⟩

/-- The grammar refuses a stop directly after a start, and a second start without a stop (R75). -/
theorem test_grammar_refuses :
    BusPoint.closed.after [.start, .stop] = none ∧
    BusPoint.closed.after [.start, .tx 0xB4 true, .start] = none ∧
    BusPoint.closed.after [.start, .tx 0xB5 true, .rx 0x05 false, .rx 0x06 true] = none ∧
    BusPoint.closed.after [.release, .start, .tx 0xB4 true, .stop] = some .closed := by decide

/-- A well-sequenced list, and P4, which is none. -/
theorem test_witness_WellSequencedNeverBusy :
    wellSequenced false [.enable, .start, .wait, .send 0xB4, .wait, .stop, .wait] = true ∧
    wellSequenced false [.enable, .start, .send 0xB4] = false := by decide

theorem test_witness_WaitsHold :
    (State.reset.at 0x040000).WaitNoOperation ∧
    ((sending .command).at 0x040000).EngineNotReadyFor 1 ∧
    ((starting .command).running .rd 1).EngineNotReadyFor 1 := by decide

theorem test_witness_EndedRunStays : idle.Ended ∧ idle.pend = .none := by decide

theorem test_witness_DoneChangesOnly :
    ((∃ t, step (sending .engine) = .next t) ∧ (sending .engine).EngineMoves) ∧
    ((∃ t, step (openWrite.at 0x060000) = .next t) ∧ ¬ (openWrite.at 0x060000).EngineMoves ∧
      (openWrite.at 0x060000).current = some .stop) ∧
    ((∃ t, step (openWrite.at 0x050000) = .next t) ∧ ¬ (openWrite.at 0x050000).EngineMoves ∧
      (openWrite.at 0x050000).current = some .getdata) ∧
    ((∃ t, step openWrite = .next t) ∧ ¬ openWrite.EngineMoves ∧ openWrite.current = none) :=
  ⟨⟨exists_next (by decide), by decide⟩, ⟨exists_next (by decide), by decide, by decide⟩,
    ⟨exists_next (by decide), by decide, by decide⟩, ⟨exists_next (by decide), by decide, by decide⟩⟩

theorem test_witness_PhaseChangesOnly :
    ((∃ t, step (openWrite.at 0x070000) = .next t) ∧ ¬ (openWrite.at 0x070000).EngineMoves ∧
      (openWrite.at 0x070000).current = some .disable) ∧
    ((∃ t, step (openWrite.at 0x010000) = .next t) ∧ ¬ (openWrite.at 0x010000).EngineMoves ∧
      (openWrite.at 0x010000).current ≠ some .disable) :=
  ⟨⟨exists_next (by decide), by decide, by decide⟩, ⟨exists_next (by decide), by decide, by decide⟩⟩

theorem test_witness_TransportChangesOnly :
    ((∃ t, step (sending .engine) = .next t) ∧ (sending .engine).EngineMoves) ∧
    ((∃ t, step ((sending .command).at 0x070000) = .next t) ∧
      ¬ ((sending .command).at 0x070000).EngineMoves ∧
      ((sending .command).at 0x070000).current = some .disable) ∧
    ((∃ t, step (State.reset.at 0x080000) = .next t) ∧ ¬ (State.reset.at 0x080000).EngineMoves ∧
      (State.reset.at 0x080000).current = some .enable) ∧
    ((∃ t, step ((sending .command).at 0x040000) = .next t) ∧
      ¬ ((sending .command).at 0x040000).EngineMoves ∧
      ((sending .command).at 0x040000).current = some .wait) :=
  ⟨⟨exists_next (by decide), by decide⟩, ⟨exists_next (by decide), by decide, by decide⟩,
    ⟨exists_next (by decide), by decide, by decide⟩, ⟨exists_next (by decide), by decide, by decide⟩⟩

/-- A reception pending, with the engine's turn (E10). -/
def receiving : State :=
  { tuple true false (.recv true) .addrSent (some .r) false .unspecified with
    sched := [.engine], dev := .oracle [] [0x05] }

theorem test_witness_DataChangesOnly :
    ((∃ t, step receiving = .next t) ∧ receiving.EngineMoves ∧ receiving.pend = .recv true) ∧
    ((∃ t, step (sending .engine) = .next t) ∧ (sending .engine).EngineMoves ∧
      ∀ k, (sending .engine).pend ≠ .recv k) ∧
    ((∃ t, step (readDone.at 0x070000) = .next t) ∧ ¬ (readDone.at 0x070000).EngineMoves ∧
      (readDone.at 0x070000).current = some .disable) ∧
    ((∃ t, step (readDone.at 0x050000) = .next t) ∧ ¬ (readDone.at 0x050000).EngineMoves ∧
      (readDone.at 0x050000).current ≠ some .disable) :=
  ⟨⟨exists_next (by decide), by decide, by decide⟩,
    ⟨exists_next (by decide), by decide, by decide⟩,
    ⟨exists_next (by decide), by decide, by decide⟩, ⟨exists_next (by decide), by decide, by decide⟩⟩

theorem test_witness_SequencerStateChangesOnly :
    ((∃ t, step (sending .engine) = .next t) ∧ (sending .engine).EngineMoves) ∧
    ((∃ t, step (openWrite.running .wr 8) = .next t) ∧ (openWrite.running .wr 8).mode ≠ .none ∧
      (openWrite.running .wr 8).current ≠ some .getdata) ∧
    ((∃ t, step (idle.at 0x102B00) = .next t) ∧ (idle.at 0x102B00).mode = .none ∧
      ¬ (idle.at 0x102B00).EngineMoves ∧ (idle.at 0x102B00).current = some (.rdreg 0x2B)) ∧
    ((∃ t, step (idle.at 0x112B01) = .next t) ∧ (idle.at 0x112B01).mode = .none ∧
      ¬ (idle.at 0x112B01).EngineMoves ∧ (idle.at 0x112B01).current = some (.wrreg 0x2B 0x01)) ∧
    ((∃ t, step (idle.at 0x010000) = .next t) ∧ (idle.at 0x010000).mode = .none ∧
      ¬ (idle.at 0x010000).EngineMoves ∧ (idle.at 0x010000).current = some .start) :=
  ⟨⟨exists_next (by decide), by decide⟩, ⟨exists_next (by decide), by decide, by decide⟩,
    ⟨exists_next (by decide), by decide, by decide, by decide⟩,
    ⟨exists_next (by decide), by decide, by decide, by decide⟩,
    ⟨exists_next (by decide), by decide, by decide, by decide⟩⟩

theorem test_witness_TraceOnlyGrows :
    ((∃ t, step (sending .engine) = .next t) ∧ (sending .engine).EngineMoves) ∧
    ((∃ t, step (openWrite.at 0x070000) = .next t) ∧ ¬ (openWrite.at 0x070000).EngineMoves) :=
  ⟨⟨exists_next (by decide), by decide⟩, ⟨exists_next (by decide), by decide⟩⟩

theorem test_witness_ReturnedBytes :
    (∃ t, step (readDone.at 0x050000) = .next t) ∧ (readDone.at 0x050000).data = .latched 0xA7 ∧
    (∃ t, step (State.reset.running .rd 16) = .next t) :=
  ⟨exists_next (by decide), by decide, exists_next (by decide)⟩

/-- The reference device about to take a value byte (T10), with the engine's turn. -/
def refWriting : State :=
  { sending .engine with dev := .reference { refdev with ptr := 0x2B, sel := .wr1 } }

theorem test_witness_RegisterSpaceStaysCanonical :
    refWriting.dev.wf = true ∧ ∃ t, step refWriting = .next t :=
  ⟨by decide, exists_next (by decide)⟩

theorem test_witness_ReferenceDeviceRule :
    ([WireEvent.start].getLast? = some .start ∧ (0xB5 : Byte).extractLsb' 1 7 = Config.devAddr7) ∧
    ([WireEvent.repStart].getLast? = some .repStart ∧
      (0x01 : Byte).extractLsb' 1 7 ≠ Config.devAddr7) ∧
    ([WireEvent.start, .tx 0xB4 true].getLast? ≠ some .start ∧
      [WireEvent.start, .tx 0xB4 true].getLast? ≠ some .repStart) ∧
    (({ refdev with sel := .wr0 } : RefDev).sel = .wr0 ∧
      ({ refdev with sel := .wr1 } : RefDev).sel = .wr1 ∧ refdev.sel = .no ∧
      ({ refdev with sel := .rd } : RefDev).sel = .rd) := by decide

theorem test_witness_ReferenceDeviceReadOffTrace :
    ∃ t, steps 3 (State.begin false [0x080000, 0x010000, 0x040000] [.engine] 0 (.reference refdev)) =
      .next t :=
  exists_next (by decide)

end Sys2Proof.Machine
end

section
/-! The address byte (spec R4): what each of its bits holds, and that `addressOf` and `directionOf`
read its two parts back. Bits are written `b[i]`, the form `simp` brings `b.getLsbD i` to. -/

namespace Sys2Proof.Machine

@[simp] theorem Dir.bit_getElem_zero (d : Dir) : d.bit[0] = decide (d = .r) := by
  cases d <;> rfl

/-- The direction is held in bit 0 alone, so it leaves the address's bits as they are. -/
@[simp] theorem Dir.bit_getElem_one_add (d : Dir) (i : Nat) (hi : 1 + i < 8) :
    d.bit[1 + i] = false := by
  cases d with
  | w => simp [Dir.bit]
  | r => simp [Dir.bit]

@[simp] theorem addressByte_getElem_zero (a : BitVec 7) (d : Dir) :
    (addressByte a d)[0] = decide (d = .r) := by
  simp [addressByte]

@[simp] theorem addressByte_getElem_one_add (a : BitVec 7) (d : Dir) (i : Nat) (hi : 1 + i < 8) :
    (addressByte a d)[1 + i] = a.getLsbD i := by
  simp [addressByte]

@[simp] theorem addressOf_addressByte (a : BitVec 7) (d : Dir) :
    addressOf (addressByte a d) = a := by
  ext i hi
  have hbyte : 1 + i < 8 := by omega
  simp [addressOf, hbyte, hi]

@[simp] theorem directionOf_addressByte (a : BitVec 7) (d : Dir) :
    directionOf (addressByte a d) = d := by
  cases d <;> simp [directionOf]

/-- Settles O55: the two constants are computed at the block's own device address; for every address
byte the parts are the read-back lemmas above. -/
theorem addressBytes : Obligations.AddressBytes := by
  unfold Obligations.AddressBytes
  refine ⟨by decide, by decide, by decide, fun a d => ?_⟩
  exact ⟨addressOf_addressByte a d, addressByte_getElem_zero a d,
    addressOf_addressByte a d, directionOf_addressByte a d⟩

end Sys2Proof.Machine
end

section
/-! What a command does, said once for the host and for the sequencer (spec R60, R94): `ruleOf` is
the rule both share, `State.executed` the state it ends in, and `State.Executes` what of it stays in
the transport after the command has retired or held. `step_executes` is the inversion lemma from
which a proof about every step of the command side starts. -/

namespace Sys2Proof.Machine

/-! ### The transport's part of a state -/

/-- The fields of R10 that the bus side is made of, with the trace and the device. The sequencer's
registers, the host's side, the turns and the draws are left out. -/
structure Transport where
  en : Bool
  done : Bool
  pend : Pend
  ph : Phase
  dir : Option Dir
  rxend : Bool
  data : Latch
  trace : List WireEvent
  dev : Device

/-- That part of a state. -/
def State.transport (s : State) : Transport :=
  { en := s.en, done := s.done, pend := s.pend, ph := s.ph, dir := s.dir, rxend := s.rxend,
    data := s.data, trace := s.trace, dev := s.dev }

theorem State.transport_eq_iff {s t : State} :
    t.transport = s.transport ↔
      t.en = s.en ∧ t.done = s.done ∧ t.pend = s.pend ∧ t.ph = s.ph ∧ t.dir = s.dir ∧
      t.rxend = s.rxend ∧ t.data = s.data ∧ t.trace = s.trace ∧ t.dev = s.dev := by
  simp [State.transport]

@[simp] theorem State.turnTaken_transport (s : State) : s.turnTaken.transport = s.transport := by
  simp [State.transport_eq_iff]

@[simp] theorem State.readData_transport (s : State) : s.readData.2.transport = s.transport := by
  simp [State.transport_eq_iff]

@[simp] theorem State.retire_transport (s : State) : s.retire.transport = s.transport := rfl

@[simp] theorem State.retireWith_transport (s : State) (b : Byte) :
    (s.retireWith b).transport = s.transport := rfl

@[simp] theorem State.advance_transport (s : State) : s.advance.transport = s.transport := by
  unfold State.advance
  split
  · rfl
  · unfold State.finish
    split <;> rfl

/-! ### The state a command's rule ends in -/

/-- The rule of a command that the host and the sequencer share (R94). -/
def ruleOf : Instr → State → Option Act
  | .start, s => some (startRule s)
  | .send b, s => some (sendRule b s)
  | .recv k, s => some (recvRule k s)
  | .stop, s => some (stopRule s)
  | .wait, s => some (waitRule s)
  | .getdata, s => some (getdataRule s)
  | .disable, s => some (disableRule s)
  | .enable, s => some (enableRule s)
  | .rdreg _, _ => none
  | .wrreg _ _, _ => none

/-- The host's execution of such a command is its rule. -/
theorem exec_of_ruleOf {i : Instr} {s : State} {a : Act} (h : ruleOf i s = some a) :
    exec i s = hostResult s a := by
  cases i with
  | rdreg | wrreg => cases h
  | start | send | recv | stop | wait | getdata | disable | enable => cases h; rfl

/-- So is the sequencer's, under the host command a micro-operation stands for. -/
theorem ruleOf_command (m : MicroOp) (s : State) : ruleOf (m.command s) s = some (m.rule s) := by
  cases m <;> rfl

/-- The state a command leaves when its checks pass, before it retires (R63 to R68, R80, R81); for a
transaction, the state its presentation leaves (R92, R93). -/
def State.executed (s : State) : Instr → State
  | .start => s.launched .start
  | .send b => s.launched (.send b)
  | .recv k => s.launched (.recv k)
  | .stop => s.launched .stop
  | .wait => s
  | .getdata => s.readData.2
  | .disable => if s.wiresHeld then (s.emit .release).switchedOff else s.switchedOff
  | .enable => { s with en := true }
  | .rdreg a => { s with mode := .rd, ra := a, stepIx := 0 }
  | .wrreg a v => { s with mode := .wr, ra := a, rv := v, stepIx := 0 }

/-- The operation a launch makes pending (R61); none for any other command. -/
def operationOf : Instr → Pend
  | .start => .start
  | .send b => .send b
  | .recv k => .recv k
  | .stop => .stop
  | .wait | .getdata | .disable | .enable | .rdreg _ | .wrreg _ _ => .none

/-- The checks of a launch of `p` pass (R61, R62). -/
structure State.MayLaunch (s : State) (p : Pend) : Prop where
  en : s.en = true
  free : s.pend = .none
  legal : p.legal s.ph s.dir s.rxend = true

theorem State.executed_of_isLaunch {i : Instr} (h : isLaunch i = true) (s : State) :
    s.executed i = s.launched (operationOf i) := by
  cases i with
  | start | send | recv | stop => rfl
  | wait | getdata | disable | enable | rdreg | wrreg => cases h

/-- A launch that ends in a state has passed its checks. -/
theorem launch_state_checks {c : Cmd} {legal : Bool} {p : Pend} {s t : State}
    (h : (launch c legal p s).state? = some t) :
    s.en = true ∧ s.pend = .none ∧ legal = true ∧ t = s.launched p := by
  have ht := launch_state h
  rcases launch_cases (c := c) (legal := legal) (p := p) (s := s) with hl | hl | hl | hl
  · obtain ⟨he, hp, hlegal, -⟩ := launch_eq_retire.1 hl
    exact ⟨he, hp, hlegal, ht⟩
  all_goals rw [hl] at h; cases h

/-- Everything a shared rule can end in: the command's state, a launch only where its checks pass. -/
theorem ruleOf_state {i : Instr} {s t : State} {a : Act} (h : ruleOf i s = some a)
    (ht : a.state? = some t) :
    t = s.executed i ∧ (isLaunch i = true → s.MayLaunch (operationOf i)) := by
  cases i with
  | start | send | recv | stop =>
    cases h
    obtain ⟨he, hp, hl, ht⟩ := launch_state_checks ht
    exact ⟨ht, fun _ => ⟨he, hp, hl⟩⟩
  | wait =>
    cases h
    refine ⟨?_, nofun⟩
    unfold waitRule at ht
    split at ht <;> cases ht
    rfl
  | getdata =>
    cases h
    refine ⟨?_, nofun⟩
    rcases getdataRule_cases s with ⟨-, hr⟩ | ⟨-, hr⟩ <;> rw [hr] at ht <;> cases ht
    rfl
  | disable | enable => cases h; cases ht; exact ⟨rfl, nofun⟩
  | rdreg | wrreg => cases h

/-- Only `WAIT` holds. -/
theorem eq_wait_of_ruleOf_hold {i : Instr} {s : State} (h : ruleOf i s = some .hold) :
    i = .wait := by
  have launch_ne_hold (c : Cmd) (legal : Bool) (p : Pend) : launch c legal p s ≠ .hold := by
    rcases launch_cases (c := c) (legal := legal) (p := p) (s := s) with hl | hl | hl | hl <;>
      simp [hl]
  cases i with
  | wait => rfl
  | start | send | recv | stop => exact absurd (Option.some.inj h) (launch_ne_hold _ _ _)
  | getdata =>
    rcases getdataRule_cases s with ⟨-, hr⟩ | ⟨-, hr⟩ <;> rw [ruleOf, hr] at h <;> cases h
  | disable | enable | rdreg | wrreg => cases h

/-! ### What a command leaves unchanged -/

/-- A launch, `DISABLE` and `ENABLE` are the commands that touch the transport. -/
theorem State.executed_transport_of_quiet {i : Instr} (hl : isLaunch i = false)
    (hd : i ≠ .disable) (he : i ≠ .enable) (s : State) :
    (s.executed i).transport = s.transport := by
  cases i with
  | start | send | recv | stop => cases hl
  | wait | rdreg | wrreg => rfl
  | getdata => exact s.readData_transport
  | disable => exact absurd rfl hd
  | enable => exact absurd rfl he

/-- What a command does to the transport depends on the transport alone. -/
theorem State.executed_transport_congr {s t : State} (h : t.transport = s.transport) (i : Instr) :
    (t.executed i).transport = (s.executed i).transport := by
  obtain ⟨hen, hdone, hpend, hph, hdir, hrxend, hdata, htrace, hdev⟩ := State.transport_eq_iff.1 h
  rw [State.transport_eq_iff]
  cases i with
  | disable =>
    have hw : t.wiresHeld = s.wiresHeld := by simp [State.wiresHeld, hpend, hph]
    cases hs : s.wiresHeld <;> simp [State.executed, hw, hs, htrace, hdev]
  | start | send | recv | stop | wait | getdata | enable | rdreg | wrreg => simp [State.executed, *]

theorem State.executed_stepIx {i : Instr} (h : isTransaction i = false) (s : State) :
    (s.executed i).stepIx = s.stepIx := by
  cases i with
  | disable => simp only [State.executed]; split <;> rfl
  | getdata => exact s.readData_stepIx
  | start | send | recv | stop | wait | enable => rfl
  | rdreg | wrreg => cases h

/-! ### Retiring, by the host or by the sequencer -/

/-- A rule the host executes ends in a state that retires, or holds. -/
theorem hostResult_state {s t : State} {a : Act} (h : hostResult s a = .next t) :
    (∃ u, a.state? = some u ∧ t.transport = u.transport ∧ t.stepIx = u.stepIx) ∨
    (a = .hold ∧ t = s) := by
  rcases hostResult_eq_next.1 h with ⟨u, rfl, rfl⟩ | ⟨b, u, rfl, rfl⟩ | hold
  · exact .inl ⟨u, rfl, rfl, rfl⟩
  · exact .inl ⟨u, rfl, rfl, rfl⟩
  · exact .inr hold

/-- A rule the sequencer executes ends in a state that advances, `RES` apart, or holds. -/
theorem sequencerResult_state {s t : State} {a : Act} (h : sequencerResult s a = .next t) :
    (∃ u b, a.state? = some u ∧ t = State.advance { u with res := b }) ∨ (a = .hold ∧ t = s) := by
  rcases sequencerResult_eq_next.1 h with ⟨u, rfl, rfl⟩ | ⟨b, u, rfl, rfl⟩ | hold
  · exact .inl ⟨u, u.res, rfl, rfl⟩
  · exact .inl ⟨u, b, rfl, rfl⟩
  · exact .inr hold

/-- From `s` to `t` the transport has changed as `i` changes it, a launch having passed its checks. -/
structure State.Executes (s : State) (i : Instr) (t : State) : Prop where
  transport : t.transport = (s.executed i).transport
  checks : isLaunch i = true → s.MayLaunch (operationOf i)

theorem exec_executes {i : Instr} {s t : State} (h : exec i s = .next t) : s.Executes i t := by
  cases hr : ruleOf i s with
  | some a =>
    rw [exec_of_ruleOf hr] at h
    rcases hostResult_state h with ⟨u, hu, htr, -⟩ | ⟨rfl, rfl⟩
    · obtain ⟨rfl, hchecks⟩ := ruleOf_state hr hu
      exact ⟨htr, hchecks⟩
    · cases eq_wait_of_ruleOf_hold hr
      exact ⟨rfl, nofun⟩
  | none =>
    cases i with
    | rdreg | wrreg =>
      obtain ⟨-, -, -, rfl⟩ := present_eq_next.1 h
      exact ⟨rfl, nofun⟩
    | start | send | recv | stop | wait | getdata | disable | enable => cases hr

theorem sequencerResult_executes {m : MicroOp} {s t : State}
    (h : sequencerResult s (m.rule s) = .next t) : s.Executes (m.command s) t := by
  have hr := ruleOf_command m s
  rcases sequencerResult_state h with ⟨u, b, hu, rfl⟩ | ⟨hold, rfl⟩
  · obtain ⟨rfl, hchecks⟩ := ruleOf_state hr hu
    exact ⟨State.advance_transport _, hchecks⟩
  · rw [hold] at hr
    rw [eq_wait_of_ruleOf_hold hr]
    exact ⟨rfl, nofun⟩

/-! ### The command side's step -/

/-- The host's step does nothing without a word, and otherwise executes the word at the port. -/
theorem hostStep_cases {s t : State} (h : hostStep s = .next t) :
    (s.cmds = [] ∧ t = s) ∨
    ∃ w rest i, s.cmds = w :: rest ∧ decode w = .ok i ∧ exec i s = .next t := by
  unfold hostStep at h
  split at h
  · next hc => cases h; exact .inl ⟨hc, rfl⟩
  · next w rest hc =>
    split at h
    · cases h
    · next i hd => exact .inr ⟨w, rest, i, hc, hd, h⟩

/-- The sequencer's step executes the micro-operation at `STEP`, if there is one. -/
theorem sequencerStep_cases {s t : State} (h : sequencerStep s = .next t) :
    (s.microOp = none ∧ t = s) ∨
    ∃ m : MicroOp, s.microOp = some m ∧ sequencerResult s (m.rule s) = .next t := by
  unfold sequencerStep at h
  split at h
  · next m hm => exact .inr ⟨m, hm, h⟩
  · next hm => cases h; exact .inl ⟨hm, rfl⟩

theorem commandStep_of_running {s : State} (h : s.mode ≠ .none) :
    commandStep s = sequencerStep s ∧ s.current = s.microOp.map fun m => m.command s := by
  cases hm : s.mode with
  | none => exact absurd hm h
  | rd | wr => simp [commandStep, State.current, hm]

theorem commandStep_of_host {s : State} (h : s.mode = .none) :
    commandStep s = hostStep s ∧
    s.current = s.cmds.head?.bind fun w => (decode w).toOption := by
  simp [commandStep, State.current, h]

/-- Every step of the command side: nothing to execute, the host's command, or the sequencer's
micro-operation. -/
theorem commandStep_cases {s t : State} (h : commandStep s = .next t) :
    (s.current = none ∧ t = s) ∨
    (∃ i, s.mode = .none ∧ s.current = some i ∧ exec i s = .next t) ∨
    (∃ m : MicroOp, s.current = some (m.command s) ∧
      sequencerResult s (m.rule s) = .next t) := by
  by_cases hmode : s.mode = .none
  · obtain ⟨hstep, hcur⟩ := commandStep_of_host hmode
    rcases hostStep_cases (hstep ▸ h) with ⟨hc, rfl⟩ | ⟨w, rest, i, hc, hd, hi⟩
    · exact .inl ⟨by simp [hcur, hc], rfl⟩
    · exact .inr (.inl ⟨i, hmode, by simp [hcur, hc, hd, Except.toOption], hi⟩)
  · obtain ⟨hstep, hcur⟩ := commandStep_of_running hmode
    rcases sequencerStep_cases (hstep ▸ h) with ⟨hm, rfl⟩ | ⟨m, hm, hr⟩
    · exact .inl ⟨by simp [hcur, hm], rfl⟩
    · exact .inr (.inr ⟨m, by simp [hcur, hm], hr⟩)

theorem commandStep_executes {s t : State} (h : commandStep s = .next t) :
    (s.current = none ∧ t.transport = s.transport) ∨
    ∃ i, s.current = some i ∧ s.Executes i t := by
  rcases commandStep_cases h with ⟨hc, rfl⟩ | ⟨i, -, hc, hi⟩ | ⟨m, hc, hm⟩
  · exact .inl ⟨hc, rfl⟩
  · exact .inr ⟨i, hc, exec_executes hi⟩
  · exact .inr ⟨m.command s, hc, sequencerResult_executes hm⟩

@[simp] theorem State.turnTaken_current (s : State) : s.turnTaken.current = s.current := by
  unfold State.turnTaken
  split <;> rfl

/-- Taking the turn off does not matter to what a command does. -/
theorem State.Executes.of_turnTaken {s t : State} {i : Instr} (h : s.turnTaken.Executes i t) :
    s.Executes i t where
  transport := h.transport.trans (State.executed_transport_congr s.turnTaken_transport i)
  checks hl := by
    obtain ⟨hen, hfree, hlegal⟩ := h.checks hl
    exact ⟨by simpa using hen, by simpa using hfree, by simpa using hlegal⟩

/-- Every step that is not the engine's executes the current command, if there is one. -/
theorem step_executes {s t : State} (h : step s = .next t) (he : ¬ s.EngineMoves) :
    (s.current = none ∧ t.transport = s.transport) ∨
    ∃ i, s.current = some i ∧ s.Executes i t := by
  rcases step_of_command he with ⟨-, hs⟩ | ⟨-, hs⟩
  · exact commandStep_executes (hs ▸ h)
  · have hc := commandStep_executes (hs ▸ h)
    simp only [State.turnTaken_current, State.turnTaken_transport] at hc
    exact hc.imp_right fun ⟨i, hi, hx⟩ => ⟨i, hi, hx.of_turnTaken⟩

/-- The engine's step, when it moves. -/
theorem step_of_engineMoves {s : State} (h : s.EngineMoves) :
    step s = .next (engineStep s.turnTaken) := by
  obtain ⟨hen, hturn⟩ := h
  simp [step, hen, hturn]

theorem State.EngineMoves.pend_ne_none {s : State} (h : s.EngineMoves) : s.pend ≠ .none := by
  have hen := h.1
  simp only [State.engineEnabled, Bool.and_eq_true, bne_iff_ne] at hen
  exact hen.2

end Sys2Proof.Machine
end

section
/-! `DONE` (spec R12): set by a completion, cleared by a launch and by `DISABLE`. -/

namespace Sys2Proof.Machine

theorem engineStep_done {s : State} (h : s.pend ≠ .none) : (engineStep s).done = true := by
  unfold engineStep
  split
  · next hp => exact absurd hp h
  · rfl
  · unfold completeSend
    dsimp only
    split <;> rfl
  · rfl
  · rfl

theorem State.executed_done_of_clears {i : Instr} (h : isLaunch i = true ∨ i = .disable)
    (s : State) : (s.executed i).done = false := by
  rcases h with hl | rfl
  · rw [State.executed_of_isLaunch hl, State.launched_done]
  · simp only [State.executed]
    split <;> rfl

theorem State.executed_done_of_keeps {i : Instr} (hl : isLaunch i = false) (hd : i ≠ .disable)
    (s : State) : (s.executed i).done = s.done := by
  by_cases he : i = .enable
  · subst he; rfl
  · exact congrArg Transport.done (State.executed_transport_of_quiet hl hd he s)

theorem State.Executes.done {s t : State} {i : Instr} (h : s.Executes i t) :
    t.done = (s.executed i).done :=
  congrArg Transport.done h.transport

/-- Settles O48: the engine's step by its completions, every other step by what its command does. -/
theorem doneChangesOnly : Obligations.DoneChangesOnly := by
  unfold Obligations.DoneChangesOnly
  refine fun s t h => ⟨fun he => ?_, fun he => ?_⟩
  · rw [step_of_engineMoves he] at h
    cases h
    exact engineStep_done (by simpa using he.pend_ne_none)
  · rcases step_executes h he with ⟨hc, htr⟩ | ⟨i, hc, hx⟩
    · exact ⟨by simp [hc], by simp [hc], fun _ => congrArg Transport.done htr⟩
    · simp only [hc, Option.some.injEq, hx.done]
      refine ⟨?_, ?_, nofun⟩
      · rintro _ rfl hclears
        exact State.executed_done_of_clears hclears s
      · rintro _ rfl hl hd
        exact State.executed_done_of_keeps hl hd s

end Sys2Proof.Machine
end

section
/-! `RXEND` (spec R16): what a completed reception leaves in it, and what it forbids. -/

namespace Sys2Proof.Machine

@[simp] theorem engineStep_of_recv {s : State} {k : Bool} (h : s.pend = .recv k) :
    engineStep s = completeRecv k s := by
  simp [engineStep, h]

/-- A launch that passes its checks, presented by the host (R60, R61). -/
theorem hostResult_launch_of_legal {c : Cmd} {legal : Bool} {p : Pend} {s : State}
    (he : s.en = true) (hp : s.pend = .none) (hl : legal = true) :
    hostResult s (launch c legal p s) = .next (s.launched p).retire := by
  rw [launch_eq_retire.2 ⟨he, hp, hl, rfl⟩, hostResult]

/-- A launch that the phase table does not allow, presented by the host (R115). -/
theorem hostResult_launch_of_illegal {c : Cmd} {legal : Bool} {p : Pend} {s : State}
    (he : s.en = true) (hp : s.pend = .none) (hl : legal = false) :
    hostResult s (launch c legal p s) = .fault (.phaseViolation c s.ph s.dir s.rxend) := by
  rw [launch_eq_raise.2 (.inr (.inr ⟨he, hp, hl, rfl⟩)), hostResult]

/-- Settles O18: the completion writes `1 - k`; in `DATA_RCVD` the phase table refuses `RECV` with
`RXEND = 1` and allows `STOP` and `START` whatever `RXEND` holds. -/
theorem rxendRule : Obligations.RxendRule := by
  unfold Obligations.RxendRule
  refine ⟨fun k s h => ?_, fun k s he hp hph hrx => ⟨?_, ?_, ?_⟩⟩
  · rw [engineStep_of_recv h]; rfl
  · exact hostResult_launch_of_illegal he hp (by simp [recvLegal, hph, hrx])
  · exact ⟨_, hostResult_launch_of_legal he hp (by simp [stopLegal, hph]), rfl⟩
  · exact ⟨_, hostResult_launch_of_legal he hp (by simp [startLegal, hph]), rfl⟩

end Sys2Proof.Machine
end

section
/-! The invariant of reachable states (spec R24, R62, R75) is kept by every step: its bus side
(`State.BusInv`) by what a command and a completion do to the transport, its sequencer side
(`State.StepInRange`) by what they do to `MODE` and `STEP`. -/

namespace Sys2Proof.Machine

/-! ### The trace grammar and the brackets of R24 item 6 -/

theorem BusPoint.after_append_list (p : BusPoint) (es fs : List WireEvent) :
    p.after (es ++ fs) = (p.after es).bind fun q => q.after fs := by
  induction es generalizing p with
  | nil => rfl
  | cons e es ih =>
    simp only [List.cons_append, BusPoint.after]
    cases p.next e with
    | none => rfl
    | some q => exact ih q

/-- The point is inside a segment. -/
def BusPoint.isOpen : BusPoint → Bool
  | .closed => false
  | .started | .addressed _ | .sent | .received _ => true

/-- The grammar opens and closes a transaction where `openAfter` does. -/
theorem openAfter_of_next {p q : BusPoint} {e : WireEvent} (h : p.next e = some q)
    (es : List WireEvent) : openAfter p.isOpen (e :: es) = openAfter q.isOpen es := by
  unfold BusPoint.next at h
  split at h <;> cases h <;> rfl

theorem openAfter_of_after {p q : BusPoint} {es : List WireEvent} (h : p.after es = some q) :
    openAfter p.isOpen es = q.isOpen := by
  induction es generalizing p with
  | nil => cases h; rfl
  | cons e es ih =>
    unfold BusPoint.after at h
    split at h
    · next r hr => rw [openAfter_of_next hr, ih h]
    · cases h

theorem BusPoint.isOpen_of_next_start {p q : BusPoint} (h : p.next .start = some q) :
    p.isOpen = false := by
  cases p with
  | closed => rfl
  | started | addressed | sent | received => cases h

theorem BusPoint.isOpen_of_next {p q : BusPoint} {e : WireEvent} (h : p.next e = some q)
    (hs : e ≠ .start) (hr : e ≠ .release) : p.isOpen = true := by
  cases p with
  | closed => cases e <;> contradiction
  | started | addressed | sent | received => rfl

/-- A trace the grammar admits is bracketed. -/
theorem Grammatical.bracketed {tr : List WireEvent} (h : Grammatical tr) : Bracketed tr := by
  rintro before e after rfl
  obtain ⟨r, hr⟩ := Option.isSome_iff_exists.1 h
  rw [BusPoint.after_append_list, Option.bind_eq_some_iff] at hr
  obtain ⟨p, hp, hr⟩ := hr
  have hopen : openAfter false before = p.isOpen := openAfter_of_after hp
  unfold BusPoint.after at hr
  split at hr
  · next q hq =>
    rw [hopen]
    refine ⟨?_, BusPoint.isOpen_of_next hq⟩
    rintro rfl
    exact BusPoint.isOpen_of_next_start hq
  · cases hr

/-! ### The bus side of the invariant -/

/-- The invariant without R24 item 5: what it says of the transport. -/
structure State.BusInv (s : State) : Prop where
  pendingEnabled : s.PendingEnabled
  disabledQuiet : s.DisabledQuiet
  dirMatches : s.DirMatchesPhase
  rxendMatches : s.RxendMatchesPhase
  pendingLegal : s.PendingLegal
  trace : BusPoint.closed.after s.trace = s.busPoint

theorem State.inv_iff {s : State} : s.Inv ↔ s.BusInv ∧ s.StepInRange := by
  constructor
  · rintro ⟨h1, h2, h3, h4, h5, h6, h7⟩
    exact ⟨⟨h1, h2, h3, h4, h6, h7⟩, h5⟩
  · rintro ⟨⟨h1, h2, h3, h4, h6, h7⟩, h5⟩
    exact ⟨h1, h2, h3, h4, h5, h6, h7⟩

theorem State.BusInv.congr {s t : State} (h : s.BusInv) (htr : t.transport = s.transport) :
    t.BusInv := by
  obtain ⟨hen, hdone, hpend, hph, hdir, hrxend, -, htrace, -⟩ := State.transport_eq_iff.1 htr
  obtain ⟨h1, h2, h3, h4, h6, h7⟩ := h
  constructor <;>
    simpa only [State.PendingEnabled, State.DisabledQuiet, State.DirMatchesPhase,
      State.RxendMatchesPhase, State.PendingLegal, State.busPoint,
      hen, hdone, hpend, hph, hdir, hrxend, htrace]

/-- The phase names a grammar point, so the trace is one the grammar admits. -/
theorem State.BusInv.grammatical {s : State} (h : s.BusInv) : Grammatical s.trace := by
  unfold Grammatical
  rw [h.trace]
  have hdir := h.dirMatches.1
  unfold State.busPoint
  split <;> simp_all

theorem State.Inv.r24Items {s : State} (h : s.Inv) : s.R24Items := by
  obtain ⟨hbus, hstep⟩ := State.inv_iff.1 h
  exact ⟨hbus.pendingEnabled, hbus.disabledQuiet, hbus.dirMatches, hbus.rxendMatches, hstep,
    hbus.grammatical.bracketed⟩

/-! ### Commands keep the bus side -/

theorem State.BusInv.launched {s : State} (h : s.BusInv) {p : Pend} (hp : s.MayLaunch p) :
    (s.launched p).BusInv where
  pendingEnabled _ := ⟨hp.en, rfl⟩
  disabledQuiet hen := absurd hen (by simp [hp.en])
  dirMatches := h.dirMatches
  rxendMatches := h.rxendMatches
  pendingLegal := hp.legal
  trace := h.trace

/-- A switched-off transport is quiet; its trace must have been closed. -/
theorem State.busInv_switchedOff {s : State}
    (h : BusPoint.closed.after s.trace = some .closed) : s.switchedOff.BusInv where
  pendingEnabled := nofun
  disabledQuiet _ := ⟨rfl, rfl, rfl, rfl, rfl⟩
  dirMatches := by simp [State.DirMatchesPhase]
  rxendMatches := nofun
  pendingLegal := rfl
  trace := h

/-- `Rel` leads from every point between segments. -/
theorem BusPoint.next_release (p : BusPoint) : p.next .release = some .closed := by
  cases p <;> rfl

theorem State.BusInv.executed_disable {s : State} (h : s.BusInv) : (s.executed .disable).BusInv := by
  simp only [State.executed]
  split
  · refine State.busInv_switchedOff ?_
    obtain ⟨p, hp⟩ := Option.isSome_iff_exists.1 h.grammatical
    simp [BusPoint.after_append, hp, BusPoint.next_release]
  · next hw =>
    refine State.busInv_switchedOff (h.trace.trans ?_)
    have hreleased : s.ph.released = true := by simp_all [State.wiresHeld]
    unfold State.busPoint
    split <;> simp_all [Phase.released]

theorem State.BusInv.executed_enable {s : State} (h : s.BusInv) : (s.executed .enable).BusInv where
  pendingEnabled hp := ⟨rfl, (h.pendingEnabled hp).2⟩
  disabledQuiet := nofun
  dirMatches := h.dirMatches
  rxendMatches := h.rxendMatches
  pendingLegal := h.pendingLegal
  trace := h.trace

theorem State.BusInv.of_executes {s t : State} {i : Instr} (h : s.BusInv) (hx : s.Executes i t) :
    t.BusInv := by
  refine State.BusInv.congr ?_ hx.transport
  cases hl : isLaunch i with
  | true =>
    rw [State.executed_of_isLaunch hl]
    exact h.launched (hx.checks hl)
  | false =>
    by_cases hd : i = .disable
    · exact hd ▸ h.executed_disable
    by_cases he : i = .enable
    · exact he ▸ h.executed_enable
    exact h.congr (State.executed_transport_of_quiet hl hd he s)

/-! ### Completions keep the bus side -/

/-- A completion leaves the transport enabled, with nothing pending; the phase, direction, `RXEND`
and trace it has written are what remains to see. -/
theorem State.busInv_completed {s : State} (hen : s.en = true) (hdir : s.DirMatchesPhase)
    (hrxend : s.RxendMatchesPhase) (htrace : BusPoint.closed.after s.trace = s.busPoint) :
    s.completed.BusInv where
  pendingEnabled := nofun
  disabledQuiet h := absurd h (by simp [hen])
  dirMatches := hdir
  rxendMatches := hrxend
  pendingLegal := rfl
  trace := htrace

theorem State.BusInv.after_emit {s : State} (h : s.BusInv) (e : WireEvent) :
    BusPoint.closed.after (s.trace ++ [e]) = s.busPoint.bind fun q => q.next e := by
  rw [BusPoint.after_append, h.trace]

theorem State.BusInv.en_of_pend {s : State} (h : s.BusInv) {p : Pend} (hp : s.pend = p)
    (hne : p ≠ .none) : s.en = true :=
  (h.pendingEnabled (hp ▸ hne)).1

theorem State.BusInv.legal_of_pend {s : State} (h : s.BusInv) {p : Pend} (hp : s.pend = p) :
    p.legal s.ph s.dir s.rxend = true :=
  hp ▸ h.pendingLegal

theorem State.BusInv.dir_of_addrSent {s : State} (h : s.BusInv) (hph : s.ph = .addrSent) :
    ∃ d, s.dir = some d :=
  Option.isSome_iff_exists.1 (h.dirMatches.1.2 (.inl hph))

theorem State.BusInv.rxend_of_ph {s : State} (h : s.BusInv) (hph : s.ph ≠ .dataRcvd) :
    s.rxend = false := by
  simpa using mt h.rxendMatches hph

/-- A start condition may stand wherever `START` may be launched. -/
theorem State.BusInv.of_completeStart {s : State} (h : s.BusInv) (hp : s.pend = .start) :
    (completeStart s).BusInv := by
  have hlegal : startLegal s.ph = true := h.legal_of_pend hp
  refine State.busInv_completed (h.en_of_pend hp nofun) (by simp [State.DirMatchesPhase]) nofun
    ((h.after_emit (startEvent s.ph)).trans ?_)
  cases hph : s.ph with
  | idle | stopSent | dataSent | dataRcvd =>
    simp [State.busPoint, hph, startEvent, Phase.released, BusPoint.next]
  | startSent => simp [startLegal, hph] at hlegal
  | addrSent =>
    obtain ⟨d, hd⟩ := h.dir_of_addrSent hph
    simp [State.busPoint, hph, hd, startEvent, Phase.released, BusPoint.next]

theorem State.BusInv.of_completeSend {s : State} (h : s.BusInv) {b : Byte} (hp : s.pend = .send b) :
    (completeSend b s).BusInv := by
  have hen := h.en_of_pend hp nofun
  have hlegal : sendLegal s.ph s.dir = true := h.legal_of_pend hp
  have hafter := h.after_emit (.tx b (s.dev.ack s.trace b))
  unfold completeSend
  dsimp only
  split
  · next hph =>
    have hrx : s.rxend = false := h.rxend_of_ph (by simp [hph])
    refine State.busInv_completed hen (by simp [State.DirMatchesPhase]) (by simp [hrx])
      (hafter.trans ?_)
    simp [State.busPoint, hph, BusPoint.next, directionOf]
  · next hph =>
    obtain ⟨hsent, hdir⟩ : (s.ph = .addrSent ∨ s.ph = .dataSent) ∧ s.dir = some .w := by
      simpa [sendLegal, hph] using hlegal
    have hrx : s.rxend = false := h.rxend_of_ph (by rintro hr; simp [hr] at hsent)
    refine State.busInv_completed hen (by simp [State.DirMatchesPhase, hdir])
      (by simp [hrx]) (hafter.trans ?_)
    rcases hsent with hph | hph <;> simp [State.busPoint, hph, hdir, BusPoint.next]

theorem State.BusInv.of_completeRecv {s : State} (h : s.BusInv) {k : Bool} (hp : s.pend = .recv k) :
    (completeRecv k s).BusInv := by
  have hlegal : (s.ph = .addrSent ∧ s.dir = some .r) ∨ (s.ph = .dataRcvd ∧ s.rxend = false) := by
    simpa [Pend.legal, recvLegal] using h.legal_of_pend hp
  have hdir : s.dir = some .r := hlegal.elim (·.2) (h.dirMatches.2.2 ·.1)
  refine State.busInv_completed (h.en_of_pend hp nofun)
    (by simp [State.DirMatchesPhase, hdir]) (fun _ => rfl)
    ((h.after_emit (.rx (s.dev.byte s.trace) k)).trans ?_)
  rcases hlegal with ⟨hph, -⟩ | ⟨hph, hrx⟩
  · simp [State.busPoint, hph, hdir, BusPoint.next, rxendAfter]
  · simp [State.busPoint, hph, hrx, BusPoint.next, rxendAfter]

theorem State.BusInv.of_completeStop {s : State} (h : s.BusInv) (hp : s.pend = .stop) :
    (completeStop s).BusInv := by
  have hlegal : (s.ph = .addrSent ∨ s.ph = .dataSent) ∨ s.ph = .dataRcvd := by
    simpa [Pend.legal, stopLegal] using h.legal_of_pend hp
  refine State.busInv_completed (h.en_of_pend hp nofun) (by simp [State.DirMatchesPhase]) nofun
    ((h.after_emit .stop).trans ?_)
  rcases hlegal with (hph | hph) | hph
  · obtain ⟨d, hd⟩ := h.dir_of_addrSent hph
    simp [State.busPoint, hph, hd, BusPoint.next]
  all_goals simp [State.busPoint, hph, BusPoint.next]

theorem State.BusInv.of_engineStep {s : State} (h : s.BusInv) : (engineStep s).BusInv := by
  unfold engineStep
  split
  · exact h
  · next hp => exact h.of_completeStart hp
  · next hp => exact h.of_completeSend hp
  · next hp => exact h.of_completeRecv hp
  · next hp => exact h.of_completeStop hp

theorem State.BusInv.of_step {s t : State} (h : s.BusInv) (hs : step s = .next t) : t.BusInv := by
  by_cases he : s.EngineMoves
  · rw [step_of_engineMoves he] at hs
    cases hs
    exact (h.congr s.turnTaken_transport).of_engineStep
  · rcases step_executes hs he with ⟨-, htr⟩ | ⟨i, -, hx⟩
    · exact h.congr htr
    · exact h.of_executes hx

/-! ### `MODE` and `STEP` (R24 item 5) -/

theorem State.StepInRange.congr {s t : State} (h : s.StepInRange) (hm : t.mode = s.mode)
    (hi : t.stepIx = s.stepIx) : t.StepInRange := by
  simpa only [State.StepInRange, hm, hi] using h

/-- The first micro-operation, like no transaction at all, stands at `STEP` 0. -/
theorem State.stepInRange_of_zero {s : State} (h : s.stepIx = 0) : s.StepInRange := by
  simp [State.StepInRange, h]

/-- The sequencer goes to the next micro-operation only where there is one (R94, R95). -/
theorem State.StepInRange.advance {s : State} (h : s.StepInRange) : s.advance.StepInRange := by
  unfold State.advance
  split
  · next hlt =>
    cases hm : s.mode with
    | none => simp [hm, Mode.program] at hlt
    | rd =>
      have hlast : s.stepIx.toNat + 1 < 17 := by simpa [hm, Mode.program, rdProgram] using hlt
      simp only [State.StepInRange, reduceCtorEq, false_imp_iff, true_and, and_true]
      bv_omega
    | wr =>
      have hlast : s.stepIx.toNat + 1 < 10 := by simpa [hm, Mode.program, wrProgram] using hlt
      simp only [State.StepInRange, reduceCtorEq, false_imp_iff, true_and]
      bv_omega
  · unfold State.finish
    split
    · exact State.stepInRange_of_zero rfl
    · exact State.stepInRange_of_zero rfl
    · exact h

/-- The host's commands leave `STEP` alone; a transaction presented starts at 0. -/
theorem exec_stepIx_zero {i : Instr} {s t : State} (h : exec i s = .next t) (hs : s.stepIx = 0) :
    t.stepIx = 0 := by
  cases hr : ruleOf i s with
  | some a =>
    rw [exec_of_ruleOf hr] at h
    rcases hostResult_state h with ⟨u, hu, -, hi⟩ | ⟨-, rfl⟩
    · obtain ⟨rfl, -⟩ := ruleOf_state hr hu
      cases i with
      | rdreg | wrreg => cases hr
      | start | send | recv | stop | wait | getdata | disable | enable =>
        rw [hi, State.executed_stepIx rfl, hs]
    · exact hs
  | none =>
    cases i with
    | rdreg | wrreg =>
      obtain ⟨-, -, -, rfl⟩ := present_eq_next.1 h
      rfl
    | start | send | recv | stop | wait | getdata | disable | enable => cases hr

theorem State.StepInRange.of_commandStep {s t : State} (h : s.StepInRange)
    (hs : commandStep s = .next t) : t.StepInRange := by
  rcases commandStep_cases hs with ⟨-, rfl⟩ | ⟨i, hm, -, hi⟩ | ⟨m, -, hr⟩
  · exact h
  · exact State.stepInRange_of_zero (exec_stepIx_zero hi (h.1 hm))
  · rcases sequencerResult_state hr with ⟨u, b, hu, rfl⟩ | ⟨-, rfl⟩
    · obtain ⟨hmode, hstep, -⟩ := rule_frame hu
      exact State.StepInRange.advance (h.congr hmode hstep)
    · exact h

theorem State.StepInRange.of_step {s t : State} (h : s.StepInRange) (hs : step s = .next t) :
    t.StepInRange := by
  have hturn : s.turnTaken.StepInRange := h.congr s.turnTaken_mode s.turnTaken_stepIx
  rcases step_cases s with ⟨-, -, hstep⟩ | ⟨-, -, hstep⟩ | ⟨-, hstep⟩ <;> rw [hstep] at hs
  · cases hs
    obtain ⟨-, hmode, hix, -⟩ := engineStep_frame s.turnTaken
    exact hturn.congr hmode hix
  · exact hturn.of_commandStep hs
  · exact h.of_commandStep hs

/-! ### Reachable states -/

/-- The invariant is inductive. -/
theorem State.Inv.of_step {s t : State} (h : s.Inv) (hs : step s = .next t) : t.Inv := by
  obtain ⟨hbus, hrange⟩ := State.inv_iff.1 h
  exact State.inv_iff.2 ⟨hbus.of_step hs, hrange.of_step hs⟩

/-- A run begins with the invariant: everything is at its reset value but the list of commands and
the environment. -/
theorem State.inv_begin (enReset : Bool) (cmds : List Command) (sched : List Turn) (draws : Nat)
    (dev : Device) : (State.begin enReset cmds sched draws dev).Inv := by
  refine State.inv_iff.2 ⟨?_, State.stepInRange_of_zero rfl⟩
  exact
    { pendingEnabled := fun h => absurd rfl h
      disabledQuiet := fun _ => ⟨rfl, rfl, rfl, rfl, rfl⟩
      dirMatches := by simp [State.DirMatchesPhase, State.begin, State.resetWith]
      rxendMatches := nofun
      pendingLegal := rfl
      trace := rfl }

theorem inv_of_steps_begin {enReset : Bool} {cmds : List Command} {sched : List Turn} {draws : Nat}
    {dev : Device} {n : Nat} {t : State}
    (h : steps n (State.begin enReset cmds sched draws dev) = .next t) : t.Inv :=
  steps_keep (fun _ _ => State.Inv.of_step) n (State.inv_begin enReset cmds sched draws dev) h

/-- Settles O43: the inductive invariant holds in every state a run reaches, and R24's items are
part of it, item 6 because the trace stands at the grammar point its phase names. -/
theorem reachableStatesMeetR24 : Obligations.ReachableStatesMeetR24 := by
  unfold Obligations.ReachableStatesMeetR24
  exact fun _ _ _ _ _ _ _ h => (inv_of_steps_begin h).r24Items

end Sys2Proof.Machine
end

section
/-! The reference device (spec R39): what it answers and how a byte sent to it changes it, a lemma
per row of the rule. Whether a byte is an address byte is read off the trace by `afterStart`. -/

namespace Sys2Proof.Machine

theorem afterStart_eq_true_iff {tr : List WireEvent} :
    afterStart tr = true ↔ tr.getLast? = some .start ∨ tr.getLast? = some .repStart := by
  unfold afterStart
  split <;> simp [*]

theorem afterStart_eq_false_iff {tr : List WireEvent} :
    afterStart tr = false ↔ tr.getLast? ≠ some .start ∧ tr.getLast? ≠ some .repStart := by
  rw [← Bool.not_eq_true, afterStart_eq_true_iff, not_or]

/-- The events that deselect the device keep its register file and pointer. -/
theorem RefDev.hear_deselects (r : RefDev) (tr : List WireEvent) {e : WireEvent}
    (he : e ∈ [WireEvent.start, .repStart, .stop, .release]) :
    r.hear tr e = { r with sel := .no } := by
  cases e with
  | start | repStart | stop | release => rfl
  | tx | rx => simp at he

/-! ### An address byte -/

section
variable {tr : List WireEvent} (h : afterStart tr = true)
include h

/-- An address byte is acknowledged exactly when it holds the device's own address. -/
theorem RefDev.ack_address (r : RefDev) (b : Byte) :
    r.ack tr b = decide (addressOf b = Config.devAddr7) := by
  rw [RefDev.ack, if_pos h]
  rfl

/-- The device's own address selects it, by bit 0 of the byte. -/
theorem RefDev.hear_own_address (r : RefDev) {b : Byte} (k : Bool)
    (hb : addressOf b = Config.devAddr7) :
    r.hear tr (.tx b k) = { r with sel := if b.getLsbD 0 = false then .wr0 else .rd } := by
  rw [RefDev.hear, RefDev.hearTx, if_pos h, if_pos hb, directionOf]
  cases b.getLsbD 0 <;> rfl

/-- Any other address deselects it. -/
theorem RefDev.hear_other_address (r : RefDev) {b : Byte} (k : Bool)
    (hb : addressOf b ≠ Config.devAddr7) : r.hear tr (.tx b k) = { r with sel := .no } := by
  rw [RefDev.hear, RefDev.hearTx, if_pos h, if_neg hb]

end

/-! ### A data byte -/

section
variable {r : RefDev} {tr : List WireEvent} (h : afterStart tr = false)
include h

/-- A data byte is acknowledged exactly when the device is selected for writing. -/
theorem RefDev.ack_data (b : Byte) : r.ack tr b = (r.sel == .wr0 || r.sel == .wr1) := by
  simp [RefDev.ack, h]

/-- The first data byte is the register pointer. -/
theorem RefDev.hear_pointer (hsel : r.sel = .wr0) (b : Byte) (k : Bool) :
    r.hear tr (.tx b k) = { r with ptr := b, sel := .wr1 } := by
  simp [RefDev.hear, RefDev.hearTx, h, hsel]

/-- Each later data byte is written at the pointer. -/
theorem RefDev.hear_value (hsel : r.sel = .wr1) (b : Byte) (k : Bool) :
    r.hear tr (.tx b k) = { r with reg := Memory.write r.reg r.ptr.toNat b } := by
  simp [RefDev.hear, RefDev.hearTx, h, hsel]

/-- A data byte changes nothing in a device not selected for writing. -/
theorem RefDev.hear_ignored (hsel : r.sel = .no ∨ r.sel = .rd) (b : Byte) (k : Bool) :
    r.hear tr (.tx b k) = r := by
  rcases hsel with hsel | hsel <;> simp [RefDev.hear, RefDev.hearTx, h, hsel]

end

/-- Settles O57: a reception and the byte answered are the definition itself; a byte sent is an
address byte or a data byte by the trace, and each of its rows is a lemma above. -/
theorem referenceDeviceRule : Obligations.ReferenceDeviceRule := by
  unfold Obligations.ReferenceDeviceRule
  intro r tr b d k
  refine ⟨fun e he => r.hear_deselects tr he, rfl, rfl, fun hstart => ?address,
    fun hs hrs => ?data⟩
  case address =>
    have h := afterStart_eq_true_iff.2 hstart
    have hack := r.ack_address h b
    exact ⟨fun hb => ⟨hack.trans (decide_eq_true hb), r.hear_own_address h k hb⟩,
      fun hb => ⟨hack.trans (decide_eq_false hb), r.hear_other_address h k hb⟩⟩
  case data =>
    have h := afterStart_eq_false_iff.2 ⟨hs, hrs⟩
    have hack := RefDev.ack_data (r := r) h b
    refine ⟨fun hsel => ⟨?_, RefDev.hear_pointer h hsel b k⟩,
      fun hsel => ⟨?_, RefDev.hear_value h hsel b k⟩,
      fun hsel => ⟨?_, RefDev.hear_ignored h hsel b k⟩⟩
    · rw [hack, hsel]; rfl
    · rw [hack, hsel]; rfl
    · rcases hsel with hsel | hsel <;> rw [hack, hsel] <;> rfl

end Sys2Proof.Machine
end

section
/-! The opcode map (spec R53, R54): a row matches exactly when its command is what the word decodes
to, and a word without a row is the host's fault `IllegalCommand` (R112). -/

namespace Sys2Proof

@[simp] theorem Cmd.build_cmd (c : Cmd) (a b : Byte) : (c.build a b).cmd = c := by
  cases c <;> rfl

theorem Cmd.rowMatches_iff_masked (c : Cmd) (w : Command) :
    c.rowMatches w = true ↔ w &&& c.maskWord = c.matchWord :=
  beq_iff_eq

/-- A word matches a row exactly when it decodes to the row's command, with the word's own fields as
operands: no two rows share a word, since what a row builds names the row. -/
theorem Cmd.masked_eq_iff_decode (c : Cmd) (w : Command) :
    w &&& c.maskWord = c.matchWord ↔ decode w = .ok (c.build (aOf w) (bOf w)) := by
  rw [← c.rowMatches_iff_masked, decode_eq_ok]
  constructor
  · exact fun h => ⟨c, h, rfl⟩
  · rintro ⟨d, hrow, hbuild⟩
    have hcmd : c = d := by simpa using congrArg Instr.cmd hbuild
    exact hcmd ▸ hrow

/-- The operand bit of `RECV`, bit 0 of field `a`, is bit 8 of the word. -/
theorem aOf_getLsbD_zero (w : Command) : (aOf w).getLsbD 0 = w.getLsbD 8 := by
  simp [aOf]

/-- Settles O3: each row is the row lemma at its command; only `RECV`'s operand is written
differently. -/
theorem tableRowsDecode : Obligations.TableRowsDecode := by
  unfold Obligations.TableRowsDecode
  intro w
  refine ⟨Cmd.start.masked_eq_iff_decode w, Cmd.send.masked_eq_iff_decode w, ?recv,
    Cmd.wait.masked_eq_iff_decode w, Cmd.getdata.masked_eq_iff_decode w,
    Cmd.stop.masked_eq_iff_decode w, Cmd.disable.masked_eq_iff_decode w,
    Cmd.enable.masked_eq_iff_decode w, Cmd.rdreg.masked_eq_iff_decode w,
    Cmd.wrreg.masked_eq_iff_decode w⟩
  case recv =>
    rw [← aOf_getLsbD_zero]
    exact Cmd.recv.masked_eq_iff_decode w

/-! ### Illegal words -/

theorem decode_error_of_no_row {w : Command} (h : ∀ c : Cmd, w &&& c.maskWord ≠ c.matchWord) :
    ∃ e, decode w = .error e := by
  cases hd : decode w with
  | error e => exact ⟨e, rfl⟩
  | ok i =>
    obtain ⟨c, hrow, -⟩ := decode_eq_ok.1 hd
    exact absurd ((c.rowMatches_iff_masked w).1 hrow) (h c)

/-- What a matching row says of the word's fields (R51, R53). -/
theorem Cmd.fields_of_masked_eq {c : Cmd} {w : Command} (h : w &&& c.maskWord = c.matchWord) :
    opOf w = c.opcode ∧ c.format.fieldsOk (aOf w) (bOf w) = true :=
  (c.rowMatches_iff w).1 ((c.rowMatches_iff_masked w).2 h)

theorem Cmd.opcode_mem (c : Cmd) :
    c.opcode ∈ ([0x01, 0x02, 0x03, 0x04, 0x05, 0x06, 0x07, 0x08, 0x10, 0x11] : List Byte) := by
  cases c <;> decide

/-- The seven bits above `RECV`'s operand bit are zero when the shift drops them to zero. -/
theorem extractLsb'_one_seven_eq_zero {a : Byte} (h : a >>> 1 = 0) : a.extractLsb' 1 7 = 0 := by
  revert a; decide

/-- A legal opcode with a non-zero must-be-zero field matches no row: the one row with that opcode
asks for the zero (R54). -/
theorem no_row_of_nonZeroField {w : Command}
    (h : (opOf w ∈ [0x01, 0x04, 0x05, 0x06, 0x07, 0x08] ∧ (aOf w ≠ 0 ∨ bOf w ≠ 0)) ∨
      (opOf w ∈ [0x02, 0x10] ∧ bOf w ≠ 0) ∨
      (opOf w = 0x03 ∧ ((aOf w).extractLsb' 1 7 ≠ 0 ∨ bOf w ≠ 0)))
    (c : Cmd) : w &&& c.maskWord ≠ c.matchWord := by
  intro hrow
  obtain ⟨hop, hfields⟩ := Cmd.fields_of_masked_eq hrow
  rw [hop] at h
  cases c with
  | start | wait | getdata | stop | disable | enable =>
    obtain ⟨ha, hb⟩ : aOf w = 0 ∧ bOf w = 0 := by
      simpa [Cmd.format, Format.fieldsOk] using hfields
    simp [Cmd.opcode, ha, hb] at h
  | send | rdreg =>
    have hb : bOf w = 0 := by simpa [Cmd.format, Format.fieldsOk] using hfields
    simp [Cmd.opcode, hb] at h
  | recv =>
    obtain ⟨ha, hb⟩ : aOf w >>> 1 = 0 ∧ bOf w = 0 := by
      simpa [Cmd.format, Format.fieldsOk] using hfields
    simp [Cmd.opcode, extractLsb'_one_seven_eq_zero ha, hb] at h
  | wrreg => simp [Cmd.opcode] at h

end Sys2Proof

namespace Sys2Proof.Machine

theorem hostStep_of_decode_error {s : State} {w : Command} {rest : List Command} {e : Illegal}
    (hc : s.cmds = w :: rest) (hd : decode w = .error e) :
    hostStep s = .fault (.illegalCommand w) := by
  simp [hostStep, hc, hd]

/-- Where the host moves, a word that does not decode raises `IllegalCommand`, whether or not the
engine was enabled too (R112). -/
theorem step_of_decode_error {s : State} {w : Command} {rest : List Command} {e : Illegal}
    (hm : s.mode = .none) (he : ¬ s.EngineMoves) (hc : s.cmds = w :: rest)
    (hd : decode w = .error e) : step s = .fault (.illegalCommand w) := by
  rcases step_of_command he with ⟨-, hs⟩ | ⟨-, hs⟩
  · rw [hs, (commandStep_of_host hm).1]
    exact hostStep_of_decode_error hc hd
  · rw [hs, (commandStep_of_host (s.turnTaken_mode.trans hm)).1]
    exact hostStep_of_decode_error (s.turnTaken_cmds.trans hc) hd

/-- Settles O4: without a row the word does not decode, which is the host's fault; an unassigned
opcode is no row's, and a non-zero must-be-zero field breaks the row's format. -/
theorem illegalWordsRaise : Obligations.IllegalWordsRaise := by
  unfold Obligations.IllegalWordsRaise
  refine ⟨fun s w rest hm he hc hrow => ?step, fun w hop c hrow => ?unassigned,
    fun w => no_row_of_nonZeroField⟩
  case step =>
    obtain ⟨e, hd⟩ := decode_error_of_no_row hrow
    exact step_of_decode_error hm he hc hd
  case unassigned =>
    exact hop ((Cmd.fields_of_masked_eq hrow).1 ▸ c.opcode_mem)

end Sys2Proof.Machine
end

section
/-! Reading a line (spec R57, R58): words without a separator are tokens as they stand, a name and
its operand are read as such, and the two hexadecimal digits of a byte give the byte back. -/

namespace Sys2Proof

/-! ### Tokens -/

/-- The text holds no character that ends a token. -/
def Unbroken (cs : List Char) : Prop := ∀ c ∈ cs, c ∉ [';', ' ', '\t', ',']

/-- Unbroken text is read into the token at hand. -/
theorem tokens_append {cs : List Char} (h : Unbroken cs) (rest acc : List Char) :
    tokens (cs ++ rest) acc = tokens rest (cs.reverse ++ acc) := by
  induction cs generalizing acc with
  | nil => rfl
  | cons c cs ih =>
    obtain ⟨hc, hcs⟩ := List.forall_mem_cons.1 h
    have hread : tokens (c :: (cs ++ rest)) acc = tokens (cs ++ rest) (c :: acc) := by
      simp_all [tokens]
    rw [List.cons_append, hread, ih hcs, List.reverse_cons, List.append_assoc]
    rfl

theorem closeToken_reverse {cs : List Char} (h : cs ≠ []) (rest : List (List Char)) :
    closeToken cs.reverse rest = cs :: rest := by
  have hne : cs.reverse ≠ [] := by simpa using h
  obtain ⟨d, ds, hd⟩ := List.exists_cons_of_ne_nil hne
  rw [← cs.reverse_reverse, hd]
  simp [closeToken]

theorem tokens_of_unbroken {cs : List Char} (h : Unbroken cs) (hne : cs ≠ []) :
    tokens cs [] = [cs] := by
  have hread := tokens_append h [] []
  rw [List.append_nil, List.append_nil] at hread
  exact hread.trans (closeToken_reverse hne [])

/-- An unbroken word and a blank before the rest of the line are one token. -/
theorem tokens_append_blank {cs : List Char} (h : Unbroken cs) (hne : cs ≠ []) (rest : List Char) :
    tokens (cs ++ ' ' :: rest) [] = cs :: tokens rest [] := by
  rw [tokens_append h, List.append_nil]
  exact closeToken_reverse hne (tokens rest [])

/-- A name, a blank and an operand are read as a command of one operand. -/
theorem assembleLine_oneOperand {name x : List Char} (hname : Unbroken name) (hne : name ≠ [])
    (hx : Unbroken x) (hxne : x ≠ []) :
    assembleLine (name ++ ' ' :: x) = oneOperand name x := by
  unfold assembleLine
  rw [tokens_append_blank hname hne, tokens_of_unbroken hx hxne]

/-! ### Bytes in hexadecimal -/

/-- Each of the sixteen digits has its place in `hexDigits` as its value. -/
theorem digitValue_hexDigit {n : Nat} (h : n < 16) :
    digitValue (hexDigits.getD n '0') = some n := by
  revert n; decide

theorem hexDigit_mem {n : Nat} (h : n < 16) : hexDigits.getD n '0' ∈ hexDigits := by
  have hn : n < hexDigits.length := h
  rw [List.getD_eq_getElem _ _ hn]
  exact List.getElem_mem hn

theorem unbroken_hexDigits : Unbroken hexDigits := by
  simp [Unbroken, hexDigits]

theorem unbroken_byteText (b : Byte) : Unbroken (byteText b) := by
  have hmark : Unbroken ['0', 'x'] := by simp [Unbroken]
  have hhigh := unbroken_hexDigits _ (hexDigit_mem (n := b.toNat / 16) (by omega))
  have hlow := unbroken_hexDigits _ (hexDigit_mem (n := b.toNat % 16) (by omega))
  exact List.forall_mem_append.2
    ⟨hmark, List.forall_mem_cons.2 ⟨hhigh, List.forall_mem_singleton.2 hlow⟩⟩

theorem digitsValue_cons {base d : Nat} {c : Char} (hc : digitValue c = some d) (hd : d < base)
    (cs : List Char) (acc : Nat) :
    digitsValue base (c :: cs) acc = digitsValue base cs (acc * base + d) := by
  simp [digitsValue, hc, hd]

theorem numberValue_byteText (b : Byte) : numberValue (byteText b) = some b.toNat := by
  have hhigh : b.toNat / 16 < 16 := by omega
  have hlow : b.toNat % 16 < 16 := by omega
  calc numberValue (byteText b)
    _ = digitsValue 16 [hexDigits.getD (b.toNat / 16) '0', hexDigits.getD (b.toNat % 16) '0'] 0 :=
      rfl
    _ = some ((0 * 16 + b.toNat / 16) * 16 + b.toNat % 16) := by
      rw [digitsValue_cons (digitValue_hexDigit hhigh) hhigh,
        digitsValue_cons (digitValue_hexDigit hlow) hlow, digitsValue]
    _ = some b.toNat := congrArg some (by omega)

/-- The text of a byte is read back as that byte. -/
theorem byteOperand_byteText (b : Byte) : byteOperand (byteText b) = some b := by
  simp [byteOperand, numberValue_byteText, b.isLt]

/-- Settles O7: the lines without a variable operand are read by evaluation; the byte of `SENDW` is
read back from its text. -/
theorem pseudoCommandsExpand : Obligations.PseudoCommandsExpand := by
  unfold Obligations.PseudoCommandsExpand
  refine ⟨by decide, by decide, by decide, fun b => ?sendw, fun k => ?recvw⟩
  case sendw =>
    calc assembleLine (['S', 'E', 'N', 'D', 'W'] ++ ' ' :: byteText b)
      _ = oneOperand ['S', 'E', 'N', 'D', 'W'] (byteText b) :=
        assembleLine_oneOperand (by simp [Unbroken]) nofun (unbroken_byteText b) nofun
      _ = (byteOperand (byteText b)).map sendw := rfl
      _ = some [.send b, .wait] := by rw [byteOperand_byteText]; rfl
  case recvw => cases k <;> decide

end Sys2Proof
end

section
/-! The trace grammar over runs (spec R75). -/

namespace Sys2Proof.Machine

/-- Settles O44: in every state a run reaches, the trace stands at the grammar point its phase names,
and in a state with the invariant the phase names one. -/
theorem reachableTracesGrammatical : Obligations.ReachableTracesGrammatical := by
  unfold Obligations.ReachableTracesGrammatical
  intro enReset cmds sched draws dev n t h
  obtain ⟨hbus, -⟩ := State.inv_iff.1 (inv_of_steps_begin h)
  exact hbus.grammatical

end Sys2Proof.Machine
end

section
/-! The four launches presented by the host (spec R61, R63 to R66), said once for any launch:
`exec_launch` gives the checks in their order and the effect. A command's own rule is that lemma with
its encoding and its column of the phase table (R62). -/

namespace Sys2Proof

/-- A word whose field `b` is zero, as R64 and R65 write it. -/
theorem joinFields_zero_eq_or (op a : Byte) :
    joinFields op a 0 = (op.setWidth 24 <<< 16 ||| a.setWidth 24 <<< 8) := by
  ext i hi
  simp only [joinFields, BitVec.getElem_or, BitVec.getElem_shiftLeft]
  grind

theorem encode_send (b : Byte) : encode (.send b) = (0x020000#24 ||| b.setWidth 24 <<< 8) :=
  joinFields_zero_eq_or 0x02 b

theorem encode_recv (k : Bool) :
    encode (.recv k) = (0x030000#24 ||| (BitVec.ofBool k).setWidth 24 <<< 8) := by
  cases k <;> rfl

end Sys2Proof

namespace Sys2Proof.Machine

/-! ### The columns of the phase table (R62) -/

theorem startLegal_iff {ph : Phase} : startLegal ph = true ↔ ph ≠ .startSent :=
  bne_iff_ne

theorem sendLegal_iff {ph : Phase} {dir : Option Dir} :
    sendLegal ph dir = true ↔
      ph = .startSent ∨ ((ph = .addrSent ∨ ph = .dataSent) ∧ dir = some .w) := by
  simp [sendLegal]

theorem recvLegal_iff {ph : Phase} {dir : Option Dir} {rxend : Bool} :
    recvLegal ph dir rxend = true ↔
      (ph = .addrSent ∧ dir = some .r) ∨ (ph = .dataRcvd ∧ rxend = false) := by
  simp [recvLegal]

theorem stopLegal_iff {ph : Phase} :
    stopLegal ph = true ↔ ph ∈ [.addrSent, .dataSent, .dataRcvd] := by
  simp [stopLegal, or_assoc]

/-! ### Any launch -/

/-- The phase table's column of a launch, in the present state (R62). -/
def State.allows (s : State) (i : Instr) : Bool :=
  (operationOf i).legal s.ph s.dir s.rxend

/-- The rules of R63 to R66 differ in the column of the phase table and the operation launched. -/
theorem exec_of_isLaunch {i : Instr} (h : isLaunch i = true) (s : State) :
    exec i s = hostResult s (launch i.cmd (s.allows i) (operationOf i) s) := by
  cases i with
  | start | send | recv | stop => rfl
  | wait | getdata | disable | enable | rdreg | wrreg => cases h

section
variable {i : Instr} (hi : isLaunch i = true) {s : State}
include hi

theorem exec_launch_of_disabled (he : s.en = false) : exec i s = .fault (.disabled i.cmd) := by
  rw [exec_of_isLaunch hi, launch_eq_raise.2 (.inl ⟨he, rfl⟩), hostResult]

theorem exec_launch_of_busy (he : s.en = true) (hp : s.pend ≠ .none) :
    exec i s = .fault (.busy i.cmd s.pend) := by
  rw [exec_of_isLaunch hi, launch_eq_raise.2 (.inr (.inl ⟨he, hp, rfl⟩)), hostResult]

theorem exec_launch_of_not_allowed (he : s.en = true) (hp : s.pend = .none)
    (hl : s.allows i = false) :
    exec i s = .fault (.phaseViolation i.cmd s.ph s.dir s.rxend) := by
  rw [exec_of_isLaunch hi, hostResult_launch_of_illegal he hp hl]

theorem exec_launch_of_allowed (he : s.en = true) (hp : s.pend = .none)
    (hl : s.allows i = true) :
    exec i s = .next { s with pend := operationOf i, done := false, cmds := s.cmds.tail } := by
  rw [exec_of_isLaunch hi, hostResult_launch_of_legal he hp hl]
  rfl

/-- A launch's rule, whole: the checks in order, with its column of the phase table written as a
condition, and the effect. -/
theorem exec_launch {legal : Prop} (hl : s.allows i = true ↔ legal) :
    (s.en = false → exec i s = .fault (.disabled i.cmd)) ∧
    (s.en = true → s.pend ≠ .none → exec i s = .fault (.busy i.cmd s.pend)) ∧
    (s.en = true → s.pend = .none → ¬ legal →
      exec i s = .fault (.phaseViolation i.cmd s.ph s.dir s.rxend)) ∧
    (s.en = true → s.pend = .none → legal →
      exec i s = .next { s with pend := operationOf i, done := false, cmds := s.cmds.tail }) :=
  ⟨exec_launch_of_disabled hi, exec_launch_of_busy hi,
    fun he hp hn => exec_launch_of_not_allowed hi he hp (Bool.eq_false_iff.2 (mt hl.1 hn)),
    fun he hp h => exec_launch_of_allowed hi he hp (hl.2 h)⟩

end

end Sys2Proof.Machine

namespace Sys2Proof.Laws
open Sys2Proof.Machine

/-! ### Each launch, named as its rule is; `Machine` holds a definition of the same name -/

/-- Settles O11: the rule of any launch, with `START`'s column of the phase table. -/
theorem startRule : Obligations.StartRule := by
  unfold Obligations.StartRule
  refine ⟨rfl, fun s => ?_⟩
  obtain ⟨hdisabled, hbusy, hviolation, hlaunch⟩ :=
    exec_launch (i := .start) rfl (s := s) startLegal_iff
  exact ⟨hdisabled, hbusy, fun he hp hph => hviolation he hp (not_not_intro hph), hlaunch⟩

/-- Settles O12: the rule of any launch, with `SEND`'s column of the phase table. -/
theorem sendRule : Obligations.SendRule := by
  unfold Obligations.SendRule
  exact fun b s => ⟨encode_send b, exec_launch (i := .send b) rfl sendLegal_iff⟩

/-- Settles O13: the rule of any launch, with `RECV`'s column of the phase table. -/
theorem recvRule : Obligations.RecvRule := by
  unfold Obligations.RecvRule
  exact fun k s => ⟨encode_recv k, exec_launch (i := .recv k) rfl recvLegal_iff⟩

/-- Settles O14: the rule of any launch, with `STOP`'s column of the phase table. -/
theorem stopRule : Obligations.StopRule := by
  unfold Obligations.StopRule
  exact ⟨rfl, fun s => exec_launch (i := .stop) rfl stopLegal_iff⟩

end Sys2Proof.Laws
end

section
/-! The completions (spec R70 to R73): what the engine's step leaves for each pending operation. -/

namespace Sys2Proof.Machine

@[simp] theorem engineStep_of_start {s : State} (h : s.pend = .start) :
    engineStep s = completeStart s := by
  simp [engineStep, h]

@[simp] theorem engineStep_of_send {s : State} {b : Byte} (h : s.pend = .send b) :
    engineStep s = completeSend b s := by
  simp [engineStep, h]

@[simp] theorem engineStep_of_stop {s : State} (h : s.pend = .stop) :
    engineStep s = completeStop s := by
  simp [engineStep, h]

theorem Phase.released_iff {ph : Phase} : ph.released = true ↔ ph ∈ [.idle, .stopSent] := by
  cases ph <;> decide

/-- The start condition is `S` where no transaction is open. -/
theorem startEvent_of_released {ph : Phase} (h : ph ∈ [.idle, .stopSent]) :
    startEvent ph = .start :=
  if_pos (Phase.released_iff.2 h)

/-- Inside a transaction it is `Sr`. -/
theorem startEvent_of_open {ph : Phase} (h : ph ∉ [.idle, .stopSent]) :
    startEvent ph = .repStart :=
  if_neg (mt Phase.released_iff.1 h)

/-- Settles O34: the phase before the completion decides between `S` and `Sr`; the rest of the
completion does not depend on it. -/
theorem completionOfStart : Obligations.CompletionOfStart := by
  unfold Obligations.CompletionOfStart
  intro s hp
  rw [engineStep_of_start hp, completeStart]
  exact ⟨fun h => by rw [startEvent_of_released h]; rfl,
    fun h => by rw [startEvent_of_open h]; rfl⟩

/-- Settles O35: the phase before the completion decides between an address byte and a data byte;
the acknowledge bit goes into the event only. -/
theorem completionOfSend : Obligations.CompletionOfSend := by
  unfold Obligations.CompletionOfSend
  intro b s hp
  rw [engineStep_of_send hp, completeSend]
  exact ⟨fun h => if_pos h, fun h => if_neg h⟩

/-- Settles O36: the completion of a reception. -/
theorem completionOfRecv : Obligations.CompletionOfRecv := by
  unfold Obligations.CompletionOfRecv
  exact fun _ _ hp => engineStep_of_recv hp

/-- Settles O37: the completion of a stop condition. -/
theorem completionOfStop : Obligations.CompletionOfStop := by
  unfold Obligations.CompletionOfStop
  exact fun _ hp => engineStep_of_stop hp

end Sys2Proof.Machine
end

section
/-! The phase table (spec R62): what each row allows is read off the columns; what a legal `START` or
`SEND` becomes, off its completion. While an operation is pending the host can launch nothing, so
only `DISABLE` moves the phase. -/

namespace Sys2Proof.Machine

theorem State.phase_of_transport {s t : State} (h : t.transport = s.transport) :
    t.ph = s.ph ∧ t.dir = s.dir ∧ t.rxend = s.rxend ∧ t.pend = s.pend := by
  obtain ⟨-, -, hpend, hph, hdir, hrxend, -⟩ := State.transport_eq_iff.1 h
  exact ⟨hph, hdir, hrxend, hpend⟩

/-- A command that is neither a launch nor `DISABLE` leaves the phase and the pending operation. -/
theorem State.Executes.phase_kept {s t : State} {i : Instr} (h : s.Executes i t)
    (hl : isLaunch i = false) (hd : i ≠ .disable) :
    t.ph = s.ph ∧ t.dir = s.dir ∧ t.rxend = s.rxend ∧ t.pend = s.pend := by
  by_cases hen : i = .enable
  · subst hen
    exact State.phase_of_transport (s := s.executed .enable) h.transport
  · have hquiet := State.executed_transport_of_quiet hl hd hen s
    exact State.phase_of_transport (h.transport.trans hquiet)

/-- `DISABLE` clears the pending operation (R80). -/
theorem State.Executes.pend_of_disable {s t : State} (h : s.Executes .disable t) :
    t.pend = .none := by
  have hpend : t.pend = (s.executed .disable).pend := congrArg Transport.pend h.transport
  rw [hpend, State.executed]
  split <;> rfl

/-- Between a launch and its completion only a `DISABLE` moves the phase. -/
theorem phase_kept_while_pending {s t : State} (hp : s.pend ≠ .none) (he : ¬ s.EngineMoves)
    (h : step s = .next t) :
    (t.ph = s.ph ∧ t.dir = s.dir ∧ t.rxend = s.rxend ∧ t.pend = s.pend) ∨
    (s.current = some .disable ∧ t.pend = .none) := by
  rcases step_executes h he with ⟨-, htr⟩ | ⟨i, hc, hx⟩
  · exact .inl (State.phase_of_transport htr)
  · have hl : isLaunch i = false := Bool.eq_false_iff.2 fun hl => hp (hx.checks hl).free
    by_cases hd : i = .disable
    · subst hd
      exact .inr ⟨hc, hx.pend_of_disable⟩
    · exact .inl (hx.phase_kept hl hd)

/-! ### What a legal launch becomes -/

theorem engineStep_trace_of_start {s : State} (h : s.pend = .start) :
    (engineStep s).trace = s.trace ++ [startEvent s.ph] := by
  rw [engineStep_of_start h]
  rfl

theorem engineStep_ph_of_send {s : State} {b : Byte} (h : s.pend = .send b) :
    (engineStep s).ph = if s.ph = .startSent then .addrSent else .dataSent := by
  rw [engineStep_of_send h, completeSend]
  split <;> rfl

/-- The column of a launch evaluates at a row's phase, direction and `RXEND`. -/
theorem State.allows_eq (s : State) (i : Instr) {ph : Phase} {dir : Option Dir} {rxend : Bool}
    (hph : s.ph = ph) (hd : s.dir = dir) (hrx : s.rxend = rxend) :
    s.allows i = (operationOf i).legal ph dir rxend := by
  rw [State.allows, hph, hd, hrx]

section
variable {s : State} (he : s.en = true) (hp : s.pend = .none)
include he hp

/-- A legal `START` is launched, and its completion appends `S` or `Sr` by the phase. -/
theorem start_gives {ph : Phase} (hph : s.ph = ph) (hl : s.allows .start = true) :
    exec .start s = .next { s with pend := .start, done := false, cmds := s.cmds.tail } ∧
    ∀ t, exec .start s = .next t → (engineStep t).trace = s.trace ++ [startEvent ph] := by
  have hx := exec_launch_of_allowed (i := .start) rfl he hp hl
  refine ⟨hx, fun t ht => ?_⟩
  cases hx.symm.trans ht
  rw [engineStep_trace_of_start rfl, hph]

/-- A legal `SEND` is launched, and its completion makes it the address byte or a data byte by the
phase. -/
theorem send_becomes {b : Byte} {q : Phase} (hl : s.allows (.send b) = true)
    (hq : (if s.ph = .startSent then .addrSent else .dataSent) = q) :
    exec (.send b) s = .next { s with pend := .send b, done := false, cmds := s.cmds.tail } ∧
    ∀ t, exec (.send b) s = .next t → (engineStep t).ph = q := by
  have hx := exec_launch_of_allowed (i := .send b) rfl he hp hl
  refine ⟨hx, fun t ht => ?_⟩
  cases hx.symm.trans ht
  exact (engineStep_ph_of_send rfl).trans hq

end

/-- Settles O15: a step with an operation pending by what its command does; each row by the rule of
any launch, whose column of the table evaluates at the row's phase, direction and `RXEND`. -/
theorem phaseTable : Obligations.PhaseTable := by
  unfold Obligations.PhaseTable
  refine ⟨fun s t _ hp he h => phase_kept_while_pending hp he h, fun s b k he hp => ?_⟩
  intro launches violation gives sends
  have allowed {i : Instr} (hi : isLaunch i = true) (hl : s.allows i = true) :
      launches i (operationOf i) := exec_launch_of_allowed hi he hp hl
  have refused {i : Instr} (hi : isLaunch i = true) (hl : s.allows i = false) : violation i :=
    exec_launch_of_not_allowed hi he hp hl
  refine ⟨fun hph => ?idle, fun hph => ?stopSent, fun hph => ?startSent, fun hph hd => ?addrSentW,
    fun hph hd => ?addrSentR, fun hph hd => ?dataSent, fun hph hd hrx => ?dataRcvd,
    fun hph hd hrx => ?dataRcvdLast⟩
  case idle | stopSent =>
    have row (i : Instr) := s.allows_eq i hph rfl rfl
    exact ⟨start_gives he hp hph (row _), refused rfl (row _), refused rfl (row _),
      refused rfl (row _)⟩
  case startSent =>
    have row (i : Instr) := s.allows_eq i hph rfl rfl
    exact ⟨refused rfl (row _), send_becomes he hp (row _) (if_pos hph), refused rfl (row _),
      refused rfl (row _)⟩
  case addrSentW | dataSent =>
    have row (i : Instr) := s.allows_eq i hph hd rfl
    have hnot : s.ph ≠ .startSent := by simp [hph]
    exact ⟨start_gives he hp hph (row _), send_becomes he hp (row _) (if_neg hnot),
      refused rfl (row _), allowed rfl (row _)⟩
  case addrSentR =>
    have row (i : Instr) := s.allows_eq i hph hd rfl
    exact ⟨start_gives he hp hph (row _), refused rfl (row _), allowed rfl (row _),
      allowed rfl (row _)⟩
  case dataRcvd =>
    have row (i : Instr) := s.allows_eq i hph hd hrx
    exact ⟨start_gives he hp hph (row _), refused rfl (row _), allowed rfl (row _),
      allowed rfl (row _)⟩
  case dataRcvdLast =>
    have row (i : Instr) := s.allows_eq i hph hd hrx
    exact ⟨start_gives he hp hph (row _), refused rfl (row _), refused rfl (row _),
      allowed rfl (row _)⟩

end Sys2Proof.Machine
end

section
/-! `WAIT` (spec R67, R118): it holds while `DONE = 0`, and of all steps only a completion sets
`DONE`. Both ways of staying at a `WAIT`, with nothing pending and with an engine that takes no turn,
are said for the host and for the sequencer at once. -/

namespace Sys2Proof.Machine

theorem exec_wait_of_done {s : State} (h : s.done = true) : exec .wait s = .next s.retire := by
  simp [exec, execWait, waitRule, hostResult, h]

theorem waitRule_of_not_done {s : State} (h : s.done = false) : waitRule s = .hold := by
  simp [waitRule, h]

theorem exec_wait_of_not_done {s : State} (h : s.done = false) : exec .wait s = .next s := by
  rw [exec, execWait, waitRule_of_not_done h, hostResult]

/-- Only the engine sets `DONE` (R12). -/
theorem engineMoves_of_done {s t : State} (h : step s = .next t) (hs : s.done = false)
    (ht : t.done = true) : s.EngineMoves := by
  by_contra he
  obtain ⟨hclears, hkeeps, hidle⟩ := (doneChangesOnly s t h).2 he
  have hstays : t.done = false := by
    cases hc : s.current with
    | none => exact (hidle hc).trans hs
    | some i =>
      by_cases hi : isLaunch i = true ∨ i = .disable
      · exact hclears i hc hi
      · obtain ⟨hl, hd⟩ := not_or.1 hi
        exact (hkeeps i hc (Bool.eq_false_iff.2 hl) hd).trans hs
  simp [hstays] at ht

/-! ### Staying at a `WAIT` -/

theorem State.atWait_of_host {s : State} (hm : s.mode = .none)
    (hc : s.cmds.head? = some (encode .wait)) : s.atWait = true := by
  simp [State.atWait, hm, hc]

theorem hostStep_of_wait {s : State} (hc : s.cmds.head? = some (encode .wait)) :
    hostStep s = exec .wait s := by
  obtain ⟨rest, hrest⟩ := List.head?_eq_some_iff.1 hc
  have hd : decode (encode .wait) = .ok .wait := rfl
  simp [hostStep, hrest, hd]

theorem sequencerStep_of_wait {s : State} (hm : s.microOp = some .wait) :
    sequencerStep s = sequencerResult s (waitRule s) := by
  simp [sequencerStep, hm, MicroOp.rule]

/-- At a `WAIT` with `DONE = 0` the command side's step is the hold. -/
theorem commandStep_of_atWait {s : State} (hw : s.atWait = true) (hs : s.done = false) :
    commandStep s = .next s := by
  cases hm : s.mode with
  | none =>
    have hc : s.cmds.head? = some (encode .wait) := by simpa [State.atWait, hm] using hw
    rw [(commandStep_of_host hm).1, hostStep_of_wait hc, exec_wait_of_not_done hs]
  | rd | wr =>
    have hop : s.microOp = some .wait := by simpa [State.atWait, hm] using hw
    rw [(commandStep_of_running (by simp [hm])).1, sequencerStep_of_wait hop,
      waitRule_of_not_done hs, sequencerResult]

theorem State.engineEnabled_iff {s : State} :
    s.engineEnabled = true ↔ s.en = true ∧ s.pend ≠ .none := by
  simp [State.engineEnabled]

/-- With nothing pending, nothing ever lifts the hold. -/
theorem steps_of_waitNoOperation {s : State} (h : s.WaitNoOperation) (n : Nat) :
    steps n s = .next s := by
  obtain ⟨hw, hs, hp⟩ := h
  have hoff : s.engineEnabled = false := by simp [State.engineEnabled, hp]
  refine steps_of_fixed ?_ n
  simp [step, hoff, commandStep_of_atWait hw hs]

/-- A scheduled turn of the command side at a `WAIT` is used up and changes nothing else. -/
theorem step_of_atWait_commandTurn {s : State} {rest : List Turn} (hw : s.atWait = true)
    (hs : s.done = false) (hen : s.engineEnabled = true) (hsched : s.sched = .command :: rest) :
    step s = .next { s with sched := rest } := by
  have hturn : s.nextTurn = .command := by simp [State.nextTurn, hsched]
  have htaken : s.turnTaken = { s with sched := rest } := by simp [State.turnTaken, hsched]
  simp only [step, hen, if_true, hturn, htaken]
  exact commandStep_of_atWait hw hs

/-- While the engine takes no turn, the hold uses up the turns and changes nothing else. -/
theorem steps_of_engineNotReadyFor {s : State} {n : Nat} (h : s.EngineNotReadyFor n) :
    steps n s = .next { s with sched := s.sched.drop n } := by
  induction n generalizing s with
  | zero => rfl
  | succ n ih =>
    obtain ⟨hw, hs, hen, hturns⟩ := h
    cases hsched : s.sched with
    | nil => simp [hsched, List.replicate_succ] at hturns
    | cons turn rest =>
      rw [hsched, List.take_succ_cons, List.replicate_succ, List.cons.injEq] at hturns
      obtain ⟨rfl, hrest⟩ := hturns
      have hnext : State.EngineNotReadyFor n { s with sched := rest } := ⟨hw, hs, hen, hrest⟩
      rw [steps_succ_next (step_of_atWait_commandTurn hw hs hen hsched), ih hnext]
      rfl

end Sys2Proof.Machine

namespace Sys2Proof.Laws
open Sys2Proof.Machine

/-- Settles O16: `WAIT` itself by its rule, what lifts the hold by what sets `DONE`, and the two ways
of staying by the lemmas above at the host's `WAIT`. -/
theorem waitRule : Obligations.WaitRule := by
  unfold Obligations.WaitRule
  refine ⟨rfl, fun s => exec_wait_of_done, fun s => exec_wait_of_not_done,
    fun s t h hs ht => ?lifts, fun s n hm hc hs hp => ?free,
    fun s n hm hc hs he hp hsched => ?pending⟩
  case lifts =>
    have hmoves := engineMoves_of_done h hs ht
    exact ⟨hmoves, State.engineEnabled_iff.1 hmoves.1⟩
  case free => exact steps_of_waitNoOperation ⟨State.atWait_of_host hm hc, hs, hp⟩ n
  case pending =>
    exact steps_of_engineNotReadyFor
      ⟨State.atWait_of_host hm hc, hs, State.engineEnabled_iff.2 ⟨he, hp⟩, hsched⟩

end Sys2Proof.Laws
end

section
/-! `DISABLE`, `ENABLE` and the bus reset (spec R80 to R82): `executed_disable` says the reset of the
transport as one record update, from which the rule of `DISABLE` and the net effect of
`DISABLE ; ENABLE` (`State.busReset`) are read off. -/

namespace Sys2Proof.Machine

/-! ### `DISABLE` and `ENABLE` -/

/-- When `DISABLE` records `Rel`, as R80 writes it. -/
theorem State.wiresHeld_iff {s : State} :
    s.wiresHeld = true ↔ s.pend ≠ .none ∨ s.ph ∉ [.idle, .stopSent] := by
  rw [State.wiresHeld, Bool.or_eq_true, bne_iff_ne, Bool.not_eq_true', ← Bool.not_eq_true,
    Phase.released_iff]

/-- `Rel` and the device's hearing it are the only part of `DISABLE` that depends on the state. -/
theorem State.executed_disable (s : State) :
    s.executed .disable =
      { s.switchedOff with
        trace := if s.wiresHeld then s.trace ++ [WireEvent.release] else s.trace,
        dev := if s.wiresHeld then s.dev.hear s.trace .release else s.dev } := by
  rw [State.executed]
  cases s.wiresHeld <;> rfl

theorem exec_disable (s : State) : exec .disable s = .next (s.executed .disable).retire := rfl

theorem exec_enable (s : State) : exec .enable s = .next (s.executed .enable).retire := rfl

/-! ### The host's step at a word that decodes -/

theorem hostStep_of_decode_ok {s : State} {w : Command} {rest : List Command} {i : Instr}
    (hc : s.cmds = w :: rest) (hd : decode w = .ok i) : hostStep s = exec i s := by
  simp [hostStep, hc, hd]

/-- With the engine not enabled there is no turn to take, and the host executes its command. -/
theorem step_of_engineOff {s : State} {w : Command} {rest : List Command} {i : Instr}
    (hoff : s.engineEnabled = false) (hm : s.mode = .none) (hc : s.cmds = w :: rest)
    (hd : decode w = .ok i) : step s = exec i s := by
  simp [step, hoff, (commandStep_of_host hm).1, hostStep_of_decode_ok hc hd]

/-- Where the host moves, its command is executed, in the state itself or after taking the turn. -/
theorem step_of_decode_ok {s : State} {w : Command} {rest : List Command} {i : Instr}
    (hm : s.mode = .none) (he : ¬ s.EngineMoves) (hc : s.cmds = w :: rest)
    (hd : decode w = .ok i) : ∃ u, (u = s ∨ u = s.turnTaken) ∧ step s = exec i u := by
  rcases step_of_command he with ⟨hoff, -⟩ | ⟨-, hs⟩
  · exact ⟨s, .inl rfl, step_of_engineOff hoff hm hc hd⟩
  · refine ⟨s.turnTaken, .inr rfl, ?_⟩
    rw [hs, (commandStep_of_host (s.turnTaken_mode.trans hm)).1]
    exact hostStep_of_decode_ok (s.turnTaken_cmds.trans hc) hd

/-! ### The bus reset -/

/-- The state after `DISABLE` and `ENABLE` have retired. -/
def State.busReset (s : State) : State :=
  ((s.executed .disable).retire.executed .enable).retire

/-- The net effect of the bus reset as one record update; what it does not name is unchanged. -/
theorem State.busReset_eq (s : State) :
    s.busReset =
      { s with
        en := true, pend := .none, done := false, ph := .idle, dir := none, rxend := false,
        data := .unspecified, cmds := s.cmds.tail.tail,
        trace := if s.wiresHeld then s.trace ++ [WireEvent.release] else s.trace,
        dev := if s.wiresHeld then s.dev.hear s.trace .release else s.dev } := by
  rw [State.busReset, State.executed_disable]
  rfl

/-- `DISABLE` leaves the engine off, so that `ENABLE` is the very next step. -/
theorem steps_of_busreset {s : State} {rest : List Command} (hm : s.mode = .none)
    (he : ¬ s.EngineMoves) (hc : s.cmds = encode .disable :: encode .enable :: rest) :
    ∃ u, (u = s ∨ u = s.turnTaken) ∧ steps 2 s = .next u.busReset := by
  obtain ⟨u, hu, hdisable⟩ := step_of_decode_ok hm he hc (i := .disable) rfl
  have hmode : u.mode = .none := by rcases hu with rfl | rfl <;> simp [hm]
  have hcmds : u.cmds = encode .disable :: encode .enable :: rest := by
    rcases hu with rfl | rfl <;> simp [hc]
  have hoff : (u.executed .disable).retire.engineEnabled = false := by
    rw [State.executed_disable]; rfl
  have henable : step (u.executed .disable).retire = exec .enable (u.executed .disable).retire :=
    step_of_engineOff (w := encode .enable) (rest := rest) hoff
      (by simp [State.executed_disable, hmode]) (by simp [State.executed_disable, hcmds]) rfl
  refine ⟨u, hu, ?_⟩
  rw [steps_succ_next (hdisable.trans (exec_disable u)),
    steps_succ_next (henable.trans (exec_enable _)), steps_zero]
  rfl

end Sys2Proof.Machine

namespace Sys2Proof.Laws
open Sys2Proof.Machine

/-! ### The three rules, named as they are; `Machine` holds definitions of the first two names -/

/-- Settles O19: the record update of `DISABLE`, with `Rel` by whether the wires are held. -/
theorem disableRule : Obligations.DisableRule := by
  unfold Obligations.DisableRule
  refine ⟨rfl, fun s => ⟨fun hheld => ?held, fun hp hph => ?free⟩⟩
  case held =>
    have hw : s.wiresHeld = true := State.wiresHeld_iff.2 hheld
    rw [exec_disable, State.executed_disable, if_pos hw, if_pos hw]
    rfl
  case free =>
    have hw : ¬ s.wiresHeld = true :=
      mt State.wiresHeld_iff.1 (not_or.2 ⟨not_not_intro hp, not_not_intro hph⟩)
    rw [exec_disable, State.executed_disable, if_neg hw, if_neg hw]
    rfl

/-- Settles O20: `ENABLE` has no check, and its rule is the record update. -/
theorem enableRule : Obligations.EnableRule := by
  unfold Obligations.EnableRule
  exact ⟨rfl, exec_enable⟩

/-- Settles O21: the micro-programs are read off; the two steps end in `State.busReset` of the state
itself or of the state with the turn taken, which agree in every field named. -/
theorem busResetEffect : Obligations.BusResetEffect := by
  unfold Obligations.BusResetEffect
  refine ⟨rfl, rfl, by decide, by decide, fun s rest hm he hc => ?_⟩
  obtain ⟨u, hu, hsteps⟩ := steps_of_busreset hm he hc
  refine ⟨u.busReset, hsteps, ?_⟩
  rw [State.busReset_eq]
  rcases hu with rfl | rfl <;> simp [State.wiresHeld_iff, hc, hm]

end Sys2Proof.Laws
end

section
/-! The transactions as the host presents them and as the sequencer runs and finishes them (spec
R91, R94, R95). -/

namespace Sys2Proof.Machine

/-! ### Presenting a transaction (R91) -/

/-- Both transactions make the same checks and differ in what they write (R92, R93). -/
theorem exec_of_isTransaction {i : Instr} (h : isTransaction i = true) (s : State) :
    exec i s = present i.cmd (s.executed i) s := by
  cases i with
  | rdreg | wrreg => rfl
  | start | send | recv | wait | getdata | stop | disable | enable => cases h

theorem present_of_disabled {c : Cmd} {u s : State} (he : s.en = false) :
    present c u s = .fault (.disabled c) := by
  rw [present, enabledAndFree_eq_some.2 (.inl ⟨he, rfl⟩)]

theorem present_of_busy {c : Cmd} {u s : State} (he : s.en = true) (hp : s.pend ≠ .none) :
    present c u s = .fault (.busy c s.pend) := by
  rw [present, enabledAndFree_eq_some.2 (.inr ⟨he, hp, rfl⟩)]

theorem present_of_open {c : Cmd} {u s : State} (he : s.en = true) (hp : s.pend = .none)
    (hph : s.ph.released ≠ true) : present c u s = .fault (.transactionOpen c s.ph) := by
  rw [present, enabledAndFree_eq_none.2 ⟨he, hp⟩]
  exact if_neg hph

/-- What a presented transaction leaves is a transaction at `STEP` 0, with the host's list and the
transport as they were. -/
theorem State.executed_transaction {i : Instr} (h : isTransaction i = true) (s : State) :
    (s.executed i).mode ≠ .none ∧ (s.executed i).stepIx = 0 ∧ (s.executed i).cmds = s.cmds ∧
    (s.executed i).view = s.view := by
  cases i with
  | rdreg | wrreg => exact ⟨nofun, rfl, rfl, rfl⟩
  | start | send | recv | wait | getdata | stop | disable | enable => cases h

/-- Settles O22: the checks of a presentation in their order, and the state it leaves. -/
theorem transactionChecks : Obligations.TransactionChecks := by
  unfold Obligations.TransactionChecks
  intro i s hi
  rw [exec_of_isTransaction hi]
  refine ⟨present_of_disabled, present_of_busy,
    fun he hp hph => present_of_open he hp (mt Phase.released_iff.1 hph), fun he hp hph => ?_⟩
  exact ⟨s.executed i, present_eq_next.2 ⟨he, hp, Phase.released_iff.2 hph, rfl⟩,
    s.executed_transaction hi⟩

/-! ### Finishing a transaction (R95) -/

theorem State.finish_of_rd {s : State} (h : s.mode = .rd) :
    s.finish = { s with mode := .none, stepIx := 0, cmds := s.cmds.tail,
                        returned := s.returned ++ [s.res] } := by
  rw [State.finish, h]
  rfl

theorem State.finish_of_wr {s : State} (h : s.mode = .wr) :
    s.finish = { s with mode := .none, stepIx := 0, cmds := s.cmds.tail } := by
  rw [State.finish, h]
  rfl

/-- Settles O25: finishing is a record update for each transaction. -/
theorem finishingRetires : Obligations.FinishingRetires := by
  unfold Obligations.FinishingRetires
  exact fun s => ⟨State.finish_of_rd, State.finish_of_wr⟩

/-! ### One micro-operation (R94) -/

theorem sequencerStep_of_microOp {s : State} {m : MicroOp} (h : s.microOp = some m) :
    sequencerStep s = sequencerResult s (m.rule s) := by
  rw [sequencerStep, h]

theorem exec_command (m : MicroOp) (s : State) :
    exec (m.command s) s = hostResult s (m.rule s) :=
  exec_of_ruleOf (ruleOf_command m s)

theorem rule_eq_raise_of_exec_fault {m : MicroOp} {s : State} {f : Fault}
    (h : exec (m.command s) s = .fault f) : m.rule s = .raise f := by
  rw [exec_command] at h
  cases hr : m.rule s <;> rw [hr] at h <;> cases h
  rfl

theorem MicroOp.eq_wait_of_command {m : MicroOp} {s : State} (h : m.command s = .wait) :
    m = .wait := by
  cases m with
  | wait => rfl
  | start | send | recv | getdata | stop | disable | enable => cases h

/-- `GETDATA` does not retire without its byte. -/
theorem ne_getdata_of_rule_retire {m : MicroOp} {s t : State} (h : m.rule s = .retire t) :
    m ≠ .getdata := by
  rintro rfl
  rcases getdataRule_cases s with ⟨-, hr⟩ | ⟨-, hr⟩ <;> rw [MicroOp.rule, hr] at h <;> cases h

theorem launch_ne_retireWith {c : Cmd} {legal : Bool} {p : Pend} {s : State} (b : Byte)
    (t : State) : launch c legal p s ≠ .retireWith b t := by
  rcases launch_cases (c := c) (legal := legal) (p := p) (s := s) with hl | hl | hl | hl <;>
    simp [hl]

/-- Only `GETDATA` returns a byte. -/
theorem eq_getdata_of_rule_retireWith {m : MicroOp} {s t : State} {b : Byte}
    (h : m.rule s = .retireWith b t) : m = .getdata := by
  cases m with
  | start | send | recv | stop => exact absurd h (launch_ne_retireWith b t)
  | wait =>
    simp only [MicroOp.rule, waitRule] at h
    split at h <;> cases h
  | getdata => rfl
  | disable | enable => cases h

/-- Where the host command of the same name leaves `u`, the sequencer takes over what `u` says of
the block, gives `GETDATA`'s byte to `RES`, and advances. -/
theorem sequencerStep_of_exec_next {s u : State} {m : MicroOp} (hm : s.microOp = some m)
    (hw : m ≠ .wait ∨ s.done = true) (hx : exec (m.command s) s = .next u) :
    sequencerStep s = .next (State.advance
      { u with cmds := s.cmds, returned := s.returned,
               res := if m = .getdata then u.returned.getLast?.getD s.res else s.res }) ∧
    u.mode = s.mode ∧ u.stepIx = s.stepIx := by
  rw [exec_command] at hx
  rw [sequencerStep_of_microOp hm]
  rcases hostResult_eq_next.1 hx with ⟨t, hr, rfl⟩ | ⟨b, t, hr, rfl⟩ | ⟨hr, -⟩
  · obtain ⟨hmode, hix, -, -, hres, hcmds, hret, -⟩ := rule_frame (congrArg Act.state? hr)
    rw [hr, if_neg (ne_getdata_of_rule_retire hr), ← hcmds, ← hret, ← hres]
    exact ⟨rfl, hmode, hix⟩
  · obtain ⟨hmode, hix, -, -, -, hcmds, hret, -⟩ := rule_frame (congrArg Act.state? hr)
    rw [hr, if_pos (eq_getdata_of_rule_retireWith hr), ← hcmds, ← hret, State.retireWith_returned,
      List.getLast?_concat]
    exact ⟨rfl, hmode, hix⟩
  · have hwait : m = .wait :=
      MicroOp.eq_wait_of_command
        (eq_wait_of_ruleOf_hold ((ruleOf_command m s).trans (congrArg some hr)))
    have hdone : s.done = true := hw.resolve_left (not_not_intro hwait)
    rw [hwait, MicroOp.rule, waitRule, if_pos hdone] at hr
    cases hr

/-- The lengths of the two micro-programs. -/
theorem Mode.length_program {d : Mode} (h : d ≠ .none) :
    d.program.length = if d = .rd then 17 else 10 := by
  cases d with
  | none => exact absurd rfl h
  | rd | wr => rfl

/-- Settles O24: a rule that raises, raises for both; a `WAIT` with `DONE = 0` holds; everything
else is the advance from the host's next state. -/
theorem sequencerRunsHostRules : Obligations.SequencerRunsHostRules := by
  unfold Obligations.SequencerRunsHostRules
  intro s m hmode hm
  refine ⟨(commandStep_of_running hmode).1, fun f hf => ?fault, fun hw hd => ?hold,
    fun u hw hx => ?next⟩
  case fault => rw [sequencerStep_of_microOp hm, rule_eq_raise_of_exec_fault hf, sequencerResult]
  case hold =>
    subst hw
    rw [sequencerStep_of_wait hm, waitRule_of_not_done hd, sequencerResult]
  case next =>
    obtain ⟨hstep, hmu, hiu⟩ := sequencerStep_of_exec_next hm hw hx
    rw [hstep, State.advance, hmu, hiu, Mode.length_program hmode]
    exact ⟨fun hlt => by rw [if_pos hlt], fun hlt => by rw [if_neg hlt]⟩

end Sys2Proof.Machine
end

section
/-! A transaction on any schedule (spec R94, R96). The course of a transaction is the list of the
states it goes through when the engine completes each operation at once: a point of the course, the
micro-operation there, and the next point (`State.Leads`). On every schedule the run is at a point
of the course, or at the `WAIT` of a point with the operation still pending (`State.Follows`), turns
and draws apart; no step leaves the course. -/

namespace Sys2Proof.Machine

/-! ### The part of a state that is not the transport's -/

/-- The sequencer's registers and the host's side. With `Transport`, the turns and the draws these
are all fields of a state. -/
structure OffBus where
  mode : Mode
  stepIx : BitVec 5
  ra : Byte
  rv : Byte
  res : Byte
  cmds : List Command
  returned : List Byte

/-- That part of a state. -/
def State.offBus (s : State) : OffBus :=
  { mode := s.mode, stepIx := s.stepIx, ra := s.ra, rv := s.rv, res := s.res, cmds := s.cmds,
    returned := s.returned }

theorem State.offBus_eq_iff {s t : State} :
    t.offBus = s.offBus ↔
      t.mode = s.mode ∧ t.stepIx = s.stepIx ∧ t.ra = s.ra ∧ t.rv = s.rv ∧ t.res = s.res ∧
      t.cmds = s.cmds ∧ t.returned = s.returned := by
  simp [State.offBus]

@[simp] theorem State.turnTaken_offBus (s : State) : s.turnTaken.offBus = s.offBus := by
  simp [State.offBus_eq_iff]

@[simp] theorem State.engineStep_offBus (s : State) : (engineStep s).offBus = s.offBus := by
  obtain ⟨-, hmode, hix, hra, hrv, hres, hcmds, hret, -⟩ := engineStep_frame s
  exact State.offBus_eq_iff.2 ⟨hmode, hix, hra, hrv, hres, hcmds, hret⟩

/-- Only a transaction's presentation touches it before the command retires. -/
theorem State.executed_offBus {i : Instr} (h : isTransaction i = false) (s : State) :
    (s.executed i).offBus = s.offBus := by
  cases i with
  | disable => simp only [State.executed]; split <;> rfl
  | getdata => simp [State.executed, State.offBus_eq_iff]
  | start | send | recv | stop | wait | enable => rfl
  | rdreg | wrreg => cases h

/-- Advancing touches nothing else, and depends on nothing else. -/
theorem State.advance_offBus_congr {s t : State} (h : t.offBus = s.offBus) :
    t.advance.offBus = s.advance.offBus := by
  obtain ⟨hmode, hix, hra, hrv, hres, hcmds, hret⟩ := State.offBus_eq_iff.1 h
  rw [State.offBus_eq_iff, State.advance, State.advance, hmode, hix]
  split
  · exact ⟨rfl, rfl, hra, hrv, hres, hcmds, hret⟩
  · rw [State.finish, State.finish, hmode]
    cases hm : s.mode <;> simp [hra, hrv, hres, hcmds, hret, hm, hix, hmode]

theorem State.advance_mode (s : State) : s.advance.mode = s.mode ∨ s.advance.mode = .none := by
  unfold State.advance
  split
  · exact .inl rfl
  · cases hm : s.mode with
    | none => exact .inl (by rw [State.finish, hm]; exact hm)
    | rd | wr => exact .inr (by rw [State.finish, hm]; rfl)

theorem State.microOp_congr {s t : State} (h : t.offBus = s.offBus) : t.microOp = s.microOp := by
  obtain ⟨hmode, hix, -⟩ := State.offBus_eq_iff.1 h
  rw [State.microOp, State.microOp, hmode, hix]

theorem State.mode_ne_none_of_microOp {s : State} {m : MicroOp} (h : s.microOp = some m) :
    s.mode ≠ .none := by
  intro hm
  simp [State.microOp, hm, Mode.program] at h

/-! ### Completions and the transport -/

theorem engineStep_of_free {s : State} (h : s.pend = .none) : engineStep s = s := by
  simp [engineStep, h]

/-- What a completion does to the transport depends on the transport alone. -/
theorem engineStep_transport_congr {s t : State} (h : t.transport = s.transport) :
    (engineStep t).transport = (engineStep s).transport := by
  obtain ⟨hen, hdone, hpend, hph, hdir, hrxend, hdata, htrace, hdev⟩ := State.transport_eq_iff.1 h
  rw [State.transport_eq_iff]
  cases hp : s.pend with
  | none => simp [engineStep, hpend, hp, hen, hdone, hph, hdir, hrxend, hdata, htrace, hdev]
  | start => simp [engineStep, completeStart, hpend, hp, hen, hph, hdata, htrace, hdev]
  | send b =>
    simp only [engineStep, completeSend, hpend, hp, hph]
    split <;> simp [hen, hdir, hrxend, hdata, htrace, hdev]
  | recv k => simp [engineStep, completeRecv, hpend, hp, hen, hdir, htrace, hdev]
  | stop => simp [engineStep, completeStop, hpend, hp, hen, hdata, htrace, hdev]

theorem engineStep_pend (s : State) : (engineStep s).pend = .none := by
  unfold engineStep
  split
  · assumption
  · rfl
  · rw [completeSend]; split <;> rfl
  · rfl
  · rfl

/-! ### One point of a course -/

/-- The state a micro-operation leaves when its checks pass (R94). -/
def State.performed (s : State) (m : MicroOp) : State :=
  State.advance
    { s.executed (m.command s) with res := if m = .getdata then s.readData.1 else s.res }

/-- The micro-operation neither raises nor holds, and `GETDATA` finds a latched byte. -/
structure State.CanPerform (s : State) (m : MicroOp) : Prop where
  launches : isLaunch (m.command s) = true → s.MayLaunch (operationOf (m.command s))
  waited : m = .wait → s.done = true
  latched : m = .getdata → ∃ b, s.data = .latched b

theorem rule_of_isLaunch {m : MicroOp} {s : State} (h : isLaunch (m.command s) = true) :
    m.rule s = launch (m.command s).cmd (s.allows (m.command s)) (operationOf (m.command s)) s := by
  cases m with
  | start | send | recv | stop => rfl
  | wait | getdata | disable | enable => cases h

theorem MicroOp.not_isTransaction (m : MicroOp) (s : State) :
    isTransaction (m.command s) = false := by
  cases m <;> rfl

theorem State.executed_command_offBus (m : MicroOp) (s : State) :
    (s.executed (m.command s)).offBus = s.offBus :=
  State.executed_offBus (m.not_isTransaction s) s

/-- The state performed is that of the host command, advanced; only `GETDATA` writes `RES`. -/
theorem State.performed_of_ne_getdata {s : State} {m : MicroOp} (hg : m ≠ .getdata) :
    s.performed m = (s.executed (m.command s)).advance := by
  have hres : (s.executed (m.command s)).res = s.res :=
    congrArg OffBus.res (State.executed_command_offBus m s)
  rw [State.performed, if_neg hg, ← hres]

/-- A micro-operation that is no launch and reads nothing has only the check of `WAIT`. -/
theorem State.CanPerform.of_quiet {s : State} {m : MicroOp} (hl : isLaunch (m.command s) = false)
    (hg : m ≠ .getdata) (hdone : m = .wait → s.done = true) : s.CanPerform m where
  launches h := by simp [hl] at h
  waited := hdone
  latched h := absurd h hg

theorem State.CanPerform.rule {s : State} {m : MicroOp} (h : s.CanPerform m) (hg : m ≠ .getdata) :
    m.rule s = .retire (s.executed (m.command s)) := by
  cases hl : isLaunch (m.command s) with
  | true =>
    obtain ⟨hen, hfree, hlegal⟩ := h.launches hl
    rw [rule_of_isLaunch hl, State.executed_of_isLaunch hl]
    exact launch_eq_retire.2 ⟨hen, hfree, hlegal, rfl⟩
  | false =>
    cases m with
    | start | send | recv | stop => cases hl
    | wait => exact if_pos (h.waited rfl)
    | getdata => exact absurd rfl hg
    | disable | enable => rfl

theorem sequencerStep_of_canPerform {s : State} {m : MicroOp} (hm : s.microOp = some m)
    (hp : s.pend = .none) (h : s.CanPerform m) : sequencerStep s = .next (s.performed m) := by
  rw [sequencerStep_of_microOp hm]
  by_cases hg : m = .getdata
  · rw [hg, MicroOp.rule, getdataRule, if_pos hp]
    rfl
  · rw [h.rule hg, State.performed_of_ne_getdata hg, sequencerResult]

/-- From the point `x` with the micro-operation `m` the course goes to `y`, a launch to its `WAIT`.
-/
structure State.Leads (x : State) (m : MicroOp) (y : State) : Prop where
  op : x.microOp = some m
  free : x.pend = .none
  can : x.CanPerform m
  next : engineStep (x.performed m) = y
  waits : isLaunch (m.command x) = true → y.microOp = some .wait

theorem State.Leads.mode {x y : State} {m : MicroOp} (h : x.Leads m y) :
    y.mode = x.mode ∨ y.mode = .none := by
  have hexecuted : (x.executed (m.command x)).mode = x.mode :=
    congrArg OffBus.mode (State.executed_command_offBus m x)
  have hperformed : y.mode = (x.performed m).mode :=
    h.next ▸ congrArg OffBus.mode (x.performed m).engineStep_offBus
  rw [hperformed, ← hexecuted]
  exact State.advance_mode _

/-- `s` is at the point `x`, or at its `WAIT` with the operation still pending; turns and draws do
not matter. -/
structure State.Follows (s x : State) : Prop where
  bus : (engineStep s).transport = x.transport
  offBus : s.offBus = x.offBus
  pending : s.pend ≠ .none → s.microOp = some .wait ∧ s.done = false

theorem State.Follows.refl {x : State} (h : x.pend = .none) : x.Follows x where
  bus := by rw [engineStep_of_free h]
  offBus := rfl
  pending hp := absurd h hp

theorem State.Follows.transport {s x : State} (h : s.Follows x) (hp : s.pend = .none) :
    s.transport = x.transport := by
  rw [← h.bus, engineStep_of_free hp]

theorem State.Follows.turnTaken {s x : State} (h : s.Follows x) : s.turnTaken.Follows x where
  bus := (engineStep_transport_congr s.turnTaken_transport).trans h.bus
  offBus := s.turnTaken_offBus.trans h.offBus
  pending hp := by
    rw [State.microOp_congr s.turnTaken_offBus, State.turnTaken_done]
    exact h.pending (by simpa using hp)

theorem State.Follows.engineStep {s x : State} (h : s.Follows x) : (engineStep s).Follows x where
  bus := by rw [engineStep_of_free (engineStep_pend s)]; exact h.bus
  offBus := s.engineStep_offBus.trans h.offBus
  pending hp := absurd (engineStep_pend s) hp

/-! ### Performing at a point -/

/-- A micro-operation with nothing pending leaves something pending only when it is a launch. -/
theorem State.executed_pend_of_not_launch {i : Instr} (hl : isLaunch i = false) {s : State}
    (hp : s.pend = .none) : (s.executed i).pend = .none := by
  cases i with
  | start | send | recv | stop => cases hl
  | disable => rw [State.executed_disable]; rfl
  | getdata => simpa [State.executed] using hp
  | wait | enable | rdreg | wrreg => exact hp

theorem MicroOp.command_congr {s x : State} (hoff : s.offBus = x.offBus) (m : MicroOp) :
    m.command s = m.command x := by
  obtain ⟨-, -, hra, hrv, -⟩ := State.offBus_eq_iff.1 hoff
  cases m with
  | send src => cases src <;> simp [MicroOp.command, ByteSource.value, hra, hrv]
  | start | recv | wait | getdata | stop | disable | enable => rfl

section
variable {s x : State} (htr : s.transport = x.transport) (hoff : s.offBus = x.offBus)
include htr hoff

theorem State.CanPerform.congr {m : MicroOp} (h : x.CanPerform m) : s.CanPerform m := by
  obtain ⟨hen, hdone, hpend, hph, hdir, hrxend, hdata, -⟩ := State.transport_eq_iff.1 htr
  obtain ⟨hlaunches, hwaited, hlatched⟩ := h
  refine ⟨fun hl => ?_, fun hm => hdone.trans (hwaited hm), fun hm => ?_⟩
  · rw [MicroOp.command_congr hoff] at hl ⊢
    obtain ⟨he, hf, hlegal⟩ := hlaunches hl
    exact ⟨hen.trans he, hpend.trans hf, by rw [hph, hdir, hrxend, hlegal]⟩
  · rw [hdata]
    exact hlatched hm

theorem State.performed_transport_congr (m : MicroOp) :
    (s.performed m).transport = (x.performed m).transport := by
  rw [State.performed, State.performed, State.advance_transport, State.advance_transport,
    MicroOp.command_congr hoff]
  exact State.executed_transport_congr htr _

theorem State.performed_offBus_congr {m : MicroOp} (h : x.CanPerform m) :
    (s.performed m).offBus = (x.performed m).offBus := by
  refine State.advance_offBus_congr ?_
  have hs := State.executed_command_offBus m s
  have hx := State.executed_command_offBus m x
  have hsame := State.offBus_eq_iff.1 (hs.trans (hoff.trans hx.symm))
  obtain ⟨hmode, hix, hra, hrv, -, hcmds, hret⟩ := hsame
  obtain ⟨-, -, -, -, hres, -⟩ := State.offBus_eq_iff.1 hoff
  refine State.offBus_eq_iff.2 ⟨hmode, hix, hra, hrv, ?_, hcmds, hret⟩
  split
  · next hm =>
    obtain ⟨b, hb⟩ := h.latched hm
    have hdata : s.data = .latched b := (congrArg Transport.data htr).trans hb
    rw [State.readData_latched hb, State.readData_latched hdata]
  · exact hres

end

/-! ### One step on a course -/

/-- The command side at a `WAIT` with the operation pending holds; at a point it performs the
micro-operation and is then at the next point, or at its `WAIT`. -/
theorem State.Follows.commandStep {s x y : State} {m : MicroOp} (h : s.Follows x)
    (hl : x.Leads m y) :
    ∃ t, Machine.commandStep s = .next t ∧ (t.Follows x ∨ t.Follows y) := by
  have hop : s.microOp = some m := (State.microOp_congr h.offBus).trans hl.op
  rw [(commandStep_of_running (State.mode_ne_none_of_microOp hop)).1]
  by_cases hp : s.pend = .none
  · have htr := h.transport hp
    have hoff : (s.performed m).offBus = y.offBus := by
      rw [← hl.next, State.engineStep_offBus]
      exact State.performed_offBus_congr htr h.offBus hl.can
    refine ⟨s.performed m,
      sequencerStep_of_canPerform hop hp (hl.can.congr htr h.offBus), .inr ⟨?bus, hoff, ?pending⟩⟩
    case bus =>
      rw [← hl.next]
      exact engineStep_transport_congr (State.performed_transport_congr htr h.offBus m)
    case pending =>
      intro hpend
      have hperformed : (s.performed m).transport = (s.executed (m.command s)).transport :=
        State.advance_transport _
      have hlaunch : isLaunch (m.command s) = true := by
        by_contra hn
        exact hpend ((congrArg Transport.pend hperformed).trans
          (State.executed_pend_of_not_launch (Bool.eq_false_iff.2 hn) hp))
      rw [State.microOp_congr hoff]
      exact ⟨hl.waits (MicroOp.command_congr h.offBus m ▸ hlaunch),
        (congrArg Transport.done hperformed).trans
          (State.executed_done_of_clears (.inl hlaunch) s)⟩
  · obtain ⟨hwait, hdone⟩ := h.pending hp
    refine ⟨s, ?_, .inl h⟩
    rw [sequencerStep_of_wait hwait, waitRule_of_not_done hdone, sequencerResult]

/-- No step leaves the course, whoever takes it. -/
theorem State.Follows.step {s x y : State} {m : MicroOp} (h : s.Follows x) (hl : x.Leads m y) :
    ∃ t, Machine.step s = .next t ∧ (t.Follows x ∨ t.Follows y) := by
  rcases step_cases s with ⟨-, -, hs⟩ | ⟨-, -, hs⟩ | ⟨-, hs⟩ <;> rw [hs]
  · exact ⟨_, rfl, .inl h.turnTaken.engineStep⟩
  · exact h.turnTaken.commandStep hl
  · exact h.commandStep hl

/-! ### Whole courses -/

/-- The points 0 to `n` of a course, the last one with no transaction running. -/
structure Course (n : Nat) (c : Nat → State) : Prop where
  leads : ∀ k, k < n → ∃ m, (c k).Leads m (c (k + 1))
  ends : (c n).mode = .none

section
variable {n : Nat} {c : Nat → State} (hc : Course n c)
include hc

theorem Course.mode_ne_none {k : Nat} (hk : k < n) : (c k).mode ≠ .none := by
  obtain ⟨m, hl⟩ := hc.leads k hk
  exact State.mode_ne_none_of_microOp hl.op

/-- Up to its last point the same transaction runs. -/
theorem Course.mode_eq {k : Nat} (hk : k < n) : (c k).mode = (c 0).mode := by
  induction k with
  | zero => rfl
  | succ k ih =>
    obtain ⟨m, hl⟩ := hc.leads k (by omega)
    have hkeeps := hl.mode.resolve_right (hc.mode_ne_none hk)
    exact hkeeps.trans (ih (by omega))

/-- A run that follows the course has finished exactly at its last point. -/
theorem Course.last_iff {k : Nat} (hk : k ≤ n) {t : State} (ht : t.Follows (c k)) :
    t.mode = .none ↔ k = n := by
  have hmode : t.mode = (c k).mode := congrArg OffBus.mode ht.offBus
  constructor
  · intro hm
    by_contra hne
    exact hc.mode_ne_none (by omega) (hmode.symm.trans hm)
  · rintro rfl
    exact hmode.trans hc.ends

/-- As long as the transaction runs, every step has a next state, and that follows the course. -/
theorem Course.follows_steps (hfree : (c 0).pend = .none) {j : Nat}
    (hrun : ∀ m u, m < j → steps m (c 0) = .next u → u.mode ≠ .none) :
    ∃ t k, steps j (c 0) = .next t ∧ k ≤ n ∧ t.Follows (c k) := by
  induction j with
  | zero => exact ⟨c 0, 0, rfl, Nat.zero_le n, .refl hfree⟩
  | succ j ih =>
    obtain ⟨u, k, hu, hk, hfollows⟩ := ih fun m v hm hv => hrun m v (by omega) hv
    have hlt : k < n := by
      have hne := mt (hc.last_iff hk hfollows).2 (hrun j u (Nat.lt_succ_self j) hu)
      omega
    obtain ⟨m, hl⟩ := hc.leads k hlt
    obtain ⟨t, hstep, ht⟩ := hfollows.step hl
    have hsteps := steps_succ_last.2 ⟨u, hu, hstep⟩
    rcases ht with ht | ht
    · exact ⟨t, k, hsteps, hk, ht⟩
    · exact ⟨t, k + 1, hsteps, hlt, ht⟩

/-- With no transaction running nothing is pending at the last point. -/
theorem Course.follows_last {t : State} (ht : t.Follows (c n)) :
    t.transport = (c n).transport ∧ t.offBus = (c n).offBus := by
  refine ⟨ht.transport ?_, ht.offBus⟩
  by_contra hp
  exact State.mode_ne_none_of_microOp (ht.pending hp).1
    ((congrArg OffBus.mode ht.offBus).trans hc.ends)

/-- In whatever step the transaction first finishes, it is at the last point. -/
theorem Course.finishes (hfree : (c 0).pend = .none) {j : Nat} {t : State}
    (h : FinishesAt j (c 0) t) :
    t.transport = (c n).transport ∧ t.offBus = (c n).offBus := by
  obtain ⟨hsteps, hmode, hrun⟩ := h
  obtain ⟨u, k, hu, hk, hfollows⟩ := hc.follows_steps hfree hrun
  cases hsteps.symm.trans hu
  obtain rfl := (hc.last_iff hk hfollows).1 hmode
  exact hc.follows_last hfollows

end

end Sys2Proof.Machine
end

section
/-! The courses of the two transactions (spec R92, R93) and the rows of R96 along them. -/

namespace Sys2Proof.Machine

/-! ### What a row and the checks say, by name -/

theorem State.At.en {x : State} {ph : Phase} {dir : Option Dir} {rxend : Bool}
    (h : x.At ph dir rxend) : x.en = true := h.1

theorem State.At.free {x : State} {ph : Phase} {dir : Option Dir} {rxend : Bool}
    (h : x.At ph dir rxend) : x.pend = .none := h.2.1

theorem State.PassesR91.en {x : State} (h : x.PassesR91) : x.en = true := h.1

theorem State.PassesR91.free {x : State} (h : x.PassesR91) : x.pend = .none := h.2.1

theorem State.PassesR91.released {x : State} (h : x.PassesR91) : x.ph.released = true := h.2.2

/-- Where the checks pass, the phase table allows `START` (R62). -/
theorem State.PassesR91.mayLaunch_start {x : State} (h : x.PassesR91) : x.MayLaunch .start := by
  refine ⟨h.en, h.free, startLegal_iff.2 fun hph => ?_⟩
  have hreleased := h.released
  rw [hph] at hreleased
  cases hreleased

/-! ### An operation launched and completed -/

/-- A launch of `p` and its completion, with nothing between them (R61, R69). -/
def State.did (s : State) (p : Pend) : State := engineStep (s.launched p)

@[simp] theorem State.did_offBus (s : State) (p : Pend) : (s.did p).offBus = s.offBus :=
  State.engineStep_offBus _

@[simp] theorem State.did_mode (s : State) (p : Pend) : (s.did p).mode = s.mode :=
  congrArg OffBus.mode (s.did_offBus p)

theorem State.did_done {p : Pend} (hp : p ≠ .none) (s : State) : (s.did p).done = true :=
  engineStep_done hp

section
variable {x : State} {ph : Phase} {dir : Option Dir} {rxend : Bool} (h : x.At ph dir rxend)
include h

theorem State.At.mayLaunch {p : Pend} (hl : p.legal ph dir rxend = true) : x.MayLaunch p := by
  obtain ⟨hen, hp, rfl, rfl, rfl⟩ := h
  exact ⟨hen, hp, hl⟩

theorem State.At.did_start : (x.did .start).At .startSent none false :=
  ⟨h.en, rfl, rfl, rfl, rfl⟩

theorem State.At.did_recv {k : Bool} : (x.did (.recv k)).At .dataRcvd dir !k := by
  obtain ⟨hen, -, -, hdir, -⟩ := h
  exact ⟨hen, rfl, rfl, hdir, rfl⟩

theorem State.At.did_stop : (x.did .stop).At .stopSent none false :=
  ⟨h.en, rfl, rfl, rfl, rfl⟩

/-- The byte after a start condition is an address byte (R71). -/
theorem State.At.did_address (hph : ph = .startSent) (b : Byte) :
    (x.did (.send b)).At .addrSent (some (directionOf b)) rxend := by
  obtain ⟨hen, -, rfl, -, rfl⟩ := h
  have hlaunched : (x.launched (.send b)).ph = .startSent := hph
  rw [State.did, engineStep_of_send rfl, completeSend, if_pos hlaunched]
  exact ⟨hen, rfl, rfl, rfl, rfl⟩

/-- Every other byte is a data byte (R71). -/
theorem State.At.did_data (hph : ph ≠ .startSent) (b : Byte) :
    (x.did (.send b)).At .dataSent dir rxend := by
  obtain ⟨hen, -, rfl, rfl, rfl⟩ := h
  have hlaunched : (x.launched (.send b)).ph ≠ .startSent := hph
  rw [State.did, engineStep_of_send rfl, completeSend, if_neg hlaunched]
  exact ⟨hen, rfl, rfl, rfl, rfl⟩

end

/-! ### The stages of a transaction -/

/-- After the start condition and the write address. -/
def State.addressed (x : State) : State := (x.did .start).did (.send slaW)

/-- After the register address. -/
def State.pointed (x : State) : State := x.addressed.did (.send x.ra)

/-- `RDREG`: after the repeated start and the read address. -/
def State.readdressed (x : State) : State := (x.pointed.did .start).did (.send slaR)

/-- `RDREG`: after the reception. -/
def State.received (x : State) : State := x.readdressed.did (.recv true)

/-- `RDREG`: with the received byte in `RES`. -/
def State.fetched (x : State) : State := { x.received with res := x.received.readData.1 }

/-- `RDREG`: after the stop condition. -/
def State.readStopped (x : State) : State := x.fetched.did .stop

/-- `WRREG`: after the value. -/
def State.written (x : State) : State := x.pointed.did (.send x.rv)

/-- `WRREG`: after the stop condition. -/
def State.writeStopped (x : State) : State := x.written.did .stop

section
variable {x : State} (h : x.PassesR91)
include h

theorem State.opened_at : (x.did .start).At .startSent none false :=
  State.At.did_start ⟨h.en, h.free, rfl, rfl, rfl⟩

theorem State.addressed_at : x.addressed.At .addrSent (some .w) false :=
  (State.opened_at h).did_address rfl slaW

theorem State.pointed_at : x.pointed.At .dataSent (some .w) false :=
  (State.addressed_at h).did_data nofun x.ra

theorem State.reopened_at : (x.pointed.did .start).At .startSent none false :=
  (State.pointed_at h).did_start

theorem State.readdressed_at : x.readdressed.At .addrSent (some .r) false :=
  (State.reopened_at h).did_address rfl slaR

theorem State.received_at : x.received.At .dataRcvd (some .r) false :=
  (State.readdressed_at h).did_recv

theorem State.fetched_at : x.fetched.At .dataRcvd (some .r) false := by
  have hreceived := State.received_at h
  rw [State.fetched]
  exact hreceived

theorem State.readStopped_at : x.readStopped.At .stopSent none false :=
  (State.fetched_at h).did_stop

theorem State.written_at : x.written.At .dataSent (some .w) false :=
  (State.pointed_at h).did_data nofun x.rv

theorem State.writeStopped_at : x.writeStopped.At .stopSent none false :=
  (State.written_at h).did_stop

end

/-! ### The points of a course -/

/-- A stage at `STEP` `k`. -/
def State.atStep (x : State) (k : Nat) : State := { x with stepIx := BitVec.ofNat 5 k }

/-- The course of `RDREG` from the state its presentation leaves (R92). -/
def readCourse (x : State) : Nat → State
  | 0 => x.atStep 0
  | 1 => (x.did .start).atStep 1
  | 2 => (x.did .start).atStep 2
  | 3 => x.addressed.atStep 3
  | 4 => x.addressed.atStep 4
  | 5 => x.pointed.atStep 5
  | 6 => x.pointed.atStep 6
  | 7 => (x.pointed.did .start).atStep 7
  | 8 => (x.pointed.did .start).atStep 8
  | 9 => x.readdressed.atStep 9
  | 10 => x.readdressed.atStep 10
  | 11 => x.received.atStep 11
  | 12 => x.received.atStep 12
  | 13 => x.fetched.atStep 13
  | 14 => x.readStopped.atStep 14
  | 15 => x.readStopped.atStep 15
  | 16 => x.readStopped.switchedOff.atStep 16
  | _ => State.finish { x.readStopped.switchedOff with en := true }

/-- The course of `WRREG` from the state its presentation leaves (R93). -/
def writeCourse (x : State) : Nat → State
  | 0 => x.atStep 0
  | 1 => (x.did .start).atStep 1
  | 2 => (x.did .start).atStep 2
  | 3 => x.addressed.atStep 3
  | 4 => x.addressed.atStep 4
  | 5 => x.pointed.atStep 5
  | 6 => x.pointed.atStep 6
  | 7 => x.written.atStep 7
  | 8 => x.written.atStep 8
  | 9 => x.writeStopped.atStep 9
  | _ => x.writeStopped.finish

/-! ### From each point to the next -/

section
variable {x : State} {k : Nat}

theorem State.stepIx_atStep (hk : k < 17) : (x.atStep k).stepIx.toNat = k := by
  simp only [State.atStep, BitVec.toNat_ofNat]
  omega

theorem State.microOp_atStep (hk : k < 17) : (x.atStep k).microOp = x.mode.program[k]? := by
  rw [State.microOp, State.stepIx_atStep hk]
  rfl

theorem Mode.length_program_le (d : Mode) : d.program.length ≤ 17 := by
  cases d <;> decide

theorem lt_length_program {d : Mode} {m : MicroOp} (h : d.program[k]? = some m) :
    k < d.program.length :=
  (List.getElem?_eq_some_iff.1 h).1

/-- Before the last micro-operation, advancing counts `STEP` up. -/
theorem State.advance_atStep {m : MicroOp} (h : x.mode.program[k + 1]? = some m) :
    (x.atStep k).advance = x.atStep (k + 1) := by
  have hlt : k + 1 < (x.atStep k).mode.program.length := lt_length_program h
  have hle := (x.atStep k).mode.length_program_le
  have hsucc : (x.atStep k).stepIx + 1 = BitVec.ofNat 5 (k + 1) :=
    BitVec.eq_of_toNat_eq (by simp [State.atStep])
  rw [State.advance, State.stepIx_atStep (by omega), if_pos hlt, hsucc]
  rfl

theorem MicroOp.command_atStep (m : MicroOp) : m.command (x.atStep k) = m.command x := by
  cases m with
  | send src => cases src <;> rfl
  | start | recv | wait | getdata | stop | disable | enable => rfl

theorem State.executed_atStep {m : MicroOp} (hg : m ≠ .getdata) :
    (x.atStep k).executed (m.command x) = (x.executed (m.command x)).atStep k := by
  cases m with
  | getdata => exact absurd rfl hg
  | disable =>
    rw [MicroOp.command, State.executed_disable, State.executed_disable]
    rfl
  | start | send | recv | stop | wait | enable => rfl

theorem engineStep_atStep : engineStep (x.atStep k) = (engineStep x).atStep k := by
  have hpend : (x.atStep k).pend = x.pend := rfl
  cases hp : x.pend with
  | none => rw [engineStep_of_free hp, engineStep_of_free (hpend.trans hp)]
  | start => rw [engineStep_of_start hp, engineStep_of_start (hpend.trans hp)]; rfl
  | send b =>
    have hph : (x.atStep k).ph = x.ph := rfl
    rw [engineStep_of_send hp, engineStep_of_send (hpend.trans hp), completeSend, completeSend, hph]
    split <;> rfl
  | recv b => rw [engineStep_of_recv hp, engineStep_of_recv (hpend.trans hp)]; rfl
  | stop => rw [engineStep_of_stop hp, engineStep_of_stop (hpend.trans hp)]; rfl

/-- A micro-operation after which another one stands leaves its own state, at the next `STEP`. -/
theorem State.performed_atStep {m m' : MicroOp} (hg : m ≠ .getdata)
    (h : x.mode.program[k + 1]? = some m') :
    (x.atStep k).performed m = (x.executed (m.command x)).atStep (k + 1) := by
  have hmode : (x.executed (m.command x)).mode = x.mode :=
    congrArg OffBus.mode (State.executed_command_offBus m x)
  rw [State.performed_of_ne_getdata hg, MicroOp.command_atStep, State.executed_atStep hg]
  exact State.advance_atStep (hmode ▸ h)

end

/-- Finishing forgets `STEP`. -/
theorem State.finish_atStep {x : State} (h : x.mode ≠ .none) (k : Nat) :
    (x.atStep k).finish = x.finish := by
  have hmode : (x.atStep k).mode = x.mode := rfl
  rw [State.finish, State.finish, hmode]
  cases hm : x.mode with
  | none => exact absurd hm h
  | rd | wr => rfl

/-- The last micro-operation finishes the transaction. -/
theorem State.advance_of_last {x : State} {k : Nat} (h : x.mode.program.length = k + 1) :
    (x.atStep k).advance = x.finish := by
  have hle := x.mode.length_program_le
  have hmode : (x.atStep k).mode = x.mode := rfl
  have hne : x.mode ≠ .none := by
    intro hm
    simp [hm, Mode.program] at h
  rw [State.advance, State.stepIx_atStep (by omega), hmode, if_neg (by omega),
    State.finish_atStep hne]

theorem State.finish_pend (x : State) : x.finish.pend = x.pend := by
  unfold State.finish
  split <;> rfl

section
variable {x : State} {d : Mode} (hd : x.mode = d) {k : Nat}
include hd

/-- The point of a launch leads to its `WAIT` with the operation completed. -/
theorem State.Leads.launch {m : MicroOp} {p : Pend} (hm : d.program[k]? = some m)
    (hw : d.program[k + 1]? = some .wait) (hl : isLaunch (m.command x) = true)
    (hp : operationOf (m.command x) = p) (hx : x.MayLaunch p) :
    (x.atStep k).Leads m ((x.did p).atStep (k + 1)) := by
  subst hd hp
  have hg : m ≠ .getdata := by rintro rfl; cases hl
  have hlt := lt_length_program hw
  have hle := x.mode.length_program_le
  refine ⟨(State.microOp_atStep (by omega)).trans hm, hx.free, ⟨?_, ?_, fun h => absurd h hg⟩, ?_,
    ?_⟩
  · rw [MicroOp.command_atStep]
    exact fun _ => ⟨hx.en, hx.free, hx.legal⟩
  · rintro rfl
    cases hl
  · rw [State.performed_atStep hg hw, engineStep_atStep, State.executed_of_isLaunch hl]
    rfl
  · intro _
    rw [State.microOp_atStep (by omega), State.did_mode]
    exact hw

/-- A `WAIT` after a completion, `DISABLE` and `ENABLE` with nothing pending lead to the next
micro-operation. -/
theorem State.Leads.quiet {m m' : MicroOp} (hm : d.program[k]? = some m)
    (hn : d.program[k + 1]? = some m') (hl : isLaunch (m.command x) = false) (hg : m ≠ .getdata)
    (hfree : x.pend = .none) (hdone : m = .wait → x.done = true) :
    (x.atStep k).Leads m ((x.executed (m.command x)).atStep (k + 1)) := by
  subst hd
  have hlt := lt_length_program hn
  have hle := x.mode.length_program_le
  have hl' : isLaunch (m.command (x.atStep k)) = false := (m.command_atStep).symm ▸ hl
  refine ⟨(State.microOp_atStep (by omega)).trans hm, hfree,
    .of_quiet hl' hg hdone, ?_, fun h => by simp [hl'] at h⟩
  rw [State.performed_atStep hg hn, engineStep_atStep,
    engineStep_of_free (State.executed_pend_of_not_launch hl hfree)]

/-- Reading a latched byte leads to the next micro-operation with the byte in `RES`. -/
theorem State.Leads.getdata {m : MicroOp} {b : Byte} (hm : d.program[k]? = some .getdata)
    (hn : d.program[k + 1]? = some m) (hfree : x.pend = .none) (hb : x.data = .latched b) :
    (x.atStep k).Leads .getdata (State.atStep { x with res := b } (k + 1)) := by
  subst hd
  have hlt := lt_length_program hn
  have hle := x.mode.length_program_le
  have hread : (x.atStep k).readData = (b, x.atStep k) := State.readData_latched hb
  refine ⟨(State.microOp_atStep (by omega)).trans hm, hfree, ⟨nofun, nofun, fun _ => ⟨b, hb⟩⟩, ?_,
    nofun⟩
  have hperformed : (x.atStep k).performed .getdata =
      (State.atStep { x with res := b } k).advance := by
    rw [State.performed, if_pos rfl, MicroOp.command, State.executed, hread]
    rfl
  have hadvance := State.advance_atStep (x := { x with res := b }) (k := k) hn
  rw [hperformed, hadvance]
  exact engineStep_of_free hfree

/-- The last micro-operation leads to the finished transaction. -/
theorem State.Leads.last {m : MicroOp} (hm : d.program[k]? = some m)
    (hend : d.program.length = k + 1) (hl : isLaunch (m.command x) = false) (hg : m ≠ .getdata)
    (hfree : x.pend = .none) (hdone : m = .wait → x.done = true) :
    (x.atStep k).Leads m (x.executed (m.command x)).finish := by
  subst hd
  have hle := x.mode.length_program_le
  have hl' : isLaunch (m.command (x.atStep k)) = false := (m.command_atStep).symm ▸ hl
  have hmode : (x.executed (m.command x)).mode = x.mode :=
    congrArg OffBus.mode (State.executed_command_offBus m x)
  refine ⟨(State.microOp_atStep (by omega)).trans hm, hfree,
    .of_quiet hl' hg hdone, ?_, fun h => by simp [hl'] at h⟩
  rw [State.performed_of_ne_getdata hg, MicroOp.command_atStep, State.executed_atStep hg,
    State.advance_of_last (hmode ▸ hend), engineStep_of_free]
  exact (State.finish_pend _).trans (State.executed_pend_of_not_launch hl hfree)

end

/-- The `WAIT` of an operation stands where it has completed. -/
theorem State.Leads.waitAfter {y : State} {p : Pend} {d : Mode} {k : Nat} {m : MicroOp}
    (hd : (y.did p).mode = d) (hw : d.program[k]? = some .wait)
    (hn : d.program[k + 1]? = some m) (hp : p ≠ .none) :
    ((y.did p).atStep k).Leads .wait ((y.did p).atStep (k + 1)) :=
  State.Leads.quiet hd (m := .wait) hw hn rfl nofun (engineStep_pend _)
    fun _ => State.did_done hp y

/-! ### The two courses -/

theorem State.offBus_res (s : State) (b : Byte) :
    State.offBus { s with res := b } = { s.offBus with res := b } := rfl

section
variable (x : State)

@[simp] theorem State.addressed_offBus : x.addressed.offBus = x.offBus := by
  simp [State.addressed]

@[simp] theorem State.pointed_offBus : x.pointed.offBus = x.offBus := by
  simp [State.pointed]

@[simp] theorem State.readdressed_offBus : x.readdressed.offBus = x.offBus := by
  simp [State.readdressed]

@[simp] theorem State.received_offBus : x.received.offBus = x.offBus := by
  simp [State.received]

@[simp] theorem State.written_offBus : x.written.offBus = x.offBus := by
  simp [State.written]

@[simp] theorem State.writeStopped_offBus : x.writeStopped.offBus = x.offBus := by
  simp [State.writeStopped]

/-- The byte the device answers at the reception. -/
def State.answer : Byte := x.readdressed.dev.byte x.readdressed.trace

theorem State.received_data : x.received.data = .latched x.answer := rfl

theorem State.fetched_eq : x.fetched = { x.received with res := x.answer } := by
  rw [State.fetched, State.readData_latched x.received_data]

@[simp] theorem State.fetched_offBus : x.fetched.offBus = { x.offBus with res := x.answer } := by
  rw [State.fetched_eq, State.offBus_res, State.received_offBus]

@[simp] theorem State.readStopped_offBus :
    x.readStopped.offBus = { x.offBus with res := x.answer } := by
  simp [State.readStopped]

end

/-- With nothing pending after the stop condition, `DISABLE` records no `Rel`. -/
theorem State.executed_disable_of_stopped {x : State} (hp : x.pend = .none)
    (hph : x.ph = .stopSent) : x.executed .disable = x.switchedOff := by
  have hw : x.wiresHeld = false := by simp [State.wiresHeld, hp, hph, Phase.released]
  rw [State.executed, hw]
  rfl

/-- Each row of R92: a launch is one the phase table allows at its stage, and every `WAIT` stands
after a completion. -/
theorem readCourse_leads {x : State} (hd : x.mode = .rd) (h : x.PassesR91) :
    ∀ k, k < 17 → ∃ m, (readCourse x k).Leads m (readCourse x (k + 1)) := by
  have opened : (x.did .start).mode = .rd := (x.did_mode _).trans hd
  have addressed : x.addressed.mode = .rd := (congrArg OffBus.mode x.addressed_offBus).trans hd
  have pointed : x.pointed.mode = .rd := (congrArg OffBus.mode x.pointed_offBus).trans hd
  have reopened : (x.pointed.did .start).mode = .rd := (x.pointed.did_mode _).trans pointed
  have readdressed : x.readdressed.mode = .rd :=
    (congrArg OffBus.mode x.readdressed_offBus).trans hd
  have received : x.received.mode = .rd := (congrArg OffBus.mode x.received_offBus).trans hd
  have fetched : x.fetched.mode = .rd := (congrArg OffBus.mode x.fetched_offBus).trans hd
  have stopped : x.readStopped.mode = .rd := (congrArg OffBus.mode x.readStopped_offBus).trans hd
  have ra : x.addressed.ra = x.ra := congrArg OffBus.ra x.addressed_offBus
  intro k hk
  match k, hk with
  | 0, _ => exact ⟨_, .launch hd rfl rfl rfl rfl h.mayLaunch_start⟩
  | 2, _ => exact ⟨_, .launch opened rfl rfl rfl rfl ((State.opened_at h).mayLaunch rfl)⟩
  | 4, _ =>
    exact ⟨_, .launch addressed rfl rfl rfl (congrArg Pend.send ra)
      ((State.addressed_at h).mayLaunch rfl)⟩
  | 6, _ => exact ⟨_, .launch pointed rfl rfl rfl rfl ((State.pointed_at h).mayLaunch rfl)⟩
  | 8, _ => exact ⟨_, .launch reopened rfl rfl rfl rfl ((State.reopened_at h).mayLaunch rfl)⟩
  | 10, _ =>
    exact ⟨_, .launch readdressed rfl rfl rfl rfl ((State.readdressed_at h).mayLaunch rfl)⟩
  | 13, _ => exact ⟨_, .launch fetched rfl rfl rfl rfl ((State.fetched_at h).mayLaunch rfl)⟩
  | 1, _ => exact ⟨_, .waitAfter opened rfl rfl (by nofun)⟩
  | 3, _ => exact ⟨_, .waitAfter addressed rfl rfl (by nofun)⟩
  | 5, _ => exact ⟨_, .waitAfter pointed rfl rfl (by nofun)⟩
  | 7, _ => exact ⟨_, .waitAfter reopened rfl rfl (by nofun)⟩
  | 9, _ => exact ⟨_, .waitAfter readdressed rfl rfl (by nofun)⟩
  | 11, _ => exact ⟨_, .waitAfter received rfl rfl (by nofun)⟩
  | 14, _ => exact ⟨_, .waitAfter stopped rfl rfl (by nofun)⟩
  | 12, _ =>
    have hget := State.Leads.getdata (k := 12) received rfl rfl (State.received_at h).free
      x.received_data
    rw [← x.fetched_eq] at hget
    exact ⟨_, hget⟩
  | 15, _ =>
    obtain ⟨-, hfree, hph, -⟩ := State.readStopped_at h
    have hoff := State.Leads.quiet (k := 15) (m := .disable) stopped rfl rfl rfl nofun hfree nofun
    rw [MicroOp.command, State.executed_disable_of_stopped hfree hph] at hoff
    exact ⟨_, hoff⟩
  | 16, _ =>
    exact ⟨_, .last (m := .enable) (x := x.readStopped.switchedOff) stopped rfl rfl rfl nofun rfl
      nofun⟩
  | k + 17, hk => exact absurd hk (by omega)

/-- Each row of R93. -/
theorem writeCourse_leads {x : State} (hd : x.mode = .wr) (h : x.PassesR91) :
    ∀ k, k < 10 → ∃ m, (writeCourse x k).Leads m (writeCourse x (k + 1)) := by
  have opened : (x.did .start).mode = .wr := (x.did_mode _).trans hd
  have addressed : x.addressed.mode = .wr := (congrArg OffBus.mode x.addressed_offBus).trans hd
  have pointed : x.pointed.mode = .wr := (congrArg OffBus.mode x.pointed_offBus).trans hd
  have written : x.written.mode = .wr := (congrArg OffBus.mode x.written_offBus).trans hd
  have stopped : x.writeStopped.mode = .wr :=
    (congrArg OffBus.mode x.writeStopped_offBus).trans hd
  have ra : x.addressed.ra = x.ra := congrArg OffBus.ra x.addressed_offBus
  have rv : x.pointed.rv = x.rv := congrArg OffBus.rv x.pointed_offBus
  intro k hk
  match k, hk with
  | 0, _ => exact ⟨_, .launch hd rfl rfl rfl rfl h.mayLaunch_start⟩
  | 2, _ => exact ⟨_, .launch opened rfl rfl rfl rfl ((State.opened_at h).mayLaunch rfl)⟩
  | 4, _ =>
    exact ⟨_, .launch addressed rfl rfl rfl (congrArg Pend.send ra)
      ((State.addressed_at h).mayLaunch rfl)⟩
  | 6, _ =>
    exact ⟨_, .launch pointed rfl rfl rfl (congrArg Pend.send rv)
      ((State.pointed_at h).mayLaunch rfl)⟩
  | 8, _ => exact ⟨_, .launch written rfl rfl rfl rfl ((State.written_at h).mayLaunch rfl)⟩
  | 1, _ => exact ⟨_, .waitAfter opened rfl rfl (by nofun)⟩
  | 3, _ => exact ⟨_, .waitAfter addressed rfl rfl (by nofun)⟩
  | 5, _ => exact ⟨_, .waitAfter pointed rfl rfl (by nofun)⟩
  | 7, _ => exact ⟨_, .waitAfter written rfl rfl (by nofun)⟩
  | 9, _ =>
    exact ⟨_, .last (m := .wait) stopped rfl rfl rfl nofun (State.writeStopped_at h).free
      fun _ => rfl⟩
  | k + 10, hk => exact absurd hk (by omega)

/-! ### Where they end -/

/-- The transport and the rest at the end of `RDREG` (R97). -/
theorem readCourse_end {x : State} (hd : x.mode = .rd) :
    (readCourse x 17).transport =
      { en := true, done := false, pend := .none, ph := .idle, dir := none, rxend := false,
        data := .unspecified, trace := x.readStopped.trace, dev := x.readStopped.dev } ∧
    (readCourse x 17).offBus =
      { x.offBus with mode := .none, stepIx := 0, res := x.answer, cmds := x.cmds.tail,
                      returned := x.returned ++ [x.answer] } := by
  obtain ⟨hmode, -, hra, hrv, hres, hcmds, hret⟩ :=
    (State.offBus_eq_iff (s := { x with res := x.answer })).1 x.readStopped_offBus
  have hfinish : readCourse x 17 = _ :=
    State.finish_of_rd (s := { x.readStopped.switchedOff with en := true }) (hmode.trans hd)
  rw [hfinish]
  refine ⟨rfl, ?_⟩
  simp [State.offBus, hra, hrv, hres, hcmds, hret]

@[simp] theorem State.did_data_of_ne_recv {p : Pend} (hp : ∀ k, p ≠ .recv k) (s : State) :
    (s.did p).data = s.data := by
  cases p with
  | recv k => exact absurd rfl (hp k)
  | send b =>
    rw [State.did, engineStep_of_send rfl, completeSend]
    split <;> rfl
  | none | start | stop => rfl

/-- The transport and the rest at the end of `WRREG` (R99). -/
theorem writeCourse_end {x : State} (hd : x.mode = .wr) (h : x.PassesR91) :
    (writeCourse x 10).transport =
      { en := true, done := true, pend := .none, ph := .stopSent, dir := none, rxend := false,
        data := x.data, trace := x.writeStopped.trace, dev := x.writeStopped.dev } ∧
    (writeCourse x 10).offBus =
      { x.offBus with mode := .none, stepIx := 0, cmds := x.cmds.tail } := by
  obtain ⟨hmode, -, hra, hrv, hres, hcmds, hret⟩ := State.offBus_eq_iff.1 x.writeStopped_offBus
  obtain ⟨hen, hp, hph, hdir, hrx⟩ := State.writeStopped_at h
  have hdata : x.writeStopped.data = x.data := by
    simp [State.writeStopped, State.written, State.pointed, State.addressed]
  have hdone : x.writeStopped.done = true := rfl
  have hfinish : writeCourse x 10 = _ := State.finish_of_wr (hmode.trans hd)
  rw [hfinish]
  simp [State.transport, State.offBus, hen, hp, hph, hdir, hrx, hdata, hdone, hra, hrv, hres, hcmds,
    hret]

theorem readCourse_isCourse {x : State} (hd : x.mode = .rd) (h : x.PassesR91) :
    Course 17 (readCourse x) :=
  ⟨readCourse_leads hd h, congrArg OffBus.mode (readCourse_end hd).2⟩

theorem writeCourse_isCourse {x : State} (hd : x.mode = .wr) (h : x.PassesR91) :
    Course 10 (writeCourse x) :=
  ⟨writeCourse_leads hd h, congrArg OffBus.mode (writeCourse_end hd h).2⟩

end Sys2Proof.Machine
end

section
/-! No fault inside a transaction (spec R96): the rows hold at the points of the courses, so they
hold on every schedule, and a `WAIT` of a course is never stuck. -/

namespace Sys2Proof.Machine

/-- What R96 says of a running transaction's state: its row, and `EN` up to the bus reset. -/
structure State.InRow (s : State) : Prop where
  rd : s.mode = .rd → s.RdRow
  wr : s.mode = .wr → s.WrRow
  enabled : s.en = true ∨ s.stepIx = 16

/-- The `WAIT`s have no row of R96. -/
theorem State.rdRow_of_wait {s : State} (hm : s.mode = .rd) (hw : s.microOp = some .wait) :
    s.RdRow := by
  unfold State.RdRow
  split <;> simp_all [State.microOp, Mode.program, rdProgram]

theorem State.wrRow_of_wait {s : State} (hm : s.mode = .wr) (hw : s.microOp = some .wait) :
    s.WrRow := by
  unfold State.WrRow
  split <;> simp_all [State.microOp, Mode.program, wrProgram]

section
variable {s x : State} (htr : s.transport = x.transport) (hi : s.stepIx = x.stepIx)
include htr hi

theorem State.RdRow.congr (h : x.RdRow) : s.RdRow := by
  obtain ⟨hen, -, hpend, hph, hdir, hrxend, -⟩ := State.transport_eq_iff.1 htr
  simpa only [State.RdRow, State.At, hen, hpend, hph, hdir, hrxend, hi] using h

theorem State.WrRow.congr (h : x.WrRow) : s.WrRow := by
  obtain ⟨hen, -, hpend, hph, hdir, hrxend, -⟩ := State.transport_eq_iff.1 htr
  simpa only [State.WrRow, State.At, hen, hpend, hph, hdir, hrxend, hi] using h

end

theorem State.Follows.en {s x : State} (h : s.Follows x) : s.en = x.en :=
  (engineStep_frame s).1.symm.trans (congrArg Transport.en h.bus)

/-- A row of a point holds of every state that follows the point. -/
theorem State.Follows.inRow {s x : State} (h : s.Follows x) (hx : x.InRow) : s.InRow := by
  obtain ⟨hmode, hix, -⟩ := State.offBus_eq_iff.1 h.offBus
  refine ⟨fun hm => ?rd, fun hm => ?wr, by rw [h.en, hix]; exact hx.enabled⟩
  case rd =>
    by_cases hp : s.pend = .none
    · exact (hx.rd (hmode.symm.trans hm)).congr (h.transport hp) hix
    · exact State.rdRow_of_wait hm (h.pending hp).1
  case wr =>
    by_cases hp : s.pend = .none
    · exact (hx.wr (hmode.symm.trans hm)).congr (h.transport hp) hix
    · exact State.wrRow_of_wait hm (h.pending hp).1

/-- At a `WAIT` of a course with nothing pending, `DONE` is set. -/
theorem State.Follows.not_waitNoOperation {s x y : State} {m : MicroOp} (h : s.Follows x)
    (hl : x.Leads m y) : ¬ s.WaitNoOperation := by
  rintro ⟨hw, hd, hp⟩
  have hop : s.microOp = some m := (State.microOp_congr h.offBus).trans hl.op
  have hwait : m = .wait := by
    have hmode := State.mode_ne_none_of_microOp hop
    cases hm : s.mode with
    | none => exact absurd hm hmode
    | rd | wr => simpa [State.atWait, hm, hop] using hw
  have hdone : s.done = true :=
    (congrArg Transport.done (h.transport hp)).trans (hl.can.waited hwait)
  simp [hd] at hdone

/-- R96 for a transaction whose course meets the rows. -/
theorem Course.noFault {n : Nat} {c : Nat → State} (hc : Course n c) (hfree : (c 0).pend = .none)
    (hrd : (c 0).mode = .rd → ∀ k, k < n → (c k).RdRow)
    (hwr : (c 0).mode = .wr → ∀ k, k < n → (c k).WrRow)
    (hen : ∀ k, k < n → (c k).en = true ∨ (c k).stepIx = 16) {j : Nat}
    (hrun : ∀ m u, m < j → steps m (c 0) = .next u → u.mode ≠ .none) :
    ∃ t, steps j (c 0) = .next t ∧
      (t.mode = .rd → t.RdRow) ∧ (t.mode = .wr → t.WrRow) ∧
      (t.mode ≠ .none → (t.en = true ∨ t.stepIx = 16) ∧ ¬ t.WaitNoOperation) := by
  obtain ⟨t, k, hsteps, hk, ht⟩ := hc.follows_steps hfree hrun
  refine ⟨t, hsteps, ?_⟩
  by_cases hm : t.mode = .none
  · exact ⟨by simp [hm], by simp [hm], fun hne => absurd hm hne⟩
  · have hlt : k < n := by
      have hne := mt (hc.last_iff hk ht).2 hm
      omega
    have hmode := hc.mode_eq hlt
    obtain ⟨hrow, hrow', hon⟩ := ht.inRow
      ⟨fun h => hrd (hmode.symm.trans h) k hlt, fun h => hwr (hmode.symm.trans h) k hlt, hen k hlt⟩
    obtain ⟨m, hl⟩ := hc.leads k hlt
    exact ⟨hrow, hrow', fun _ => ⟨hon, ht.not_waitNoOperation hl⟩⟩

/-- With no transaction open, a state with the invariant is at one of the two rows of `STEP` 0. -/
theorem State.Inv.at_released {s : State} (hinv : s.Inv) (h : s.PassesR91) :
    s.At .idle none false ∨ s.At .stopSent none false := by
  obtain ⟨hbus, -⟩ := State.inv_iff.1 hinv
  obtain ⟨hen, hp, hreleased⟩ := h
  have hph : s.ph = .idle ∨ s.ph = .stopSent := by simpa using Phase.released_iff.1 hreleased
  have hrx : s.rxend = false := hbus.rxend_of_ph (by rcases hph with h | h <;> simp [h])
  have hdir : s.dir = none := by
    have hsome := mt hbus.dirMatches.1.1 (by rcases hph with h | h <;> simp [h])
    simpa using hsome
  exact hph.imp (fun h => ⟨hen, hp, h, hdir, hrx⟩) (fun h => ⟨hen, hp, h, hdir, hrx⟩)

/-- The rows of `Rd`: each is what its stage leaves. -/
theorem readCourse_inRow {x : State} (h : x.PassesR91)
    (h0 : x.At .idle none false ∨ x.At .stopSent none false) (k : Nat) (hk : k < 17) :
    (readCourse x k).RdRow ∧ ((readCourse x k).en = true ∨ (readCourse x k).stepIx = 16) := by
  have opened := State.opened_at h
  have addressed := State.addressed_at h
  have pointed := State.pointed_at h
  have reopened := State.reopened_at h
  have readdressed := State.readdressed_at h
  have received := State.received_at h
  have fetched := State.fetched_at h
  have stopped := State.readStopped_at h
  match k, hk with
  | 0, _ => exact ⟨h0, .inl h.en⟩
  | 1, _ => exact ⟨trivial, .inl opened.en⟩
  | 2, _ => exact ⟨opened, .inl opened.en⟩
  | 3, _ => exact ⟨trivial, .inl addressed.en⟩
  | 4, _ => exact ⟨addressed, .inl addressed.en⟩
  | 5, _ => exact ⟨trivial, .inl pointed.en⟩
  | 6, _ => exact ⟨pointed, .inl pointed.en⟩
  | 7, _ => exact ⟨trivial, .inl reopened.en⟩
  | 8, _ => exact ⟨reopened, .inl reopened.en⟩
  | 9, _ => exact ⟨trivial, .inl readdressed.en⟩
  | 10, _ => exact ⟨readdressed, .inl readdressed.en⟩
  | 11, _ => exact ⟨trivial, .inl received.en⟩
  | 12, _ => exact ⟨received, .inl received.en⟩
  | 13, _ => exact ⟨fetched, .inl fetched.en⟩
  | 14, _ => exact ⟨trivial, .inl stopped.en⟩
  | 15, _ => exact ⟨stopped, .inl stopped.en⟩
  | 16, _ => exact ⟨⟨rfl, rfl, rfl, rfl, rfl⟩, .inr rfl⟩
  | k + 17, hk => exact absurd hk (by omega)

theorem State.At.wrRow {x : State} {ph : Phase} {dir : Option Dir} {rxend : Bool}
    (h : x.At ph dir rxend) : x.At ph dir x.rxend := by
  obtain ⟨hen, hp, hph, hdir, -⟩ := h
  exact ⟨hen, hp, hph, hdir, rfl⟩

/-- The rows of `Wr`. -/
theorem writeCourse_inRow {x : State} (h : x.PassesR91)
    (h0 : x.At .idle none false ∨ x.At .stopSent none false) (k : Nat) (hk : k < 10) :
    (writeCourse x k).WrRow ∧ ((writeCourse x k).en = true ∨ (writeCourse x k).stepIx = 16) := by
  have opened := (State.opened_at h).wrRow
  have addressed := (State.addressed_at h).wrRow
  have pointed := (State.pointed_at h).wrRow
  have written := (State.written_at h).wrRow
  have stopped := (State.writeStopped_at h).wrRow
  match k, hk with
  | 0, _ => exact ⟨h0.imp State.At.wrRow State.At.wrRow, .inl h.en⟩
  | 1, _ => exact ⟨trivial, .inl opened.en⟩
  | 2, _ => exact ⟨opened, .inl opened.en⟩
  | 3, _ => exact ⟨trivial, .inl addressed.en⟩
  | 4, _ => exact ⟨addressed, .inl addressed.en⟩
  | 5, _ => exact ⟨trivial, .inl pointed.en⟩
  | 6, _ => exact ⟨pointed, .inl pointed.en⟩
  | 7, _ => exact ⟨trivial, .inl written.en⟩
  | 8, _ => exact ⟨written, .inl written.en⟩
  | 9, _ => exact ⟨trivial, .inl stopped.en⟩
  | k + 10, hk => exact absurd hk (by omega)

/-- A transaction that starts has passed the checks, and starts as the first point of its course. -/
theorem passesR91_of_exec {i : Instr} {s s1 : State} (hi : isTransaction i = true)
    (h : exec i s = .next s1) : s.PassesR91 ∧ s1 = s.executed i := by
  rw [exec_of_isTransaction hi] at h
  obtain ⟨hen, hp, hreleased, h1⟩ := present_eq_next.1 h
  exact ⟨⟨hen, hp, hreleased⟩, h1⟩

/-- Settles O27: both courses meet the rows of R96, and no schedule leaves the course. -/
theorem noFaultInsideTransaction : Obligations.NoFaultInsideTransaction := by
  unfold Obligations.NoFaultInsideTransaction
  intro i s s1 n hi hinv hx hrun
  obtain ⟨hpass, rfl⟩ := passesR91_of_exec hi hx
  have h0 := hinv.at_released hpass
  cases i with
  | rdreg a =>
    have hcourse := readCourse_isCourse (x := s.executed (.rdreg a)) rfl hpass
    have hrow := readCourse_inRow (x := s.executed (.rdreg a)) hpass h0
    exact hcourse.noFault hpass.free (fun _ k hk => (hrow k hk).1) nofun
      (fun k hk => (hrow k hk).2) hrun
  | wrreg a v =>
    have hcourse := writeCourse_isCourse (x := s.executed (.wrreg a v)) rfl hpass
    have hrow := writeCourse_inRow (x := s.executed (.wrreg a v)) hpass h0
    exact hcourse.noFault hpass.free nofun (fun _ k hk => (hrow k hk).1)
      (fun k hk => (hrow k hk).2) hrun
  | start | send | recv | wait | getdata | stop | disable | enable => cases hi

end Sys2Proof.Machine
end

section
/-! The end states of the transactions and the events they leave on the wires (spec R97, R99). -/

namespace Sys2Proof.Machine

theorem Device.hearAll_append_list (d : Device) (tr es fs : List WireEvent) :
    d.hearAll tr (es ++ fs) = (d.hearAll tr es).hearAll (tr ++ es) fs := by
  induction es generalizing d tr with
  | nil => simp [Device.hearAll]
  | cons e es ih => simp [Device.hearAll, ih]

/-- From `s` to `t` the events `es` have gone to the trace and the device has heard them. -/
structure State.Heard (s : State) (es : List WireEvent) (t : State) : Prop where
  trace : t.trace = s.trace ++ es
  dev : t.dev = s.dev.hearAll s.trace es

theorem State.Heard.append {s t u : State} {es fs : List WireEvent} (h : s.Heard es t)
    (h' : t.Heard fs u) : s.Heard (es ++ fs) u where
  trace := by rw [h'.trace, h.trace, List.append_assoc]
  dev := by rw [h'.dev, h.dev, h.trace, Device.hearAll_append_list]

/-- The acknowledge bit the device gives for a byte sent next (R38). -/
def State.ackOf (s : State) (b : Byte) : Bool := s.dev.ack s.trace b

theorem State.did_start_heard (s : State) : s.Heard [startEvent s.ph] (s.did .start) := ⟨rfl, rfl⟩

theorem State.did_send_heard (s : State) (b : Byte) :
    s.Heard [.tx b (s.ackOf b)] (s.did (.send b)) := by
  unfold State.did
  rw [engineStep_of_send rfl, completeSend]
  split <;> exact ⟨rfl, rfl⟩

theorem State.did_recv_heard (s : State) (k : Bool) :
    s.Heard [.rx (s.dev.byte s.trace) k] (s.did (.recv k)) := ⟨rfl, rfl⟩

theorem State.did_stop_heard (s : State) : s.Heard [.stop] (s.did .stop) := ⟨rfl, rfl⟩

section
variable {x : State} (h : x.ph.released = true)
include h

theorem State.opened_heard : x.Heard [.start] (x.did .start) := by
  have hheard := x.did_start_heard
  rwa [startEvent, if_pos h] at hheard

theorem State.pointed_heard :
    x.Heard [.start, .tx 0xB4 ((x.did .start).ackOf 0xB4), .tx x.ra (x.addressed.ackOf x.ra)]
      x.pointed :=
  (State.opened_heard h).append
    (((x.did .start).did_send_heard slaW).append (x.addressed.did_send_heard x.ra))

theorem State.readdressed_heard :
    x.Heard (readAsked x.ra ((x.did .start).ackOf 0xB4) (x.addressed.ackOf x.ra)
      ((x.pointed.did .start).ackOf 0xB5)) x.readdressed :=
  (State.pointed_heard h).append
    (x.pointed.did_start_heard.append ((x.pointed.did .start).did_send_heard slaR))

theorem State.writeStopped_heard :
    x.Heard (writeEvents x.ra x.rv ((x.did .start).ackOf 0xB4) (x.addressed.ackOf x.ra)
      (x.pointed.ackOf x.rv)) x.writeStopped :=
  (State.pointed_heard h).append
    ((x.pointed.did_send_heard x.rv).append x.written.did_stop_heard)

end

/-- From the asking on, `RDREG` leaves the device's byte and the stop condition. -/
theorem State.readStopped_heard (x : State) :
    x.readdressed.Heard [.rx x.answer true, .stop] x.readStopped := by
  have hreceived : x.readdressed.Heard [.rx x.answer true] x.received :=
    x.readdressed.did_recv_heard true
  have hfetched : x.readdressed.Heard [.rx x.answer true] x.fetched := by
    rw [x.fetched_eq]
    exact ⟨hreceived.trace, hreceived.dev⟩
  exact hfetched.append x.fetched.did_stop_heard

/-- In whatever step `RDREG a` finishes, it is where its course ends. -/
theorem rdreg_finishes {a : Byte} {s t : State} {n : Nat} (h : s.PassesR91)
    (hfin : FinishesAt n (s.executed (.rdreg a)) t) :
    t.transport = (readCourse (s.executed (.rdreg a)) 17).transport ∧
    t.offBus = (readCourse (s.executed (.rdreg a)) 17).offBus :=
  (readCourse_isCourse (x := s.executed (.rdreg a)) rfl h).finishes h.free hfin

/-- In whatever step `WRREG a, v` finishes, it is where its course ends. -/
theorem wrreg_finishes {a v : Byte} {s t : State} {n : Nat} (h : s.PassesR91)
    (hfin : FinishesAt n (s.executed (.wrreg a v)) t) :
    t.transport = (writeCourse (s.executed (.wrreg a v)) 10).transport ∧
    t.offBus = (writeCourse (s.executed (.wrreg a v)) 10).offBus :=
  (writeCourse_isCourse (x := s.executed (.wrreg a v)) rfl h).finishes h.free hfin

/-- Settles O28: the last point of the course of `RDREG`. -/
theorem readEndState : Obligations.ReadEndState := by
  unfold Obligations.ReadEndState
  intro a s s1 t n hpass hx hfin
  obtain ⟨-, rfl⟩ := passesR91_of_exec (i := .rdreg a) rfl hx
  obtain ⟨htr, hoff⟩ := rdreg_finishes hpass hfin
  obtain ⟨hendTransport, hendOffBus⟩ := readCourse_end (x := s.executed (.rdreg a)) rfl
  obtain ⟨k1, k2, k3, hasked⟩ : ∃ k1 k2 k3,
      (s.executed (.rdreg a)).Heard (readAsked a k1 k2 k3) (s.executed (.rdreg a)).readdressed :=
    ⟨_, _, _, State.readdressed_heard hpass.released⟩
  have hends := (hasked.append (s.executed (.rdreg a)).readStopped_heard).trace
  refine ⟨k1, k2, k3, ?_⟩
  intro asked d
  have hd : (s.executed (.rdreg a)).answer = d := by
    rw [State.answer, hasked.dev, hasked.trace]
    rfl
  rw [hd] at hends hendOffBus
  rw [hendTransport, State.transport, Transport.mk.injEq] at htr
  rw [hendOffBus, State.offBus, OffBus.mk.injEq] at hoff
  obtain ⟨hen, hdone, hpend, hph, hdir, hrxend, hdata, htrace, -⟩ := htr
  obtain ⟨hmode, hix, hra, hrv, hres, hcmds, hret⟩ := hoff
  exact ⟨htrace.trans hends, hen, hdone, hpend, hph, hdir, hrxend, hdata, hmode, hix, hra, hres,
    hrv, hret, hcmds⟩

/-- Settles O29: the last point of the course of `WRREG`. -/
theorem writeEndState : Obligations.WriteEndState := by
  unfold Obligations.WriteEndState
  intro a v s s1 t n hpass hx hfin
  obtain ⟨-, rfl⟩ := passesR91_of_exec (i := .wrreg a v) rfl hx
  obtain ⟨htr, hoff⟩ := wrreg_finishes hpass hfin
  obtain ⟨hendTransport, hendOffBus⟩ := writeCourse_end (x := s.executed (.wrreg a v)) rfl hpass
  have hends := (State.writeStopped_heard (x := s.executed (.wrreg a v)) hpass.released).trace
  rw [hendTransport, State.transport, Transport.mk.injEq] at htr
  rw [hendOffBus, State.offBus, OffBus.mk.injEq] at hoff
  obtain ⟨hen, hdone, hpend, hph, hdir, hrxend, hdata, htrace, -⟩ := htr
  obtain ⟨hmode, hix, hra, hrv, hres, hcmds, hret⟩ := hoff
  exact ⟨_, _, _, htrace.trans hends, hen, hdone, hpend, hph, hdir, hrxend, hdata, hmode, hix, hra,
    hrv, hres, hret, hcmds⟩

end Sys2Proof.Machine
end

section
/-! The transactions with the reference device (spec R39, R100): what each stage leaves in the
device and which acknowledge bits it gives. -/

namespace Sys2Proof.Machine

/-! ### The reference device along the stages -/

theorem afterStart_concat (tr : List WireEvent) (e : WireEvent) :
    afterStart (tr ++ [e]) = true ↔ e = .start ∨ e = .repStart := by
  simp [afterStart_eq_true_iff]

/-- The address byte has just been asked for. -/
theorem State.did_start_afterStart (s : State) : afterStart (s.did .start).trace = true := by
  rw [s.did_start_heard.trace, afterStart_concat, startEvent]
  split <;> simp

theorem State.did_send_not_afterStart (s : State) (b : Byte) :
    afterStart (s.did (.send b)).trace = false := by
  rw [← Bool.not_eq_true, (s.did_send_heard b).trace, afterStart_concat]
  simp

section
variable {s : State} {r : RefDev} (h : s.dev = .reference r)
include h

theorem State.did_start_reference : (s.did .start).dev = .reference { r with sel := .no } := by
  rw [s.did_start_heard.dev, h, startEvent]
  split <;> rfl

theorem State.did_stop_reference : (s.did .stop).dev = .reference { r with sel := .no } := by
  rw [s.did_stop_heard.dev, h]
  rfl

theorem State.did_recv_reference (k : Bool) : (s.did (.recv k)).dev = .reference r := by
  rw [(s.did_recv_heard k).dev, h]
  rfl

theorem State.did_send_reference (b : Byte) :
    (s.did (.send b)).dev = .reference (r.hear s.trace (.tx b (s.ackOf b))) := by
  rw [(s.did_send_heard b).dev, h]
  rfl

theorem State.ackOf_reference (b : Byte) : s.ackOf b = r.ack s.trace b := by
  rw [State.ackOf, h]
  rfl

end

/-! ### The device's own address, the pointer and the value -/

section
variable {s : State} {r : RefDev} (h : s.dev = .reference r)
include h

/-- The device acknowledges its own address. -/
theorem State.ackOf_own_address (ht : afterStart s.trace = true) (d : Dir) :
    s.ackOf (addressByte Config.devAddr7 d) = true := by
  rw [State.ackOf_reference h, r.ack_address ht]
  simp

theorem State.ackOf_selected (ht : afterStart s.trace = false) (hsel : r.sel = .wr0 ∨ r.sel = .wr1)
    (b : Byte) : s.ackOf b = true := by
  rw [State.ackOf_reference h, RefDev.ack_data ht]
  rcases hsel with hsel | hsel <;> simp [hsel]

theorem State.did_own_address (ht : afterStart s.trace = true) (d : Dir) :
    (s.did (.send (addressByte Config.devAddr7 d))).dev =
      .reference { r with sel := if d = .w then .wr0 else .rd } := by
  rw [State.did_send_reference h, r.hear_own_address ht _ (addressOf_addressByte _ d)]
  cases d <;> rfl

end

/-! ### The stages -/

section
variable {x : State} {r : RefDev} (h : x.dev = .reference r)
include h

theorem State.opened_ack : (x.did .start).ackOf 0xB4 = true :=
  State.ackOf_own_address (State.did_start_reference h) x.did_start_afterStart .w

theorem State.addressed_reference : x.addressed.dev = .reference { r with sel := .wr0 } :=
  State.did_own_address (State.did_start_reference h) x.did_start_afterStart .w

theorem State.addressed_ack (b : Byte) : x.addressed.ackOf b = true :=
  State.ackOf_selected (State.addressed_reference h) ((x.did .start).did_send_not_afterStart _)
    (.inl rfl) b

theorem State.pointed_reference :
    x.pointed.dev = .reference { r with ptr := x.ra, sel := .wr1 } := by
  have ht := (x.did .start).did_send_not_afterStart slaW
  rw [State.pointed, State.did_send_reference (State.addressed_reference h)]
  exact congrArg Device.reference (RefDev.hear_pointer ht rfl _ _)

theorem State.pointed_ack (b : Byte) : x.pointed.ackOf b = true :=
  State.ackOf_selected (State.pointed_reference h) (x.addressed.did_send_not_afterStart _)
    (.inr rfl) b

theorem State.reopened_ack : (x.pointed.did .start).ackOf 0xB5 = true :=
  State.ackOf_own_address (State.did_start_reference (State.pointed_reference h))
    x.pointed.did_start_afterStart .r

theorem State.readdressed_reference :
    x.readdressed.dev = .reference { r with ptr := x.ra, sel := .rd } :=
  State.did_own_address (State.did_start_reference (State.pointed_reference h))
    x.pointed.did_start_afterStart .r

/-- `RDREG` gets the byte at its address. -/
theorem State.answer_reference : x.answer = Memory.read r.reg x.ra.toNat := by
  rw [State.answer, State.readdressed_reference h]
  rfl

theorem State.readStopped_reference :
    x.readStopped.dev = .reference { r with ptr := x.ra, sel := .no } := by
  have hreceived : x.fetched.dev = .reference { r with ptr := x.ra, sel := .rd } := by
    rw [x.fetched_eq]
    exact State.did_recv_reference (State.readdressed_reference h) true
  exact State.did_stop_reference hreceived

/-- `WRREG` writes its value at its address. -/
theorem State.writeStopped_reference :
    x.writeStopped.dev =
      .reference { reg := Memory.write r.reg x.ra.toNat x.rv, ptr := x.ra, sel := .no } := by
  have ht := x.addressed.did_send_not_afterStart x.ra
  have hwritten : x.written.dev = .reference
      { reg := Memory.write r.reg x.ra.toNat x.rv, ptr := x.ra, sel := .wr1 } := by
    rw [State.written, State.did_send_reference (State.pointed_reference h)]
    exact congrArg Device.reference (RefDev.hear_value ht rfl _ _)
  exact State.did_stop_reference hwritten

end

/-- Only the written register reads differently after `WRREG`. -/
theorem Memory.read_write_byte {m : Memory} (h : Memory.wf m = true) (a v x : Byte) :
    Memory.read (Memory.write m a.toNat v) x.toNat =
      if x = a then v else Memory.read m x.toNat := by
  rw [Memory.read_write h]
  simp [BitVec.toNat_inj]

/-! ### `WRREG a, v ; RDREG a` -/

/-- A step of a run that follows a course, before its end. -/
theorem Course.step {n : Nat} {c : Nat → State} (hc : Course n c) {k : Nat} (hk : k < n)
    {s t : State} (hs : s.Follows (c k)) (h : Machine.step s = .next t) :
    ∃ j, j ≤ n ∧ t.Follows (c j) := by
  obtain ⟨m, hl⟩ := hc.leads k hk
  obtain ⟨u, hu, hfollows⟩ := hs.step hl
  cases hu.symm.trans h
  exact hfollows.elim (fun hx => ⟨k, hk.le, hx⟩) (fun hy => ⟨k + 1, hk, hy⟩)

theorem State.engineEnabled_of_free {s : State} (hp : s.pend = .none) :
    s.engineEnabled = false := by
  simp [State.engineEnabled, hp]

theorem step_of_ended {s : State} (hm : s.mode = .none) (hc : s.cmds = []) (hp : s.pend = .none) :
    step s = .next s := by
  simp [step, State.engineEnabled_of_free hp, (commandStep_of_host hm).1, hostStep, hc]

theorem encode_fields (i : Instr) : Laws.EncodedFields.Statement i := by
  refine Laws.EncodedFields.of_fieldsOk ?_
  cases i with
  | recv k => cases k <;> rfl
  | start | send | wait | getdata | stop | disable | enable | rdreg | wrreg => rfl

theorem decode_encode (i : Instr) : decode (encode i) = .ok i := by
  obtain ⟨hop, ha, hb, hok⟩ := encode_fields i
  refine decode_eq_ok.2 ⟨i.cmd, (Cmd.rowMatches_iff _ _).2 ⟨hop, ?_⟩, ?_⟩
  · rw [ha, hb]
    exact hok
  · rw [ha, hb]
    cases i with
    | recv k => cases k <;> rfl
    | start | send | wait | getdata | stop | disable | enable | rdreg | wrreg => rfl

/-- A transaction at the port of a host that passes its checks is presented by the next step. -/
theorem step_of_transaction {s : State} {i : Instr} {rest : List Command}
    (hi : isTransaction i = true) (h : s.PassesR91)
    (hm : s.mode = .none) (hc : s.cmds = encode i :: rest) : step s = .next (s.executed i) := by
  obtain ⟨hen, hp, hreleased⟩ := h
  rw [step_of_engineOff (State.engineEnabled_of_free hp) hm hc (decode_encode i),
    exec_of_isTransaction hi]
  exact present_eq_next.2 ⟨hen, hp, hreleased, rfl⟩

theorem State.follows_of_eq {s x : State} (htr : s.transport = x.transport)
    (hoff : s.offBus = x.offBus) (hp : s.pend = .none) : s.Follows x where
  bus := by rw [engineStep_of_free hp, htr]
  offBus := hoff
  pending h := absurd hp h

theorem State.executed_rdreg_offBus_congr {s x : State} (h : s.offBus = x.offBus) (a : Byte) :
    (s.executed (.rdreg a)).offBus = (x.executed (.rdreg a)).offBus := by
  obtain ⟨-, -, -, hrv, hres, hcmds, hret⟩ := State.offBus_eq_iff.1 h
  exact State.offBus_eq_iff.2 ⟨rfl, rfl, rfl, hrv, hres, hcmds, hret⟩

theorem State.executed_rdreg_dev (s : State) (a : Byte) :
    (s.executed (.rdreg a)).dev = s.dev := rfl

/-- The end of the course of `WRREG a, v` from `s`. -/
def State.afterWrite (s : State) (a v : Byte) : State := writeCourse (s.executed (.wrreg a v)) 10

/-- Where a run of `WRREG a, v ; RDREG a` from `s` can be: at its start, in the write's course, or
in the course of the read that begins where the write ends. -/
def InWriteThenRead (a v : Byte) (s u : State) : Prop :=
  u = s ∨
  (∃ k, k ≤ 10 ∧ u.Follows (writeCourse (s.executed (.wrreg a v)) k)) ∨
  (∃ k, k ≤ 17 ∧ u.Follows (readCourse ((s.afterWrite a v).executed (.rdreg a)) k))

section
variable {a v : Byte} {s : State} (h : s.PassesR91)
include h

theorem writeCourse_of_passesR91 : Course 10 (writeCourse (s.executed (.wrreg a v))) :=
  writeCourse_isCourse rfl h

theorem readCourse_of_passesR91 : Course 17 (readCourse (s.executed (.rdreg a))) :=
  readCourse_isCourse rfl h

/-- A state at the end of the write passes the checks of the next transaction. -/
theorem passesR91_of_afterWrite {u : State} (htr : u.transport = (s.afterWrite a v).transport) :
    u.PassesR91 := by
  have hend := (writeCourse_end (x := s.executed (.wrreg a v)) rfl h).1
  rw [← State.afterWrite, ← htr, State.transport, Transport.mk.injEq] at hend
  obtain ⟨hen, -, hp, hph, -⟩ := hend
  exact ⟨hen, hp, by rw [hph]; rfl⟩

theorem readCourse_of_afterWrite :
    Course 17 (readCourse ((s.afterWrite a v).executed (.rdreg a))) :=
  readCourse_of_passesR91 (passesR91_of_afterWrite h rfl)

/-- The host's side at the end of the write: its command has retired and returned nothing. -/
theorem afterWrite_host :
    (s.afterWrite a v).mode = .none ∧ (s.afterWrite a v).cmds = s.cmds.tail ∧
    (s.afterWrite a v).returned = s.returned := by
  have hend := (writeCourse_end (x := s.executed (.wrreg a v)) rfl h).2
  rw [← State.afterWrite, State.offBus, OffBus.mk.injEq] at hend
  obtain ⟨hmode, -, -, -, -, hcmds, hret⟩ := hend
  exact ⟨hmode, hcmds, hret⟩

theorem afterWrite_dev : (s.afterWrite a v).dev = (s.executed (.wrreg a v)).writeStopped.dev := by
  have hend := (writeCourse_end (x := s.executed (.wrreg a v)) rfl h).1
  rw [← State.afterWrite, State.transport, Transport.mk.injEq] at hend
  obtain ⟨-, -, -, -, -, -, -, -, hdev⟩ := hend
  exact hdev

variable (hm : s.mode = .none) (hc : s.cmds = [encode (.wrreg a v), encode (.rdreg a)])
include hc

/-- Where the write has ended, the next step presents the read. -/
theorem step_of_afterWrite {u : State} (hu : u.Follows (s.afterWrite a v)) :
    ∃ w, step u = .next w ∧ w.Follows ((s.afterWrite a v).executed (.rdreg a)) := by
  obtain ⟨htr, hoff⟩ := (writeCourse_of_passesR91 h).follows_last hu
  obtain ⟨hmode, hcmds, -⟩ := afterWrite_host (a := a) (v := v) h
  have hpass := passesR91_of_afterWrite h htr
  have hport : u.cmds = encode (.rdreg a) :: [] := by
    rw [show u.cmds = (s.afterWrite a v).cmds from congrArg OffBus.cmds hoff, hcmds, hc]
    rfl
  refine ⟨u.executed (.rdreg a),
    step_of_transaction rfl hpass ((congrArg OffBus.mode hoff).trans hmode) hport, ?_⟩
  exact State.follows_of_eq (State.executed_transport_congr htr _)
    (State.executed_rdreg_offBus_congr hoff a) hpass.free

/-- The host's side at the end of the read: no command is left, and its answer has been returned. -/
theorem readCourse_host {u : State}
    (hu : u.Follows (readCourse ((s.afterWrite a v).executed (.rdreg a)) 17)) :
    u.pend = .none ∧ u.cmds = [] ∧ u.mode = .none ∧
    u.returned = s.returned ++ [((s.afterWrite a v).executed (.rdreg a)).answer] := by
  obtain ⟨htr, hoff⟩ := (readCourse_of_afterWrite h).follows_last hu
  obtain ⟨hendTransport, hendOffBus⟩ :=
    readCourse_end (x := (s.afterWrite a v).executed (.rdreg a)) rfl
  rw [hendTransport, State.transport, Transport.mk.injEq] at htr
  rw [hendOffBus, State.offBus, OffBus.mk.injEq] at hoff
  obtain ⟨-, -, hp, -⟩ := htr
  obtain ⟨hmode, -, -, -, -, hcmds, hret⟩ := hoff
  obtain ⟨-, hcmdsWrite, hretWrite⟩ := afterWrite_host (a := a) (v := v) h
  refine ⟨hp, hcmds.trans ?_, hmode, hret.trans ?_⟩
  · exact (congrArg List.tail hcmdsWrite).trans (by rw [hc]; rfl)
  · exact congrArg (· ++ _) hretWrite

include hm

theorem InWriteThenRead.of_step {u w : State} (hu : InWriteThenRead a v s u)
    (hstep : step u = .next w) : InWriteThenRead a v s w := by
  rcases hu with rfl | ⟨k, hk, hfollows⟩ | ⟨k, hk, hfollows⟩
  case inl =>
    cases (step_of_transaction rfl h hm hc).symm.trans hstep
    exact .inr (.inl ⟨0, Nat.zero_le _, .refl h.free⟩)
  case inr.inl =>
    rcases hk.lt_or_eq with hlt | rfl
    · exact .inr (.inl ((writeCourse_of_passesR91 h).step hlt hfollows hstep))
    · obtain ⟨t, ht, hread⟩ := step_of_afterWrite h hc hfollows
      cases ht.symm.trans hstep
      exact .inr (.inr ⟨0, Nat.zero_le _, hread⟩)
  case inr.inr =>
    rcases hk.lt_or_eq with hlt | rfl
    · exact .inr (.inr ((readCourse_of_afterWrite h).step hlt hfollows hstep))
    · obtain ⟨hp, hcmds, hmode, -⟩ := readCourse_host h hc hfollows
      cases (step_of_ended hmode hcmds hp).symm.trans hstep
      exact .inr (.inr ⟨17, Nat.le_refl _, hfollows⟩)

/-- Once the list has ended, the read has returned its answer. -/
theorem returned_of_ended {n : Nat} {t : State} (hsteps : steps n s = .next t) (ht : t.Ended) :
    t.returned = s.returned ++ [((s.afterWrite a v).executed (.rdreg a)).answer] := by
  obtain ⟨hend, hmode⟩ := ht
  have hin : InWriteThenRead a v s t :=
    steps_keep (fun _ _ hu => InWriteThenRead.of_step h hm hc hu) n (.inl rfl) hsteps
  rcases hin with rfl | ⟨k, hk, hfollows⟩ | ⟨k, hk, hfollows⟩
  case inl => simp [hc] at hend
  case inr.inl =>
    obtain rfl := ((writeCourse_of_passesR91 h).last_iff hk hfollows).1 hmode
    obtain ⟨-, hcmds, -⟩ := afterWrite_host (a := a) (v := v) h
    have hleft : t.cmds = s.cmds.tail := (congrArg OffBus.cmds hfollows.offBus).trans hcmds
    simp [hend, hc] at hleft
  case inr.inr =>
    obtain rfl := ((readCourse_of_afterWrite h).last_iff hk hfollows).1 hmode
    obtain ⟨-, -, -, hreturned⟩ := readCourse_host h hc hfollows
    exact hreturned

end

/-- Settles O31: the acknowledge bits and the register file stage by stage; for the list of two, the
read begins where the write has ended. -/
theorem referenceDeviceReadsBack : Obligations.ReferenceDeviceReadsBack := by
  unfold Obligations.ReferenceDeviceReadsBack
  intro r a v s h hdev hwf
  have hdevWrite : (s.executed (.wrreg a v)).dev = .reference r := hdev
  have hdevRead : (s.executed (.rdreg a)).dev = .reference r := hdev
  obtain ⟨hendWrite, -⟩ := writeCourse_end (x := s.executed (.wrreg a v)) rfl h
  refine ⟨fun s1 t n hx hfin => ?write, fun s1 t n hx hfin => ?read,
    fun t n hm hc hsteps ht => ?pair⟩
  case write =>
    obtain ⟨-, rfl⟩ := passesR91_of_exec (i := .wrreg a v) rfl hx
    have htr := (wrreg_finishes h hfin).1
    have hheard := State.writeStopped_heard (x := s.executed (.wrreg a v)) h.released
    rw [State.opened_ack hdevWrite, State.addressed_ack hdevWrite, State.pointed_ack hdevWrite]
      at hheard
    rw [hendWrite, State.transport, Transport.mk.injEq] at htr
    obtain ⟨-, -, -, -, -, -, -, htrace, hdevEnd⟩ := htr
    exact ⟨htrace.trans hheard.trace, _, hdevEnd.trans (State.writeStopped_reference hdevWrite),
      Memory.read_write_byte hwf a v⟩
  case read =>
    obtain ⟨-, rfl⟩ := passesR91_of_exec (i := .rdreg a) rfl hx
    intro d
    have hanswer : (s.executed (.rdreg a)).answer = d := State.answer_reference hdevRead
    obtain ⟨htr, hoff⟩ := rdreg_finishes h hfin
    obtain ⟨hendTransport, hendOffBus⟩ := readCourse_end (x := s.executed (.rdreg a)) rfl
    have hasked := State.readdressed_heard (x := s.executed (.rdreg a)) h.released
    rw [State.opened_ack hdevRead, State.addressed_ack hdevRead, State.reopened_ack hdevRead]
      at hasked
    have hheard := hasked.append (s.executed (.rdreg a)).readStopped_heard
    rw [hendTransport, State.transport, Transport.mk.injEq] at htr
    rw [hendOffBus, State.offBus, OffBus.mk.injEq] at hoff
    rw [hanswer] at hheard hoff
    obtain ⟨-, -, -, -, -, -, -, htrace, hdevEnd⟩ := htr
    obtain ⟨-, -, -, -, -, -, hret⟩ := hoff
    exact ⟨hret, htrace.trans hheard.trace, _,
      hdevEnd.trans (State.readStopped_reference hdevRead), rfl⟩
  case pair =>
    have hdevPair : ((s.afterWrite a v).executed (.rdreg a)).dev =
        .reference { reg := Memory.write r.reg a.toNat v, ptr := a, sel := .no } := by
      rw [State.executed_rdreg_dev, afterWrite_dev h]
      exact State.writeStopped_reference hdevWrite
    have hanswer : ((s.afterWrite a v).executed (.rdreg a)).answer = v :=
      calc ((s.afterWrite a v).executed (.rdreg a)).answer
        _ = Memory.read (Memory.write r.reg a.toNat v) a.toNat := State.answer_reference hdevPair
        _ = v := by rw [Memory.read_write_byte hwf, if_pos rfl]
    rw [returned_of_ended h hm hc hsteps ht, hanswer]

end Sys2Proof.Machine
end

section
/-! A transaction and its list of primitives (spec R98). The two runs go in lockstep: at every step
the same turn is taken, and the rules they execute agree (`Act.Agrees`) because a rule looks at the
compared part of the state only. What may differ is the rest, related by `Beside`: at first the one
run is inside the transaction and the other inside the list, and from the end of the transaction on
only registers differ that nothing reads. -/

namespace Sys2Proof.Machine

/-! ### The compared part of a state -/

theorem State.view_eq_iff {s t : State} :
    t.view = s.view ↔ t.transport = s.transport ∧ t.sched = s.sched ∧ t.draws = s.draws := by
  simp only [State.view, BusView.mk.injEq, State.transport_eq_iff]
  constructor
  · rintro ⟨h1, h2, h3, h4, h5, h6, h7, h8, h9, h10, h11⟩
    exact ⟨⟨h1, h2, h3, h4, h5, h6, h7, h8, h11⟩, h9, h10⟩
  · rintro ⟨⟨h1, h2, h3, h4, h5, h6, h7, h8, h11⟩, h9, h10⟩
    exact ⟨h1, h2, h3, h4, h5, h6, h7, h8, h9, h10, h11⟩

section
variable {s t : State} (h : t.view = s.view)
include h

theorem State.turnTaken_view_congr : t.turnTaken.view = s.turnTaken.view := by
  obtain ⟨htr, hsched, hdraws⟩ := State.view_eq_iff.1 h
  refine State.view_eq_iff.2 ⟨?_, ?_⟩
  · rw [t.turnTaken_transport, s.turnTaken_transport, htr]
  · unfold State.turnTaken
    rw [hsched]
    split <;> simp [hdraws]

theorem engineStep_view_congr : (engineStep t).view = (engineStep s).view := by
  obtain ⟨htr, hsched, hdraws⟩ := State.view_eq_iff.1 h
  obtain ⟨-, -, -, -, -, -, -, -, hts, htd⟩ := engineStep_frame t
  obtain ⟨-, -, -, -, -, -, -, -, hss, hsd⟩ := engineStep_frame s
  exact State.view_eq_iff.2 ⟨engineStep_transport_congr htr, by rw [hts, hss, hsched],
    by rw [htd, hsd, hdraws]⟩

theorem State.engineEnabled_congr : t.engineEnabled = s.engineEnabled := by
  obtain ⟨htr, -⟩ := State.view_eq_iff.1 h
  obtain ⟨hen, -, hpend, -⟩ := State.transport_eq_iff.1 htr
  rw [State.engineEnabled, State.engineEnabled, hen, hpend]

theorem State.nextTurn_congr : t.nextTurn = s.nextTurn := by
  obtain ⟨-, hsched, hdraws⟩ := State.view_eq_iff.1 h
  rw [State.nextTurn, State.nextTurn, hsched, hdraws]

end

/-! ### Two outcomes that agree -/

/-- Both are next states that `R` relates, or both are the same fault. -/
def Lockstep (R : State → State → Prop) (o o' : Host.Outcome State Fault Refusal) : Prop :=
  (∃ u v, o = .next u ∧ o' = .next v ∧ R u v) ∨ (∃ f, o = .fault f ∧ o' = .fault f)

theorem Lockstep.next {R : State → State → Prop} {u v : State} (h : R u v) :
    Lockstep R (.next u) (.next v) :=
  .inl ⟨u, v, rfl, rfl, h⟩

theorem Lockstep.fault {R : State → State → Prop} (f : Fault) :
    Lockstep R (.fault f) (.fault f) :=
  .inr ⟨f, rfl, rfl⟩

/-- A relation every step keeps is kept by every run. -/
theorem lockstep_steps {R : State → State → Prop}
    (hstep : ∀ u v, R u v → Lockstep R (step u) (step v)) (n : Nat) {u v : State} (h : R u v) :
    Lockstep R (steps n u) (steps n v) := by
  induction n generalizing u v with
  | zero => exact .next h
  | succ n ih =>
    rcases hstep u v h with ⟨u', v', hu, hv, h'⟩ | ⟨f, hu, hv⟩
    · rw [steps_succ_next hu, steps_succ_next hv]
      exact ih h'
    · rw [steps_succ_fault hu, steps_succ_fault hv]
      exact .fault f

/-- The states agree on the compared part, and their other parts are related by `Q`. -/
structure Beside (Q : OffBus → OffBus → Prop) (u v : State) : Prop where
  view : u.view = v.view
  rest : Q u.offBus v.offBus

theorem Beside.turnTaken {Q : OffBus → OffBus → Prop} {u v : State} (h : Beside Q u v) :
    Beside Q u.turnTaken v.turnTaken where
  view := State.turnTaken_view_congr h.view
  rest := by rw [u.turnTaken_offBus, v.turnTaken_offBus]; exact h.rest

theorem Beside.engineStep {Q : OffBus → OffBus → Prop} {u v : State} (h : Beside Q u v) :
    Beside Q (engineStep u) (engineStep v) where
  view := engineStep_view_congr h.view
  rest := by rw [u.engineStep_offBus, v.engineStep_offBus]; exact h.rest

/-- The two sides take the same turn, so only the command side's step is left to compare. -/
theorem Beside.step {Q : OffBus → OffBus → Prop}
    (hcommand : ∀ u v, Beside Q u v → Lockstep (Beside Q) (commandStep u) (commandStep v))
    (u v : State) (h : Beside Q u v) : Lockstep (Beside Q) (Machine.step u) (Machine.step v) := by
  have hen := State.engineEnabled_congr h.view
  have hturn := State.nextTurn_congr h.view
  unfold Machine.step
  rw [hen, hturn]
  split
  · split
    · exact .next h.turnTaken.engineStep
    · exact hcommand _ _ h.turnTaken
  · exact hcommand _ _ h

/-! ### Two rules that agree -/

/-- The two rules end in the same way, in states that agree on the compared part and leave their own
other part unchanged. -/
inductive Act.Agrees (s t : State) : Act → Act → Prop
  | retire {u v : State} (hview : u.view = v.view) (hu : u.offBus = s.offBus)
      (hv : v.offBus = t.offBus) : Agrees s t (.retire u) (.retire v)
  | retireWith (b : Byte) {u v : State} (hview : u.view = v.view) (hu : u.offBus = s.offBus)
      (hv : v.offBus = t.offBus) : Agrees s t (.retireWith b u) (.retireWith b v)
  | hold : Agrees s t .hold .hold
  | raise (f : Fault) : Agrees s t (.raise f) (.raise f)

section
variable {s t : State} (h : s.view = t.view)
include h

theorem State.executed_view_congr (i : Instr) : (s.executed i).view = (t.executed i).view := by
  obtain ⟨htr, hsched, hdraws⟩ := State.view_eq_iff.1 h
  have hdata := congrArg Transport.data htr
  refine State.view_eq_iff.2 ⟨State.executed_transport_congr htr i, ?_⟩
  cases i with
  | disable => simp [State.executed_disable, State.switchedOff, hsched, hdraws]
  | getdata =>
    have : s.data = t.data := hdata
    simp only [State.executed, State.readData, this]
    split <;> simp [hsched, hdraws]
  | start | send | recv | stop | wait | enable | rdreg | wrreg => exact ⟨hsched, hdraws⟩

theorem enabledAndFree_congr (c : Cmd) : enabledAndFree c s = enabledAndFree c t := by
  obtain ⟨hen, -, hpend, -⟩ := State.transport_eq_iff.1 (State.view_eq_iff.1 h).1
  rw [enabledAndFree, enabledAndFree, hen, hpend]

theorem launch_agrees (c : Cmd) (p : Pend) :
    Act.Agrees s t (launch c (p.legal s.ph s.dir s.rxend) p s)
      (launch c (p.legal t.ph t.dir t.rxend) p t) := by
  obtain ⟨htr, hsched, hdraws⟩ := State.view_eq_iff.1 h
  obtain ⟨hen, -, -, hph, hdir, hrxend, hdata, htrace, hdev⟩ := State.transport_eq_iff.1 htr
  rw [launch, launch, enabledAndFree_congr h, hph, hdir, hrxend]
  split
  · exact .raise _
  · split
    · refine .retire (State.view_eq_iff.2 ⟨State.transport_eq_iff.2 ?_, hsched, hdraws⟩) rfl rfl
      exact ⟨hen, rfl, rfl, hph, hdir, hrxend, hdata, htrace, hdev⟩
    · exact .raise _

theorem State.readData_congr : s.readData.1 = t.readData.1 := by
  obtain ⟨htr, -, hdraws⟩ := State.view_eq_iff.1 h
  have hdata : s.data = t.data := congrArg Transport.data htr
  rw [State.readData, State.readData, hdata, hdraws]
  split <;> rfl

/-- A rule looks at the compared part only. -/
theorem ruleOf_agrees {i : Instr} {a a' : Act} (ha : ruleOf i s = some a)
    (ha' : ruleOf i t = some a') : Act.Agrees s t a a' := by
  have hview := State.executed_view_congr h i
  have hs (hi : isTransaction i = false) := State.executed_offBus hi s
  have ht (hi : isTransaction i = false) := State.executed_offBus hi t
  obtain ⟨-, hdone, hpend, -⟩ := State.transport_eq_iff.1 (State.view_eq_iff.1 h).1
  cases i with
  | start => cases ha; cases ha'; exact launch_agrees h .start .start
  | send b => cases ha; cases ha'; exact launch_agrees h .send (.send b)
  | recv k => cases ha; cases ha'; exact launch_agrees h .recv (.recv k)
  | stop => cases ha; cases ha'; exact launch_agrees h .stop .stop
  | wait =>
    cases ha
    cases ha'
    rw [waitRule, waitRule, hdone]
    split
    · exact .retire hview (hs rfl) (ht rfl)
    · exact .hold
  | getdata =>
    cases ha
    cases ha'
    rw [getdataRule, getdataRule, hpend, State.readData_congr h]
    split
    · exact .retireWith _ hview (hs rfl) (ht rfl)
    · exact .raise _
  | disable | enable => cases ha; cases ha'; exact .retire hview (hs rfl) (ht rfl)
  | rdreg | wrreg => cases ha

end

/-! ### How far the two runs are -/

/-- The list of host commands that the running transaction is equivalent to. -/
def OffBus.primitives (o : OffBus) : List Instr :=
  match o.mode with
  | .none => []
  | .rd => readAsPrimitives o.ra
  | .wr => writeAsPrimitives o.ra o.rv

/-- The byte the running transaction has read so far, if it has. -/
def OffBus.fetched (o : OffBus) : List Byte :=
  if MicroOp.getdata ∈ o.mode.program.take o.stepIx.toNat then [o.res] else []

/-- What is left of a transaction when its last micro-operation has retired (R95). -/
def OffBus.finished (o : OffBus) : OffBus :=
  { o with mode := .none, stepIx := 0, cmds := o.cmds.tail, returned := o.returned ++ o.fetched }

/-- The first run stands at a micro-operation, the second at the same command of the list. -/
structure Inside (o o' : OffBus) : Prop where
  running : o.stepIx.toNat < o.mode.program.length
  host : o'.mode = .none
  cmds : o'.cmds = (o.primitives.drop o.stepIx.toNat).map encode ++ o.cmds.tail
  returned : o'.returned = o.returned ++ o.fetched

/-- The two runs do the same from here on. -/
structure Outside (o o' : OffBus) : Prop where
  mode : o.mode = o'.mode
  stepIx : o.mode ≠ .none → o.stepIx = o'.stepIx
  primitives : o.primitives = o'.primitives
  fetched : o.fetched = o'.fetched
  cmds : o.cmds = o'.cmds
  returned : o.returned = o'.returned

theorem State.primitives_eq (s : State) :
    s.mode.program.map (fun m => m.command s) = s.offBus.primitives := by
  have hmode : s.offBus.mode = s.mode := rfl
  rw [OffBus.primitives, hmode]
  cases s.mode <;> rfl

/-- `GETDATA` stands once in `RDREG`'s micro-program and not in `WRREG`'s. -/
theorem Mode.getdata_notMem_take {d : Mode} {k : Nat} (h : d.program[k]? = some .getdata) :
    MicroOp.getdata ∉ d.program.take k ∧ k + 1 < d.program.length := by
  have hk := lt_length_program h
  cases d with
  | none => cases h
  | rd =>
    have hall : ∀ k < rdProgram.length, rdProgram[k]? = some .getdata →
        MicroOp.getdata ∉ rdProgram.take k ∧ k + 1 < rdProgram.length := by decide
    exact hall k hk h
  | wr =>
    have hall : ∀ k < wrProgram.length, wrProgram[k]? ≠ some .getdata := by decide
    exact absurd h (hall k hk)

section
variable {s : State} {m : MicroOp} (hm : s.microOp = some m)
include hm

theorem State.stepIx_lt : s.stepIx.toNat < s.mode.program.length :=
  lt_length_program hm

theorem State.advance_offBus_cases :
    (s.stepIx.toNat + 1 < s.mode.program.length ∧
      s.advance.offBus = { s.offBus with stepIx := s.stepIx + 1 }) ∨
    (s.stepIx.toNat + 1 = s.mode.program.length ∧ s.advance.offBus = s.offBus.finished) := by
  have hk := State.stepIx_lt hm
  by_cases hlt : s.stepIx.toNat + 1 < s.mode.program.length
  · refine .inl ⟨hlt, ?_⟩
    rw [State.advance, if_pos hlt]
    rfl
  · have hlast : s.stepIx.toNat + 1 = s.mode.program.length := by omega
    refine .inr ⟨hlast, ?_⟩
    rw [State.advance, if_neg hlt]
    cases hmode : s.mode with
    | none => simp [hmode, Mode.program] at hk
    | rd =>
      have hix : s.stepIx.toNat = 16 := by simpa [hmode, Mode.program, rdProgram] using hlast
      have hfetched : s.offBus.fetched = [s.res] := by
        simp [OffBus.fetched, State.offBus, hmode, hix, Mode.program, rdProgram]
      rw [OffBus.finished, hfetched, State.finish_of_rd hmode]
      rfl
    | wr =>
      have hix : s.stepIx.toNat = 9 := by simpa [hmode, Mode.program, wrProgram] using hlast
      have hfetched : s.offBus.fetched = [] := by
        simp [OffBus.fetched, State.offBus, hmode, hix, Mode.program, wrProgram]
      rw [OffBus.finished, hfetched, State.finish_of_wr hmode, List.append_nil]
      rfl

omit hm in
theorem State.stepIx_succ (hlt : s.stepIx.toNat + 1 < s.mode.program.length) :
    (s.stepIx + 1).toNat = s.stepIx.toNat + 1 := by
  have hle := s.mode.length_program_le
  bv_omega

/-- At the next micro-operation the byte is read if it was before, or is read by this one. -/
theorem State.fetched_next (hlt : s.stepIx.toNat + 1 < s.mode.program.length) (b : Byte) :
    OffBus.fetched { s.offBus with stepIx := s.stepIx + 1, res := b } =
      if MicroOp.getdata ∈ s.mode.program.take s.stepIx.toNat ∨ m = .getdata then [b] else [] := by
  have htake : MicroOp.getdata ∈ s.mode.program.take (s.stepIx + 1).toNat ↔
      MicroOp.getdata ∈ s.mode.program.take s.stepIx.toNat ∨ m = .getdata := by
    rw [State.microOp] at hm
    rw [State.stepIx_succ hlt, List.take_add_one, hm]
    simp [eq_comm]
  exact if_congr htake rfl rfl

theorem State.fetched_succ (hlt : s.stepIx.toNat + 1 < s.mode.program.length) (hg : m ≠ .getdata) :
    OffBus.fetched { s.offBus with stepIx := s.stepIx + 1 } = s.offBus.fetched := by
  refine (State.fetched_next hm hlt s.res).trans ?_
  simp only [hg, or_false]
  rfl

theorem State.fetched_getdata (hg : m = .getdata) (b : Byte) :
    s.offBus.fetched = [] ∧
    OffBus.fetched { s.offBus with stepIx := s.stepIx + 1, res := b } = [b] := by
  subst hg
  obtain ⟨hnot, hlt⟩ := Mode.getdata_notMem_take hm
  refine ⟨if_neg hnot, ?_⟩
  rw [State.fetched_next hm hlt, if_pos (.inr rfl)]

end

/-! ### One step inside and outside the transaction -/

/-- What the sequencer and the host do with a rule's byte, or with none (R94). -/
theorem State.advance_view (s : State) : s.advance.view = s.view := by
  unfold State.advance
  split
  · rfl
  · unfold State.finish
    split <;> rfl

theorem exists_ruleOf {i : Instr} (h : isTransaction i = false) (s : State) :
    ∃ a, ruleOf i s = some a := by
  cases i with
  | rdreg | wrreg => cases h
  | start | send | recv | wait | getdata | stop | disable | enable => exact ⟨_, rfl⟩

/-- At a micro-operation, the list's front command is the host command of the same name. -/
theorem Inside.front {u v : State} {m : MicroOp} (h : Inside u.offBus v.offBus)
    (hm : u.microOp = some m) :
    v.cmds = encode (m.command u) ::
      ((u.offBus.primitives.drop (u.stepIx.toNat + 1)).map encode ++ u.cmds.tail) := by
  have hfront : u.offBus.primitives[u.stepIx.toNat]? = some (m.command u) := by
    rw [← u.primitives_eq, List.getElem?_map, ← State.microOp, hm]
    rfl
  obtain ⟨hlt, hget⟩ := List.getElem?_eq_some_iff.1 hfront
  have hcmds := h.cmds
  rw [show u.offBus.stepIx = u.stepIx from rfl, List.drop_eq_getElem_cons hlt, hget] at hcmds
  exact hcmds

/-- To the next micro-operation, with `bs` read by this one. -/
theorem Inside.next {u v : State} {m : MicroOp} (h : Inside u.offBus v.offBus)
    (hm : u.microOp = some m) (hlt : u.stepIx.toNat + 1 < u.mode.program.length) {r : Byte}
    {bs : List Byte}
    (hr : OffBus.fetched { u.offBus with stepIx := u.stepIx + 1, res := r } =
      u.offBus.fetched ++ bs) :
    Inside { u.offBus with stepIx := u.stepIx + 1, res := r }
      { v.offBus with cmds := v.cmds.tail, returned := v.returned ++ bs } where
  running := by rw [State.stepIx_succ hlt]; exact hlt
  host := h.host
  cmds := by rw [State.stepIx_succ hlt, h.front hm]; rfl
  returned := by
    have hreturned : v.returned = u.returned ++ u.offBus.fetched := h.returned
    rw [hr, hreturned, List.append_assoc]
    rfl

theorem OffBus.nothing_of_host {o : OffBus} (h : o.mode = .none) :
    o.primitives = [] ∧ o.fetched = [] := by
  simp [OffBus.primitives, OffBus.fetched, h, Mode.program]

theorem Outside.of_host {o o' : OffBus} (hm : o.mode = .none) (hm' : o'.mode = .none)
    (hcmds : o.cmds = o'.cmds) (hret : o.returned = o'.returned) : Outside o o' := by
  obtain ⟨hp, hf⟩ := OffBus.nothing_of_host hm
  obtain ⟨hp', hf'⟩ := OffBus.nothing_of_host hm'
  exact ⟨hm.trans hm'.symm, fun h => absurd hm h, hp.trans hp'.symm, hf.trans hf'.symm, hcmds, hret⟩

/-- The last command of the list retires with the transaction. -/
theorem Inside.last {u v : State} {m : MicroOp} (h : Inside u.offBus v.offBus)
    (hm : u.microOp = some m) (hlast : u.stepIx.toNat + 1 = u.mode.program.length) :
    Outside u.offBus.finished v.retire.offBus := by
  have hlength : u.offBus.primitives.length = u.stepIx.toNat + 1 := by
    rw [← u.primitives_eq, List.length_map, hlast]
  have hfront := h.front hm
  rw [List.drop_of_length_le hlength.le] at hfront
  refine .of_host rfl h.host ?_ h.returned.symm
  exact (congrArg List.tail hfront).symm

/-- Past a micro-operation that reads nothing, the two runs are inside again, or outside. -/
theorem Inside.retire {u v : State} {m : MicroOp} (h : Inside u.offBus v.offBus)
    (hm : u.microOp = some m) (hg : m ≠ .getdata) :
    Inside u.advance.offBus v.retire.offBus ∨ Outside u.advance.offBus v.retire.offBus := by
  rcases State.advance_offBus_cases hm with ⟨hlt, hadv⟩ | ⟨hlast, hadv⟩ <;> rw [hadv]
  · have hnext := h.next hm hlt (r := u.res) (bs := [])
      ((State.fetched_succ hm hlt hg).trans (List.append_nil _).symm)
    rw [List.append_nil] at hnext
    exact .inl hnext
  · exact .inr (h.last hm hlast)

/-- Past `GETDATA` both runs hold the byte read, `RES` or returned. -/
theorem Inside.retireWith {u v : State} (h : Inside u.offBus v.offBus)
    (hm : u.microOp = some .getdata) (b : Byte) :
    Inside (State.advance { u with res := b }).offBus (v.retireWith b).offBus := by
  obtain ⟨-, hlt⟩ := Mode.getdata_notMem_take hm
  obtain ⟨hnone, hb⟩ := State.fetched_getdata hm rfl b
  have hadv : (State.advance { u with res := b }).offBus =
      { u.offBus with stepIx := u.stepIx + 1, res := b } := by
    rw [State.advance, if_pos hlt]
    rfl
  rw [hadv]
  exact h.next hm hlt (hb.trans (by rw [hnone]; rfl))

/-- To the next micro-operation in both runs. -/
theorem Outside.next {u v : State} (h : Outside u.offBus v.offBus) (hrun : u.mode ≠ .none)
    {r r' : Byte}
    (hr : OffBus.fetched { u.offBus with stepIx := u.stepIx + 1, res := r } =
      OffBus.fetched { v.offBus with stepIx := v.stepIx + 1, res := r' }) :
    Outside { u.offBus with stepIx := u.stepIx + 1, res := r }
      { v.offBus with stepIx := v.stepIx + 1, res := r' } where
  mode := h.mode
  stepIx _ := congrArg (· + 1) (h.stepIx hrun)
  primitives := h.primitives
  fetched := hr
  cmds := h.cmds
  returned := h.returned

theorem Outside.finished {o o' : OffBus} (h : Outside o o') : Outside o.finished o'.finished := by
  refine .of_host rfl rfl (congrArg List.tail h.cmds) ?_
  rw [OffBus.finished, OffBus.finished, h.returned, h.fetched]

theorem Outside.retire {u v : State} {m : MicroOp} (h : Outside u.offBus v.offBus)
    (hmu : u.microOp = some m) (hmv : v.microOp = some m) (hg : m ≠ .getdata) :
    Outside u.advance.offBus v.advance.offBus := by
  have hrun := State.mode_ne_none_of_microOp hmu
  have hmode : u.mode = v.mode := h.mode
  have hix : u.stepIx = v.stepIx := h.stepIx hrun
  rcases State.advance_offBus_cases hmu with ⟨hlt, hu⟩ | ⟨hlast, hu⟩ <;>
    rcases State.advance_offBus_cases hmv with ⟨hlt', hv⟩ | ⟨hlast', hv⟩
  · rw [hu, hv]
    exact h.next hrun ((State.fetched_succ hmu hlt hg).trans
      (h.fetched.trans (State.fetched_succ hmv hlt' hg).symm))
  · rw [hmode, hix] at hlt
    omega
  · rw [hmode, hix] at hlast
    omega
  · rw [hu, hv]
    exact h.finished

theorem Outside.retireWith {u v : State} (h : Outside u.offBus v.offBus)
    (hmu : u.microOp = some .getdata) (hmv : v.microOp = some .getdata) (b : Byte) :
    Outside (State.advance { u with res := b }).offBus
      (State.advance { v with res := b }).offBus := by
  have hadv {s : State} (hm : s.microOp = some .getdata) :
      (State.advance { s with res := b }).offBus =
        { s.offBus with stepIx := s.stepIx + 1, res := b } := by
    rw [State.advance, if_pos (Mode.getdata_notMem_take hm).2]
    rfl
  rw [hadv hmu, hadv hmv]
  exact h.next (State.mode_ne_none_of_microOp hmu)
    ((State.fetched_getdata hmu rfl b).2.trans (State.fetched_getdata hmv rfl b).2.symm)

/-! ### The relation of the two runs -/

/-- How the parts that are not compared are related. -/
def InsideOrOutside (o o' : OffBus) : Prop := Inside o o' ∨ Outside o o'

/-- Inside the transaction the sequencer and the host of the list execute the same rule. -/
theorem lockstep_inside {u v : State} (hview : u.view = v.view) (h : Inside u.offBus v.offBus) :
    Lockstep (Beside InsideOrOutside) (commandStep u) (commandStep v) := by
  obtain ⟨m, hm⟩ : ∃ m, u.microOp = some m := ⟨_, List.getElem?_eq_getElem h.running⟩
  obtain ⟨a', ha'⟩ := exists_ruleOf (m.not_isTransaction u) v
  have hagrees := ruleOf_agrees hview (ruleOf_command m u) ha'
  rw [(commandStep_of_running (State.mode_ne_none_of_microOp hm)).1, sequencerStep_of_microOp hm,
    (commandStep_of_host h.host).1, hostStep_of_decode_ok (h.front hm) (decode_encode _),
    exec_of_ruleOf ha']
  generalize hr : m.rule u = a at hagrees
  cases hagrees with
  | hold => exact .next ⟨hview, .inl h⟩
  | raise f => exact .fault f
  | @retire t t' ht hu hv =>
    rw [← hu, ← hv] at h
    refine .next ⟨t.advance_view.trans ht, ?_⟩
    exact h.retire ((State.microOp_congr hu).trans hm) (ne_getdata_of_rule_retire hr)
  | @retireWith b t t' ht hu hv =>
    cases eq_getdata_of_rule_retireWith hr
    rw [← hu, ← hv] at h
    refine .next ⟨(State.advance_view _).trans ht, .inl ?_⟩
    exact h.retireWith ((State.microOp_congr hu).trans hm) b

/-- Outside it the two sequencers execute the same micro-operation. -/
theorem lockstep_sequencer {u v : State} (hview : u.view = v.view)
    (h : Outside u.offBus v.offBus) (hrun : u.mode ≠ .none) :
    Lockstep (Beside InsideOrOutside) (sequencerStep u) (sequencerStep v) := by
  have hmode : u.mode = v.mode := h.mode
  have hix : u.stepIx = v.stepIx := h.stepIx hrun
  have hop : v.microOp = u.microOp := by rw [State.microOp, State.microOp, hmode, hix]
  cases hm : u.microOp with
  | none =>
    rw [sequencerStep, hm, sequencerStep, hop, hm]
    exact .next ⟨hview, .inr h⟩
  | some m =>
    have hcommand : m.command u = m.command v := by
      have hprims : u.offBus.primitives = v.offBus.primitives := h.primitives
      rw [← u.primitives_eq, ← v.primitives_eq, hmode] at hprims
      exact List.map_inj_left.1 hprims m
        (List.mem_of_getElem? (i := v.stepIx.toNat) (hop.trans hm))
    have hagrees := ruleOf_agrees hview (ruleOf_command m u) (hcommand ▸ ruleOf_command m v)
    rw [sequencerStep_of_microOp hm, sequencerStep_of_microOp (hop.trans hm)]
    generalize hr : m.rule u = a, m.rule v = a' at hagrees
    cases hagrees with
    | hold => exact .next ⟨hview, .inr h⟩
    | raise f => exact .fault f
    | @retire t t' ht hu hv =>
      rw [← hu, ← hv] at h
      refine .next ⟨t.advance_view.trans (ht.trans t'.advance_view.symm), .inr ?_⟩
      exact h.retire ((State.microOp_congr hu).trans hm)
        ((State.microOp_congr hv).trans (hop.trans hm)) (ne_getdata_of_rule_retire hr)
    | @retireWith b t t' ht hu hv =>
      cases eq_getdata_of_rule_retireWith hr
      rw [← hu, ← hv] at h
      refine .next ⟨(State.advance_view _).trans
        (ht.trans (State.advance_view { t' with res := b }).symm), .inr ?_⟩
      exact h.retireWith ((State.microOp_congr hu).trans hm)
        ((State.microOp_congr hv).trans (hop.trans hm)) b

/-- A transaction presented by both hosts starts in both in the same way; `RES`, and for `RDREG`
also `RV`, need not be the same. -/
theorem Outside.executed {u v : State} (h : Outside u.offBus v.offBus) {i : Instr}
    (hi : isTransaction i = true) : Outside (u.executed i).offBus (v.executed i).offBus := by
  cases i with
  | rdreg | wrreg => exact ⟨rfl, fun _ => rfl, rfl, by simp [OffBus.fetched, State.offBus,
      State.executed], h.cmds, h.returned⟩
  | start | send | recv | wait | getdata | stop | disable | enable => cases hi

/-- Outside it the two hosts execute the same command. -/
theorem lockstep_exec {u v : State} (hview : u.view = v.view) (h : Outside u.offBus v.offBus)
    (hhost : u.mode = .none) (i : Instr) :
    Lockstep (Beside InsideOrOutside) (exec i u) (exec i v) := by
  have hhost' : v.mode = .none := h.mode.symm.trans hhost
  cases hi : isTransaction i with
  | true =>
    have hph : u.ph = v.ph := congrArg BusView.ph hview
    rw [exec_of_isTransaction hi, exec_of_isTransaction hi, present, present,
      enabledAndFree_congr hview, hph]
    split
    · exact .fault _
    · split
      · exact .next ⟨State.executed_view_congr hview i, .inr (h.executed hi)⟩
      · exact .fault _
  | false =>
    obtain ⟨a, ha⟩ := exists_ruleOf hi u
    obtain ⟨a', ha'⟩ := exists_ruleOf hi v
    have hagrees := ruleOf_agrees hview ha ha'
    rw [exec_of_ruleOf ha, exec_of_ruleOf ha']
    cases hagrees with
    | hold => exact .next ⟨hview, .inr h⟩
    | raise f => exact .fault f
    | @retire t t' ht hu hv =>
      have hmt : t.mode = .none := (congrArg OffBus.mode hu).trans hhost
      have hmt' : t'.mode = .none := (congrArg OffBus.mode hv).trans hhost'
      rw [← hu, ← hv] at h
      exact .next ⟨ht, .inr (.of_host hmt hmt' (congrArg List.tail h.cmds) h.returned)⟩
    | @retireWith b t t' ht hu hv =>
      have hmt : t.mode = .none := (congrArg OffBus.mode hu).trans hhost
      have hmt' : t'.mode = .none := (congrArg OffBus.mode hv).trans hhost'
      rw [← hu, ← hv] at h
      exact .next ⟨ht, .inr (.of_host hmt hmt' (congrArg List.tail h.cmds)
        (congrArg (· ++ [b]) h.returned))⟩

theorem lockstep_hostStep {u v : State} (hview : u.view = v.view) (h : Outside u.offBus v.offBus)
    (hhost : u.mode = .none) : Lockstep (Beside InsideOrOutside) (hostStep u) (hostStep v) := by
  have hcmds : u.cmds = v.cmds := h.cmds
  cases hc : u.cmds with
  | nil =>
    rw [hostStep, hc, hostStep, ← hcmds, hc]
    exact .next ⟨hview, .inr h⟩
  | cons w rest =>
    have hc' : v.cmds = w :: rest := hcmds.symm.trans hc
    cases hd : decode w with
    | error e =>
      rw [hostStep_of_decode_error hc hd, hostStep_of_decode_error hc' hd]
      exact .fault _
    | ok i =>
      rw [hostStep_of_decode_ok hc hd, hostStep_of_decode_ok hc' hd]
      exact lockstep_exec hview h hhost i

theorem lockstep_commandStep (u v : State) (h : Beside InsideOrOutside u v) :
    Lockstep (Beside InsideOrOutside) (commandStep u) (commandStep v) := by
  rcases h.rest with hin | hout
  · exact lockstep_inside h.view hin
  · have hmode : u.mode = v.mode := hout.mode
    by_cases hhost : u.mode = .none
    · rw [(commandStep_of_host hhost).1, (commandStep_of_host (hmode ▸ hhost)).1]
      exact lockstep_hostStep h.view hout hhost
    · rw [(commandStep_of_running hhost).1, (commandStep_of_running (hmode ▸ hhost)).1]
      exact lockstep_sequencer h.view hout hhost

/-- With no transaction running, the two runs are outside. -/
theorem InsideOrOutside.host_eq {o o' : OffBus} (h : InsideOrOutside o o') (hm : o.mode = .none) :
    o.returned = o'.returned ∧ o.cmds = o'.cmds := by
  rcases h with hin | hout
  · have hrun := hin.running
    simp [hm, Mode.program] at hrun
  · exact ⟨hout.returned, hout.cmds⟩

/-- A transaction just presented stands beside the list of its primitives. -/
theorem beside_primitives {i : Instr} {prims : List Instr} {s : State}
    (hprims : (∃ a, i = .rdreg a ∧ prims = readAsPrimitives a) ∨
      (∃ a v, i = .wrreg a v ∧ prims = writeAsPrimitives a v)) (hm : s.mode = .none) :
    Beside InsideOrOutside (s.executed i) { s with cmds := prims.map encode ++ s.cmds.tail } := by
  rcases hprims with ⟨a, rfl, rfl⟩ | ⟨a, v, rfl, rfl⟩
  · exact ⟨rfl, .inl ⟨Nat.zero_lt_succ _, hm, rfl, (List.append_nil _).symm⟩⟩
  · exact ⟨rfl, .inl ⟨Nat.zero_lt_succ _, hm, rfl, (List.append_nil _).symm⟩⟩

/-- Settles O30: the two runs start beside each other and go in lockstep; with a transaction open,
the check of R91 fails and the list's first command leaves `Sr`. -/
theorem transactionsEqualPrimitives : Obligations.TransactionsEqualPrimitives := by
  unfold Obligations.TransactionsEqualPrimitives
  refine ⟨fun i prims s s1 n hprims hm hx => ?same, fun i s hi he hp hph => ?differs⟩
  case same =>
    have hi : isTransaction i = true := by
      rcases hprims with ⟨a, rfl, -⟩ | ⟨a, v, rfl, -⟩ <;> rfl
    obtain ⟨-, rfl⟩ := passesR91_of_exec hi hx
    rcases lockstep_steps (Beside.step lockstep_commandStep) n (beside_primitives hprims hm) with
      ⟨u, v, hu, hv, hbeside⟩ | hfault
    · exact .inl ⟨u, v, hu, hv, hbeside.view, hbeside.rest.host_eq⟩
    · exact .inr hfault
  case differs =>
    have hopen : s.ph ∉ [.idle, .stopSent] := by
      intro h
      cases hs : s.ph <;> simp [hs] at h hph
    have hlegal : s.allows .start = true := startLegal_iff.2 (by rintro hs; simp [hs] at hph)
    obtain ⟨hstart, htrace⟩ := start_gives he hp rfl hlegal
    rw [exec_of_isTransaction hi]
    refine ⟨present_of_open he hp (mt Phase.released_iff.1 hopen), _, hstart, ?_⟩
    rw [htrace _ hstart, startEvent_of_open hopen]

end Sys2Proof.Machine
end

section
/-! The faults of the rules (spec R111 to R117): `exec_eq_fault` gives, for every command at once, the
conditions under which its execution stops and the fault it stops with. The launches, the transactions
and `GETDATA` bring one case each; `WAIT`, `DISABLE` and `ENABLE` always have a next state. -/

namespace Sys2Proof.Machine

/-! ### How an execution ends -/

theorem hostResult_eq_fault {s : State} {a : Act} {f : Fault} :
    hostResult s a = .fault f ↔ a = .raise f := by
  cases a <;> simp [hostResult]

theorem hostResult_ne_refused (s : State) (a : Act) (r : Refusal) : hostResult s a ≠ .refused r := by
  cases a <;> simp [hostResult]

/-- A presentation raises exactly the first check of R91 that fails. -/
theorem present_eq_fault {c : Cmd} {u s : State} {f : Fault} :
    present c u s = .fault f ↔
      (s.en = false ∧ f = .disabled c) ∨
      (s.en = true ∧ s.pend ≠ .none ∧ f = .busy c s.pend) ∨
      (s.en = true ∧ s.pend = .none ∧ s.ph.released = false ∧ f = .transactionOpen c s.ph) := by
  unfold present
  split
  · next g hg =>
    rcases enabledAndFree_eq_some.1 hg with ⟨he, rfl⟩ | ⟨he, hp, rfl⟩
    · simp [he, @eq_comm _ f]
    · simp [he, hp, @eq_comm _ f]
  · next hn =>
    obtain ⟨he, hp⟩ := enabledAndFree_eq_none.1 hn
    cases s.ph.released <;> simp [he, hp, @eq_comm _ f]

theorem present_ne_refused (c : Cmd) (u s : State) (r : Refusal) : present c u s ≠ .refused r := by
  unfold present
  split
  · nofun
  · split <;> nofun

/-- No command is refused: a rule ends as `hostResult` says, a transaction as `present` does. -/
theorem exec_ne_refused (i : Instr) (s : State) (r : Refusal) : exec i s ≠ .refused r := by
  cases hr : ruleOf i s with
  | some a => exact exec_of_ruleOf hr ▸ hostResult_ne_refused s a r
  | none =>
    cases i with
    | rdreg | wrreg => exact present_ne_refused _ _ s r
    | start | send | recv | stop | wait | getdata | disable | enable => cases hr

/-! ### Each kind of command -/

theorem exec_launch_eq_fault {i : Instr} (hi : isLaunch i = true) {s : State} {f : Fault} :
    exec i s = .fault f ↔
      (s.en = false ∧ f = .disabled i.cmd) ∨
      (s.en = true ∧ s.pend ≠ .none ∧ f = .busy i.cmd s.pend) ∨
      (s.en = true ∧ s.pend = .none ∧ s.allows i = false ∧
        f = .phaseViolation i.cmd s.ph s.dir s.rxend) := by
  rw [exec_of_isLaunch hi, hostResult_eq_fault, launch_eq_raise]

theorem exec_getdata_eq_fault {s : State} {f : Fault} :
    exec .getdata s = .fault f ↔ s.pend ≠ .none ∧ f = .busy .getdata s.pend := by
  rw [exec_of_ruleOf rfl, hostResult_eq_fault]
  rcases getdataRule_cases s with ⟨hp, hr⟩ | ⟨hp, hr⟩
  · simp [hr, hp]
  · simp [hr, hp, eq_comm]

/-- `WAIT`, `DISABLE` and `ENABLE` make no check (R67, R80, R81). -/
theorem exec_unchecked_next {i : Instr} (hi : i.cmd ∈ [.wait, .disable, .enable]) (s : State) :
    ∃ t, exec i s = .next t := by
  cases i with
  | wait =>
    cases hs : s.done with
    | true => exact ⟨_, exec_wait_of_done hs⟩
    | false => exact ⟨_, exec_wait_of_not_done hs⟩
  | disable => exact ⟨_, exec_disable s⟩
  | enable => exact ⟨_, exec_enable s⟩
  | start | send | recv | stop | getdata | rdreg | wrreg => simp [Instr.cmd] at hi

theorem exec_unchecked_ne_fault {i : Instr} (hi : i.cmd ∈ [.wait, .disable, .enable]) {s : State}
    {f : Fault} : exec i s ≠ .fault f := by
  obtain ⟨t, ht⟩ := exec_unchecked_next hi s
  simp [ht]

/-! ### Every command -/

/-- The fault of a command, if it has one: each line is a fault with its commands, its condition and
what it records. -/
theorem exec_eq_fault {i : Instr} {s : State} {f : Fault} :
    exec i s = .fault f ↔
      ((isLaunch i = true ∨ isTransaction i = true) ∧ s.en = false ∧ f = .disabled i.cmd) ∨
      (((s.en = true ∧ (isLaunch i = true ∨ isTransaction i = true)) ∨ i = .getdata) ∧
        s.pend ≠ .none ∧ f = .busy i.cmd s.pend) ∨
      (isLaunch i = true ∧ s.en = true ∧ s.pend = .none ∧ s.allows i = false ∧
        f = .phaseViolation i.cmd s.ph s.dir s.rxend) ∨
      (isTransaction i = true ∧ s.en = true ∧ s.pend = .none ∧ s.ph.released = false ∧
        f = .transactionOpen i.cmd s.ph) := by
  cases i with
  | start | send | recv | stop =>
    rw [exec_launch_eq_fault rfl]
    simp [isLaunch, isTransaction]
  | rdreg | wrreg =>
    rw [exec_of_isTransaction rfl, present_eq_fault]
    simp [isLaunch, isTransaction]
  | getdata =>
    rw [exec_getdata_eq_fault]
    simp [isLaunch, isTransaction, Instr.cmd]
  | wait | disable | enable =>
    exact iff_of_false (exec_unchecked_ne_fault (by decide)) (by simp [isLaunch, isTransaction])

/-! ### The commands of a fault, by their mnemonics (R111) -/

theorem Instr.cmd_mem_checked_iff {i : Instr} :
    i.cmd ∈ [.start, .send, .recv, .stop, .rdreg, .wrreg] ↔
      isLaunch i = true ∨ isTransaction i = true := by
  cases i <;> simp [Instr.cmd, isLaunch, isTransaction]

theorem Instr.cmd_mem_transaction_iff {i : Instr} :
    i.cmd ∈ [.rdreg, .wrreg] ↔ isTransaction i = true := by
  cases i <;> simp [Instr.cmd, isTransaction]

theorem Instr.cmd_eq_getdata_iff {i : Instr} : i.cmd = .getdata ↔ i = .getdata := by
  cases i <;> simp [Instr.cmd]

/-! ### The phase table's cells that are faults (R62, R115) -/

theorem isLaunch_and_allows_eq_false_iff {i : Instr} {s : State} :
    (isLaunch i = true ∧ s.allows i = false) ↔
      (i.cmd = .start ∧ s.ph = .startSent) ∨
      (i.cmd = .send ∧
        ¬ (s.ph = .startSent ∨ ((s.ph = .addrSent ∨ s.ph = .dataSent) ∧ s.dir = some .w))) ∨
      (i.cmd = .recv ∧
        ¬ ((s.ph = .addrSent ∧ s.dir = some .r) ∨ (s.ph = .dataRcvd ∧ s.rxend = false))) ∨
      (i.cmd = .stop ∧ s.ph ∉ [.addrSent, .dataSent, .dataRcvd]) := by
  rw [← Bool.not_eq_true]
  cases i with
  | start => rw [State.allows, operationOf, Pend.legal, startLegal_iff]; simp [isLaunch, Instr.cmd]
  | send => rw [State.allows, operationOf, Pend.legal, sendLegal_iff]; simp [isLaunch, Instr.cmd]
  | recv => rw [State.allows, operationOf, Pend.legal, recvLegal_iff]; simp [isLaunch, Instr.cmd]
  | stop => rw [State.allows, operationOf, Pend.legal, stopLegal_iff]; simp [isLaunch, Instr.cmd]
  | wait | getdata | disable | enable | rdreg | wrreg => simp [isLaunch, Instr.cmd]

/-! ### The two obligations -/

/-- Settles O38: each fault's line of `exec_eq_fault`, its commands named by their mnemonics. -/
theorem faultsExactlyWhen : Obligations.FaultsExactlyWhen := by
  unfold Obligations.FaultsExactlyWhen
  refine fun i s => ⟨fun c => ?disabled, fun c p => ?busy, fun c ph dir rxend => ?phase,
    fun c ph => ?opened, fun w => ?illegal, exec_ne_refused i s, fun hi => exec_unchecked_next hi s⟩
  case disabled =>
    simp only [exec_eq_fault, reduceCtorEq, and_false, or_false, Fault.disabled.injEq]
    rw [← Instr.cmd_mem_checked_iff]
    constructor
    · rintro ⟨hi, he, rfl⟩
      exact ⟨rfl, he, hi⟩
    · rintro ⟨rfl, he, hi⟩
      exact ⟨hi, he, rfl⟩
  case busy =>
    simp only [exec_eq_fault, reduceCtorEq, and_false, or_false, false_or, Fault.busy.injEq]
    rw [← Instr.cmd_mem_checked_iff, ← Instr.cmd_eq_getdata_iff]
    constructor
    · rintro ⟨hi, hp, rfl, rfl⟩
      exact ⟨rfl, rfl, hp, hi⟩
    · rintro ⟨rfl, rfl, hp, hi⟩
      exact ⟨hi, hp, rfl, rfl⟩
  case phase =>
    simp only [exec_eq_fault, reduceCtorEq, and_false, or_false, false_or,
      Fault.phaseViolation.injEq]
    constructor
    · rintro ⟨hi, he, hp, hl, rfl, rfl, rfl, rfl⟩
      exact ⟨rfl, rfl, rfl, rfl, he, hp, isLaunch_and_allows_eq_false_iff.1 ⟨hi, hl⟩⟩
    · rintro ⟨rfl, rfl, rfl, rfl, he, hp, hcell⟩
      obtain ⟨hi, hl⟩ := isLaunch_and_allows_eq_false_iff.2 hcell
      exact ⟨hi, he, hp, hl, rfl, rfl, rfl, rfl⟩
  case opened =>
    simp only [exec_eq_fault, reduceCtorEq, and_false, false_or, Fault.transactionOpen.injEq]
    rw [← Instr.cmd_mem_transaction_iff, ← Bool.not_eq_true, Phase.released_iff]
    constructor
    · rintro ⟨hi, he, hp, hph, rfl, rfl⟩
      exact ⟨rfl, rfl, he, hp, hph, hi⟩
    · rintro ⟨rfl, rfl, he, hp, hph, hi⟩
      exact ⟨hi, he, hp, hph, rfl, rfl⟩
  case illegal => simp [exec_eq_fault]

/-- Settles O39: a word that does not decode stops before any state is looked at; the checks of a
command that decodes are the lines of `exec_eq_fault`, which exclude each other. -/
theorem orderOfChecks : Obligations.OrderOfChecks := by
  unfold Obligations.OrderOfChecks
  refine ⟨fun s w rest e => step_of_decode_error, fun s i hi =>
    ⟨fun he => exec_eq_fault.2 (.inl ⟨hi, he, rfl⟩),
      fun he hp => exec_eq_fault.2 (.inr (.inl ⟨.inl ⟨he, hi⟩, hp, rfl⟩)), fun he hp => ?last⟩,
    fun b s hs => ?send, fun s he hp _ => exec_launch_of_busy rfl he hp⟩
  case last =>
    cases hx : exec i s with
    | next t => exact .inl ⟨t, rfl⟩
    | fault f =>
      rcases exec_eq_fault.1 hx with
        ⟨-, hoff, -⟩ | ⟨-, hbusy, -⟩ | ⟨hl, -, -, -, rfl⟩ | ⟨ht, -, -, -, rfl⟩
      · simp [he] at hoff
      · exact absurd hp hbusy
      · exact .inr (.inl ⟨hl, rfl⟩)
      · exact .inr (.inr ⟨ht, rfl⟩)
    | refused r => exact absurd hx (exec_ne_refused i s r)
  case send => exact hs ▸ exec_launch_of_disabled rfl rfl

end Sys2Proof.Machine
end

section
/-! Decoding and encoding undo each other (spec R50 to R55): a row keeps the fields that its format
admits. -/

namespace Sys2Proof
open Machine

/-- Settles O1: the check of each command's format passes on its own fields, and `decode_encode`. -/
theorem everyCommandDecodesBack : Obligations.EveryCommandDecodesBack := by
  unfold Obligations.EveryCommandDecodesBack
  intro i
  obtain ⟨-, -, -, hfields⟩ := encode_fields i
  exact ⟨hfields, decode_encode i⟩

/-- A bit in field `a` is the whole field when the other seven bits are zero. -/
theorem bit_zero_eq_of_shift_eq_zero {a : Byte} (h : a >>> 1 = 0) :
    (if a.getLsbD 0 then 1 else 0) = a := by
  revert a; decide

/-- Fields that the format admits are kept by the command built from them: the format's zeros are
the operand fields that the command does not have. -/
theorem Cmd.fields_build {c : Cmd} {a b : Byte} (h : c.format.fieldsOk a b = true) :
    (c.build a b).fieldA = a ∧ (c.build a b).fieldB = b := by
  cases c with
  | start | wait | getdata | stop | disable | enable =>
    obtain ⟨rfl, rfl⟩ : a = 0 ∧ b = 0 := by simpa [Cmd.format, Format.fieldsOk] using h
    exact ⟨rfl, rfl⟩
  | send | rdreg =>
    obtain rfl : b = 0 := by simpa [Cmd.format, Format.fieldsOk] using h
    exact ⟨rfl, rfl⟩
  | recv =>
    obtain ⟨ha, rfl⟩ : a >>> 1 = 0 ∧ b = 0 := by simpa [Cmd.format, Format.fieldsOk] using h
    exact ⟨bit_zero_eq_of_shift_eq_zero ha, rfl⟩
  | wrreg => exact ⟨rfl, rfl⟩

/-- Settles O2: a matching row keeps the word's three fields, and a word is its fields. -/
theorem everyDecodedWordEncodesBack : Obligations.EveryDecodedWordEncodesBack := by
  unfold Obligations.EveryDecodedWordEncodesBack
  intro w i h
  obtain ⟨c, hrow, rfl⟩ := decode_eq_ok.1 h
  obtain ⟨hop, hfields⟩ := (c.rowMatches_iff w).1 hrow
  obtain ⟨ha, hb⟩ := Cmd.fields_build hfields
  rw [encode, Cmd.build_cmd, ha, hb, ← hop, joinFields_fields]

/-- Settles O5: thirteen words, each decoded by evaluation. -/
theorem specWordsDecode : Obligations.SpecWordsDecode := by
  unfold Obligations.SpecWordsDecode
  decide

end Sys2Proof
end

section
/-! Reset (spec R130) and the invariant of reachable states (spec R24, R62, R75) from there on. -/

namespace Sys2Proof.Machine

/-- Settles O47: the idle step, taken any number of times. -/
theorem endedRunStays : Obligations.EndedRunStays := by
  unfold Obligations.EndedRunStays
  exact fun s n ⟨hcmds, hmode⟩ hp => steps_of_fixed (step_of_ended hmode hcmds hp) n

/-- Settles O40: the values are those of the reset state's definition; with no command the step is
idle. -/
theorem resetState : Obligations.ResetState := by
  unfold Obligations.ResetState
  exact ⟨rfl, rfl, rfl, rfl, rfl, rfl, rfl, rfl, rfl, rfl, step_of_ended rfl rfl rfl⟩

/-- Settles O41: the reset state is the one in which a run of no commands begins. -/
theorem invAtReset : Obligations.InvAtReset := by
  unfold Obligations.InvAtReset
  exact fun enReset => State.inv_begin enReset [] [] 0 (.oracle [] [])

/-- Settles O42: the bus side is kept by what a command or a completion does to the transport, the
sequencer side by what they do to `MODE` and `STEP`. -/
theorem stepKeepsInv : Obligations.StepKeepsInv := by
  unfold Obligations.StepKeepsInv
  exact fun _ _ h hs => h.of_step hs

end Sys2Proof.Machine
end

section
/-! A transaction returns once the engine has had its turns (spec R135, with `A_READY` as a premise
on the turns). Along a course every step takes one off the number of micro-operations and turns left;
the engine's turns needed, one for each launch left and one for an operation pending, never come to
exceed its turns scheduled. -/

namespace Sys2Proof.Machine

/-! ### What is left of a transaction -/

/-- The micro-operations from `STEP` on. -/
def State.remaining (s : State) : List MicroOp := s.mode.program.drop s.stepIx.toNat

theorem State.remaining_congr {s t : State} (hm : t.mode = s.mode) (hi : t.stepIx = s.stepIx) :
    t.remaining = s.remaining := by
  rw [State.remaining, State.remaining, hm, hi]

/-- Advancing takes the front one off, the last one with the end of the transaction. -/
theorem State.remaining_eq_cons_advance {s : State} {m : MicroOp} (h : s.microOp = some m) :
    s.remaining = m :: s.advance.remaining := by
  have hfront : s.remaining = m :: s.mode.program.drop (s.stepIx.toNat + 1) := by
    obtain ⟨hlt, hget⟩ := List.getElem?_eq_some_iff.1 h
    rw [State.remaining, List.drop_eq_getElem_cons hlt, hget]
  rw [hfront, List.cons.injEq]
  refine ⟨rfl, ?_⟩
  rcases State.advance_offBus_cases h with ⟨hlt, hoff⟩ | ⟨hlast, hoff⟩
  · have hmode : s.advance.mode = s.mode := congrArg OffBus.mode hoff
    have hix : s.advance.stepIx = s.stepIx + 1 := congrArg OffBus.stepIx hoff
    rw [State.remaining, hmode, hix, State.stepIx_succ hlt]
  · have hmode : s.advance.mode = .none := congrArg OffBus.mode hoff
    rw [State.remaining, hmode, hlast, List.drop_length, Mode.program, List.drop_nil]

theorem State.remaining_eq_cons_performed {s : State} {m : MicroOp} (h : s.microOp = some m) :
    s.remaining = m :: (s.performed m).remaining := by
  obtain ⟨hmode, hix, -⟩ := State.offBus_eq_iff.1 (State.executed_command_offBus m s)
  have hop : (s.executed (m.command s)).microOp = some m := by
    rw [State.microOp_congr (State.executed_command_offBus m s), h]
  rw [← State.remaining_congr hmode hix]
  exact State.remaining_eq_cons_advance
    (s := { s.executed (m.command s) with res := if m = .getdata then s.readData.1 else s.res }) hop

/-- The micro-operations that launch something the engine has to complete. -/
def MicroOp.launches : MicroOp → Bool
  | .start | .send _ | .recv _ | .stop => true
  | .wait | .getdata | .disable | .enable => false

theorem MicroOp.isLaunch_command (m : MicroOp) (s : State) :
    isLaunch (m.command s) = m.launches := by
  cases m <;> rfl

/-- The turns of the engine a transaction still needs. -/
def State.turnsNeeded (s : State) : Nat :=
  s.remaining.countP MicroOp.launches + if s.pend = .none then 0 else 1

/-- An operation left pending has been launched by the micro-operation just performed, so it needs
the turn that the launch needed before. -/
theorem State.turnsNeeded_performed_le {s : State} {m : MicroOp} (hm : s.microOp = some m)
    (hp : s.pend = .none) : (s.performed m).turnsNeeded ≤ s.turnsNeeded := by
  have hpend : (s.performed m).pend = (s.executed (m.command s)).pend :=
    congrArg Transport.pend (State.advance_transport _)
  rw [State.turnsNeeded, State.turnsNeeded, State.remaining_eq_cons_performed hm, List.countP_cons]
  cases hl : m.launches with
  | true => split <;> simp
  | false =>
    have hfree := State.executed_pend_of_not_launch ((m.isLaunch_command s).trans hl) hp
    rw [if_pos (hpend.trans hfree)]
    simp

/-! ### What is left of the turns -/

@[simp] theorem State.executed_sched (s : State) (i : Instr) : (s.executed i).sched = s.sched := by
  cases i with
  | disable => rw [State.executed_disable]; rfl
  | getdata => exact s.readData_sched
  | start | send | recv | stop | wait | enable | rdreg | wrreg => rfl

theorem State.performed_sched (s : State) (m : MicroOp) : (s.performed m).sched = s.sched :=
  (congrArg BusView.sched (State.advance_view _)).trans (s.executed_sched (m.command s))

/-! ### The engine can take its turn -/

/-- What is pending, the engine can complete: the part of R24 item 1 that the turns need. -/
def State.EngineFollows (s : State) : Prop := s.pend ≠ .none → s.en = true

theorem State.EngineFollows.congr {s t : State} (h : s.EngineFollows)
    (htr : t.transport = s.transport) : t.EngineFollows := by
  obtain ⟨hen, -, hpend, -⟩ := State.transport_eq_iff.1 htr
  rwa [State.EngineFollows, hen, hpend]

theorem State.EngineFollows.of_step {s t : State} (h : s.EngineFollows) (hs : step s = .next t) :
    t.EngineFollows := by
  by_cases he : s.EngineMoves
  · cases hs.symm.trans (step_of_engineMoves he)
    exact fun hp => absurd (engineStep_pend _) hp
  rcases step_executes hs he with ⟨-, htr⟩ | ⟨i, -, hx⟩
  · exact h.congr htr
  refine State.EngineFollows.congr ?_ hx.transport
  cases i with
  | start | send | recv | stop => exact fun _ => (hx.checks rfl).en
  | disable => rw [State.executed_disable]; exact nofun
  | enable => exact fun _ => rfl
  | wait | getdata | rdreg | wrreg =>
    exact h.congr (State.executed_transport_of_quiet rfl (by nofun) (by nofun) s)

/-! ### One step onwards -/

theorem State.atWait_of_microOp {s : State} (h : s.microOp = some .wait) : s.atWait = true := by
  cases hm : s.mode with
  | none => exact absurd hm (State.mode_ne_none_of_microOp h)
  | rd | wr => simp [State.atWait, hm, h]

/-- The engine's scheduled turn, taken. -/
theorem step_of_engineTurn {s : State} {rest : List Turn} (hen : s.engineEnabled = true)
    (hsched : s.sched = .engine :: rest) :
    step s = .next (engineStep { s with sched := rest }) := by
  have hturn : s.nextTurn = .engine := by simp [State.nextTurn, hsched]
  have htaken : s.turnTaken = { s with sched := rest } := by simp [State.turnTaken, hsched]
  rw [step_of_engineMoves ⟨hen, hturn⟩, htaken]

/-- The transaction has `n` steps to go at most, on turns that suffice. -/
structure State.WithinSteps (s : State) (n : Nat) : Prop where
  engine : s.EngineFollows
  turns : s.turnsNeeded ≤ s.sched.count .engine
  steps : s.remaining.length + s.sched.length = n

theorem State.WithinSteps.ne_zero {s : State} {n : Nat} {m : MicroOp} (h : s.WithinSteps n)
    (hm : s.microOp = some m) : n ≠ 0 := by
  have hsteps := h.steps
  rw [State.remaining_eq_cons_performed hm, List.length_cons] at hsteps
  omega

/-- With an operation pending, a turn is used up: the engine's, or one of the command side, which is
held at the `WAIT`. -/
theorem State.WithinSteps.step_of_pending {s t : State} {n : Nat} (h : s.WithinSteps (n + 1))
    (hp : s.pend ≠ .none) (hw : s.microOp = some .wait) (hd : s.done = false)
    (hs : step s = .next t) : t.WithinSteps n := by
  obtain ⟨hengine, hturns, hsteps⟩ := h
  suffices hcounts : t.turnsNeeded ≤ t.sched.count .engine ∧
      t.remaining.length + t.sched.length = n from ⟨hengine.of_step hs, hcounts.1, hcounts.2⟩
  have hon : s.engineEnabled = true := State.engineEnabled_iff.2 ⟨hengine hp, hp⟩
  rw [State.turnsNeeded, if_neg hp] at hturns
  cases hsched : s.sched with
  | nil => simp [hsched] at hturns
  | cons turn rest =>
    rw [hsched] at hturns hsteps
    cases turn with
    | command =>
      cases hs.symm.trans (step_of_atWait_commandTurn (State.atWait_of_microOp hw) hd hon hsched)
      have hrem : State.remaining { s with sched := rest } = s.remaining := rfl
      refine ⟨?_, by simpa [hrem, ← Nat.add_assoc] using hsteps⟩
      simpa [State.turnsNeeded, hrem, hp] using hturns
    | engine =>
      cases hs.symm.trans (step_of_engineTurn hon hsched)
      obtain ⟨-, hmode, hix, -, -, -, -, -, htail, -⟩ := engineStep_frame { s with sched := rest }
      have hrem := State.remaining_congr (s := s) hmode hix
      rw [State.turnsNeeded, if_pos (engineStep_pend _), hrem, htail]
      exact ⟨by simpa using hturns, by simpa [← Nat.add_assoc] using hsteps⟩

/-- With nothing pending, the micro-operation is performed. -/
theorem State.WithinSteps.step_of_free {s : State} {m : MicroOp} {n : Nat}
    (h : s.WithinSteps (n + 1)) (hp : s.pend = .none) (hm : s.microOp = some m)
    (hs : step s = .next (s.performed m)) : (s.performed m).WithinSteps n := by
  obtain ⟨hengine, hturns, hsteps⟩ := h
  rw [State.remaining_eq_cons_performed hm] at hsteps
  refine ⟨hengine.of_step hs, ?_, ?_⟩
  · rw [State.performed_sched]
    exact (State.turnsNeeded_performed_le hm hp).trans hturns
  · rw [State.performed_sched]
    simpa [Nat.add_right_comm] using hsteps

/-- With nothing pending there is no turn to take (R69). -/
theorem step_of_free {s : State} (hp : s.pend = .none) : step s = commandStep s := by
  rw [step, State.engineEnabled_of_free hp, if_neg nofun]

/-- A point of a course with nothing pending: the step performs the micro-operation there. -/
theorem State.Follows.step_performs {s x y : State} {m : MicroOp} (h : s.Follows x)
    (hl : x.Leads m y) (hp : s.pend = .none) : Machine.step s = .next (s.performed m) := by
  have hop : s.microOp = some m := (State.microOp_congr h.offBus).trans hl.op
  rw [step_of_free hp, (commandStep_of_running (State.mode_ne_none_of_microOp hop)).1]
  exact sequencerStep_of_canPerform hop hp (hl.can.congr (h.transport hp) h.offBus)

theorem State.Follows.withinSteps {s t x y : State} {m : MicroOp} {n : Nat} (h : s.Follows x)
    (hl : x.Leads m y) (hn : s.WithinSteps (n + 1)) (hs : Machine.step s = .next t) :
    t.WithinSteps n := by
  by_cases hp : s.pend = .none
  · have hperforms := h.step_performs hl hp
    cases hs.symm.trans hperforms
    exact hn.step_of_free hp ((State.microOp_congr h.offBus).trans hl.op) hperforms
  · obtain ⟨hw, hd⟩ := h.pending hp
    exact hn.step_of_pending hp hw hd hs

/-! ### The whole transaction -/

theorem FinishesAt.of_ended {s : State} (h : s.mode = .none) : FinishesAt 0 s s :=
  ⟨rfl, h, fun m _ hm => absurd hm m.not_lt_zero⟩

theorem FinishesAt.of_step {s t u : State} {n : Nat} (hs : step s = .next t) (hm : s.mode ≠ .none)
    (h : FinishesAt n t u) : FinishesAt (n + 1) s u := by
  obtain ⟨hsteps, hend, hrun⟩ := h
  refine ⟨(steps_succ_next hs).trans hsteps, hend, fun k v hk hv => ?_⟩
  cases k with
  | zero => cases hv; exact hm
  | succ k => exact hrun k v (by omega) ((steps_succ_next hs).symm.trans hv)

/-- A run on a course that has not finished is at a point with a micro-operation. -/
theorem Course.leads_of_running {N : Nat} {c : Nat → State} (hc : Course N c) {k : Nat} {s : State}
    (hk : k ≤ N) (hs : s.Follows (c k)) (hm : s.mode ≠ .none) :
    k < N ∧ ∃ m, (c k).Leads m (c (k + 1)) := by
  have hne : k ≠ N := mt (hc.last_iff hk hs).2 hm
  have hlt : k < N := by omega
  exact ⟨hlt, hc.leads k hlt⟩

/-- A run that follows a course comes to its end. -/
theorem Course.returns {N : Nat} {c : Nat → State} (hc : Course N c) {n k : Nat} {s : State}
    (hk : k ≤ N) (hs : s.Follows (c k)) (hn : s.WithinSteps n) :
    ∃ j t, j ≤ n ∧ FinishesAt j s t := by
  induction n generalizing s k with
  | zero =>
    refine ⟨0, s, le_rfl, .of_ended ?_⟩
    by_contra hm
    obtain ⟨-, m, hl⟩ := hc.leads_of_running hk hs hm
    exact hn.ne_zero ((State.microOp_congr hs.offBus).trans hl.op) rfl
  | succ n ih =>
    by_cases hm : s.mode = .none
    · exact ⟨0, s, Nat.zero_le _, .of_ended hm⟩
    · obtain ⟨hlt, m, hl⟩ := hc.leads_of_running hk hs hm
      obtain ⟨t, hstep, -⟩ := hs.step hl
      obtain ⟨k', hk', ht⟩ := hc.step hlt hs hstep
      obtain ⟨j, u, hj, hfin⟩ := ih hk' ht (hs.withinSteps hl hn hstep)
      exact ⟨j + 1, u, Nat.succ_le_succ hj, hfin.of_step hstep hm⟩

/-- From its first point on, a course whose engine has its turns. -/
theorem Course.returns_from_start {N : Nat} {c : Nat → State} (hc : Course N c)
    (hfree : (c 0).pend = .none)
    (hturns : (c 0).remaining.countP MicroOp.launches ≤ (c 0).sched.count .engine) :
    ∃ j t, j ≤ (c 0).remaining.length + (c 0).sched.length ∧ FinishesAt j (c 0) t :=
  hc.returns N.zero_le (.refl hfree)
    ⟨fun hp => absurd hfree hp, by rwa [State.turnsNeeded, if_pos hfree], rfl⟩

/-- Settles O32: the course of each transaction, whose launches are 7 of 17 and 5 of 10
micro-operations. -/
theorem transactionsReturnWhenEngineReady : Obligations.TransactionsReturnWhenEngineReady := by
  unfold Obligations.TransactionsReturnWhenEngineReady
  refine fun s s1 => ⟨fun a hx hturns => ?rd, fun a v hx hturns => ?wr⟩
  case rd =>
    obtain ⟨hpass, rfl⟩ := passesR91_of_exec (i := .rdreg a) rfl hx
    exact (readCourse_isCourse (x := s.executed (.rdreg a)) rfl hpass).returns_from_start
      hpass.free hturns
  case wr =>
    obtain ⟨hpass, rfl⟩ := passesR91_of_exec (i := .wrreg a v) rfl hx
    exact (writeCourse_isCourse (x := s.executed (.wrreg a v)) rfl hpass).returns_from_start
      hpass.free hturns

end Sys2Proof.Machine
end

section
/-! What a step does to the sequencer's registers and the host's side (spec R10, R56, R90, R95): the
engine nothing, the host by `exec_offBus`, the sequencer by `sequencerStep_offBus`. -/

namespace Sys2Proof.Machine

/-- Where the command side moves, it does so in the state itself or after the turn has been read
off. -/
theorem step_eq_commandStep {s : State} (he : ¬ s.EngineMoves) :
    ∃ u, (u = s ∨ u = s.turnTaken) ∧ step s = commandStep u :=
  (step_of_command he).elim (fun h => ⟨s, .inl rfl, h.2⟩) fun h => ⟨s.turnTaken, .inr rfl, h.2⟩

theorem offBus_of_engineMoves {s t : State} (h : step s = .next t) (he : s.EngineMoves) :
    t.offBus = s.offBus := by
  cases h.symm.trans (step_of_engineMoves he)
  rw [State.engineStep_offBus, State.turnTaken_offBus]

/-! ### The sequencer -/

theorem State.finish_offBus_congr {s t : State} (h : t.offBus = s.offBus) :
    t.finish.offBus = s.finish.offBus := by
  obtain ⟨hmode, hix, hra, hrv, hres, hcmds, hret⟩ := State.offBus_eq_iff.1 h
  rw [State.offBus_eq_iff, State.finish, State.finish, hmode]
  cases hm : s.mode <;> simp [hra, hrv, hres, hcmds, hret, hm, hix, hmode]

/-- At the next micro-operation, with `b` in `RES` (R94). -/
def OffBus.stepped (o : OffBus) (b : Byte) : OffBus := { o with stepIx := o.stepIx + 1, res := b }

/-- Where a micro-operation has left a byte for `RES`, `STEP` goes up with it; the last one leaves
none, so that the transaction finishes with `RES` as it was. -/
theorem State.advance_offBus_of_res {s v : State} {m : MicroOp} (hm : s.microOp = some m) {b : Byte}
    (hb : m ≠ .getdata → b = s.res) (hv : v.offBus = { s.offBus with res := b }) :
    v.advance.offBus = s.offBus.stepped b ∨
    v.advance.offBus = s.finish.offBus := by
  rw [State.advance_offBus_congr (s := { s with res := b }) hv, State.advance]
  split
  · exact .inl rfl
  · next hlast =>
    have hne : m ≠ .getdata := by
      rintro rfl
      exact hlast (Mode.getdata_notMem_take hm).2
    rw [hb hne]
    exact .inr rfl

/-- `STEP` goes up, with `RES` written by `GETDATA` alone, or the transaction finishes, or a `WAIT`
holds. -/
theorem sequencerResult_offBus {s t : State} {m : MicroOp} (hm : s.microOp = some m)
    (h : sequencerResult s (m.rule s) = .next t) :
    t.offBus = s.offBus ∨
    (∃ b, (m ≠ .getdata → b = s.res) ∧
      t.offBus = s.offBus.stepped b) ∨
    t.offBus = s.finish.offBus := by
  rcases sequencerResult_eq_next.1 h with ⟨u, hr, rfl⟩ | ⟨b, u, hr, rfl⟩ | ⟨-, rfl⟩
  · obtain ⟨hmode, hix, hra, hrv, hres, hcmds, hret, -⟩ := rule_frame (congrArg Act.state? hr)
    have hu : u.offBus = s.offBus := State.offBus_eq_iff.2 ⟨hmode, hix, hra, hrv, hres, hcmds, hret⟩
    exact .inr ((State.advance_offBus_of_res hm (fun _ => rfl) hu).imp_left
      fun hoff => ⟨s.res, fun _ => rfl, hoff⟩)
  · obtain ⟨hmode, hix, hra, hrv, -, hcmds, hret, -⟩ := rule_frame (congrArg Act.state? hr)
    have hb : m ≠ .getdata → b = s.res := fun hg => absurd (eq_getdata_of_rule_retireWith hr) hg
    have hu : State.offBus { u with res := b } = { s.offBus with res := b } :=
      (State.offBus_eq_iff (s := { s with res := b })).2 ⟨hmode, hix, hra, hrv, rfl, hcmds, hret⟩
    exact .inr ((State.advance_offBus_of_res hm hb hu).imp_left fun hoff => ⟨b, hb, hoff⟩)
  · exact .inl rfl

/-- Every step taken while a transaction runs. -/
theorem step_offBus_of_running {s t : State} (hmode : s.mode ≠ .none) (h : step s = .next t) :
    t.offBus = s.offBus ∨
    (∃ b, (s.current ≠ some .getdata → b = s.res) ∧
      t.offBus = s.offBus.stepped b) ∨
    t.offBus = s.finish.offBus := by
  by_cases he : s.EngineMoves
  · exact .inl (offBus_of_engineMoves h he)
  obtain ⟨u, hu, hstep⟩ := step_eq_commandStep he
  have hoff : u.offBus = s.offBus := by rcases hu with rfl | rfl <;> simp
  have hum : u.mode ≠ .none := (congrArg OffBus.mode hoff).trans_ne hmode
  rw [h, (commandStep_of_running hum).1] at hstep
  rcases sequencerStep_cases hstep.symm with ⟨-, rfl⟩ | ⟨m, hm, hr⟩
  · exact .inl hoff
  have hop : s.microOp = some m := (State.microOp_congr hoff).symm.trans hm
  have hcur : s.current = some (m.command s) := by
    rw [(commandStep_of_running hmode).2, hop]
    rfl
  rw [← State.finish_offBus_congr hoff, ← hoff]
  refine (sequencerResult_offBus hm hr).imp_right
    (.imp_left fun ⟨b, hb, ht⟩ => ⟨b, fun hc => ?_, ht⟩)
  refine (hb ?_).trans (congrArg OffBus.res hoff)
  rintro rfl
  exact hc hcur

/-- What finishing leaves (R95), for whichever transaction runs. -/
theorem State.finish_of_running {s t : State} (hmode : s.mode ≠ .none)
    (h : t.offBus = s.finish.offBus) :
    t.mode = .none ∧ t.stepIx = 0 ∧ t.ra = s.ra ∧ t.rv = s.rv ∧ t.res = s.res ∧
    t.cmds = s.cmds.tail ∧ (s.mode = .rd → t.returned = s.returned ++ [s.res]) ∧
    (s.mode = .wr → t.returned = s.returned) := by
  obtain ⟨hm, hix, hra, hrv, hres, hcmds, hret⟩ := State.offBus_eq_iff.1 h
  rw [hm, hix, hra, hrv, hres, hcmds, hret]
  cases hd : s.mode with
  | none => exact absurd hd hmode
  | rd => rw [State.finish_of_rd hd]; simp
  | wr => rw [State.finish_of_wr hd]; simp

/-- Settles O26: a step of a running transaction that does not finish it leaves the mode and the
host's side. -/
theorem hostHeldDuringTransaction : Obligations.HostHeldDuringTransaction := by
  unfold Obligations.HostHeldDuringTransaction
  intro s t hmode h
  rcases step_offBus_of_running hmode h with hoff | ⟨b, -, hoff⟩ | hoff
  · obtain ⟨hm, -, -, -, -, hcmds, hret⟩ := State.offBus_eq_iff.1 hoff
    exact .inl ⟨hm, hcmds, hret⟩
  · exact .inl ⟨congrArg OffBus.mode hoff, congrArg OffBus.cmds hoff, congrArg OffBus.returned hoff⟩
  · obtain ⟨hm, hix, -, -, -, hcmds, hrd, hwr⟩ := State.finish_of_running hmode hoff
    exact .inr ⟨hm, hix, hcmds, hrd, hwr⟩

/-! ### The host -/

/-- Only `GETDATA` returns a byte, and the byte is the one read. -/
theorem eq_getdata_of_ruleOf_retireWith {i : Instr} {s u : State} {b : Byte}
    (h : ruleOf i s = some (.retireWith b u)) : i = .getdata ∧ b = s.readData.1 := by
  cases i with
  | start | send | recv | stop => exact absurd (Option.some.inj h) (launch_ne_retireWith b u)
  | wait =>
    simp only [ruleOf, waitRule, Option.some.injEq] at h
    split at h <;> cases h
  | getdata =>
    rcases getdataRule_cases s with ⟨-, hr⟩ | ⟨-, hr⟩ <;> rw [ruleOf, hr] at h <;> cases h
    exact ⟨rfl, rfl⟩
  | disable | enable | rdreg | wrreg => cases h

/-- What the host's commands other than the transactions leave: the sequencer's registers, and the
returned bytes but for `GETDATA`'s. -/
structure State.HostKeeps (s : State) (i : Instr) (t : State) : Prop where
  mode : t.mode = s.mode
  stepIx : t.stepIx = s.stepIx
  ra : t.ra = s.ra
  rv : t.rv = s.rv
  res : t.res = s.res
  returned : t.returned = s.returned ∨
    (i = .getdata ∧ ∃ b, t.returned = s.returned ++ [b] ∧ ∀ d, s.data = .latched d → b = d)

theorem exec_hostKeeps {i : Instr} (hi : isTransaction i = false) {s t : State}
    (h : exec i s = .next t) : s.HostKeeps i t := by
  obtain ⟨a, ha⟩ := exists_ruleOf hi s
  obtain ⟨hmode, hix, hra, hrv, hres, -, hret⟩ := State.offBus_eq_iff.1 (s.executed_offBus hi)
  rw [exec_of_ruleOf ha] at h
  rcases hostResult_eq_next.1 h with ⟨u, rfl, rfl⟩ | ⟨b, u, rfl, rfl⟩ | ⟨-, rfl⟩
  · obtain ⟨rfl, -⟩ := ruleOf_state ha rfl
    exact ⟨hmode, hix, hra, hrv, hres, .inl hret⟩
  · obtain ⟨rfl, -⟩ := ruleOf_state ha rfl
    obtain ⟨hget, rfl⟩ := eq_getdata_of_ruleOf_retireWith ha
    refine ⟨hmode, hix, hra, hrv, hres, .inr ⟨hget, s.readData.1, ?_, fun d hd => ?_⟩⟩
    · rw [State.retireWith_returned, hret]
    · rw [State.readData_latched hd]
  · exact ⟨rfl, rfl, rfl, rfl, rfl, .inl rfl⟩

theorem State.HostKeeps.of_turnTaken {s t : State} {i : Instr} (h : s.turnTaken.HostKeeps i t) :
    s.HostKeeps i t where
  mode := h.mode.trans s.turnTaken_mode
  stepIx := h.stepIx.trans s.turnTaken_stepIx
  ra := h.ra.trans s.turnTaken_ra
  rv := h.rv.trans s.turnTaken_rv
  res := h.res.trans s.turnTaken_res
  returned := by simpa using h.returned

theorem State.turnTaken_executed_offBus (s : State) (i : Instr) :
    (s.turnTaken.executed i).offBus = (s.executed i).offBus := by
  cases hi : isTransaction i with
  | false => rw [State.executed_offBus hi, State.executed_offBus hi, State.turnTaken_offBus]
  | true =>
    cases i with
    | rdreg | wrreg => simp [State.executed, State.offBus_eq_iff]
    | start | send | recv | wait | getdata | stop | disable | enable => cases hi

/-- Every step in which the host moves: it has no command, it presents a transaction, or it executes
another command. -/
theorem step_offBus_of_host {s t : State} (hmode : s.mode = .none) (he : ¬ s.EngineMoves)
    (h : step s = .next t) :
    (s.current = none ∧ t.offBus = s.offBus) ∨
    ∃ i, s.current = some i ∧
      ((isTransaction i = true ∧ t.offBus = (s.executed i).offBus) ∨
        (isTransaction i = false ∧ s.HostKeeps i t)) := by
  obtain ⟨u, hu, hstep⟩ := step_eq_commandStep he
  have hum : u.mode = .none := by rcases hu with rfl | rfl <;> simp [hmode]
  have hcur : s.current = u.current := by rcases hu with rfl | rfl <;> simp
  obtain ⟨hhost, hport⟩ := commandStep_of_host hum
  rw [h, hhost] at hstep
  rcases hostStep_cases hstep.symm with ⟨hc, rfl⟩ | ⟨w, rest, i, hc, hd, hx⟩
  · refine .inl ⟨by simp [hcur, hport, hc], ?_⟩
    rcases hu with rfl | rfl <;> simp
  refine .inr ⟨i, by simp [hcur, hport, hc, hd, Except.toOption], ?_⟩
  cases hi : isTransaction i with
  | true =>
    obtain ⟨-, rfl⟩ := passesR91_of_exec hi hx
    refine .inl ⟨rfl, ?_⟩
    rcases hu with rfl | rfl
    · rfl
    · exact s.turnTaken_executed_offBus i
  | false =>
    refine .inr ⟨rfl, ?_⟩
    rcases hu with rfl | rfl
    · exact exec_hostKeeps hi hx
    · exact (exec_hostKeeps hi hx).of_turnTaken

theorem step_res_of_host {s t : State} (hmode : s.mode = .none) (h : step s = .next t) :
    t.res = s.res := by
  by_cases he : s.EngineMoves
  · exact congrArg OffBus.res (offBus_of_engineMoves h he)
  rcases step_offBus_of_host hmode he h with ⟨-, hoff⟩ | ⟨i, -, ⟨hi, hoff⟩ | ⟨-, hkeeps⟩⟩
  · exact congrArg OffBus.res hoff
  · have hres : t.res = (s.executed i).res := congrArg OffBus.res hoff
    cases i with
    | rdreg | wrreg => exact hres
    | start | send | recv | wait | getdata | stop | disable | enable => cases hi
  · exact hkeeps.res

/-- Settles O54: of the sequencer's steps only the one that finishes `RDREG` returns a byte, of the
host's only `GETDATA`, of the engine's none. -/
theorem returnedBytes : Obligations.ReturnedBytes := by
  unfold Obligations.ReturnedBytes
  intro s t h
  by_cases he : s.EngineMoves
  · exact .inl (congrArg OffBus.returned (offBus_of_engineMoves h he))
  by_cases hmode : s.mode = .none
  · rcases step_offBus_of_host hmode he h with ⟨-, hoff⟩ | ⟨i, hc, ⟨hi, hoff⟩ | ⟨-, hkeeps⟩⟩
    · exact .inl (congrArg OffBus.returned hoff)
    · have hret : t.returned = (s.executed i).returned := congrArg OffBus.returned hoff
      cases i with
      | rdreg | wrreg => exact .inl hret
      | start | send | recv | wait | getdata | stop | disable | enable => cases hi
    · exact hkeeps.returned.imp_right fun ⟨hget, b, hb, hlatched⟩ =>
        .inl ⟨hmode, hc.trans (congrArg some hget), b, hb, hlatched⟩
  · rcases step_offBus_of_running hmode h with hoff | ⟨b, -, hoff⟩ | hoff
    · exact .inl (congrArg OffBus.returned hoff)
    · exact .inl (congrArg OffBus.returned hoff)
    · obtain ⟨hm, -, -, -, hres, -, hrd, hwr⟩ := State.finish_of_running hmode hoff
      cases hd : s.mode with
      | none => exact absurd hd hmode
      | rd => exact .inr (.inr ⟨rfl, hm, by rw [hres]; exact hrd hd⟩)
      | wr => exact .inl (hwr hd)

/-- Settles O52: the engine's, the sequencer's and the host's steps each by what they do to the
registers. -/
theorem sequencerStateChangesOnly : Obligations.SequencerStateChangesOnly := by
  unfold Obligations.SequencerStateChangesOnly
  refine fun s t h => ⟨fun he => ?engine, fun hmode => ?operands, fun hmode hc => ?result,
    fun hmode => step_res_of_host hmode h, fun hmode he => ?host⟩
  case engine =>
    obtain ⟨hm, hix, hra, hrv, hres, -⟩ := State.offBus_eq_iff.1 (offBus_of_engineMoves h he)
    exact ⟨hm, hix, hra, hrv, hres⟩
  case operands =>
    rcases step_offBus_of_running hmode h with hoff | ⟨b, -, hoff⟩ | hoff
    · exact ⟨congrArg OffBus.ra hoff, congrArg OffBus.rv hoff⟩
    · exact ⟨congrArg OffBus.ra hoff, congrArg OffBus.rv hoff⟩
    · obtain ⟨-, -, hra, hrv, -⟩ := State.finish_of_running hmode hoff
      exact ⟨hra, hrv⟩
  case result =>
    rcases step_offBus_of_running hmode h with hoff | ⟨b, hb, hoff⟩ | hoff
    · exact congrArg OffBus.res hoff
    · exact (congrArg OffBus.res hoff).trans (hb hc)
    · obtain ⟨-, -, -, -, hres, -⟩ := State.finish_of_running hmode hoff
      exact hres
  case host =>
    rcases step_offBus_of_host hmode he h with ⟨hc, hoff⟩ | ⟨i, hc, ⟨hi, hoff⟩ | ⟨hi, hkeeps⟩⟩
    · obtain ⟨hm, hix, hra, hrv, -⟩ := State.offBus_eq_iff.1 hoff
      exact ⟨by simp [hc], by simp [hc], fun _ => ⟨hm.trans hmode, hix, hra, hrv⟩⟩
    · obtain ⟨hm, hix, hra, hrv, -⟩ := State.offBus_eq_iff.1 hoff
      simp only [hc, Option.some.injEq]
      refine ⟨?_, ?_, fun hn => by simp [hn i rfl] at hi⟩
      · rintro a rfl
        exact ⟨hm, hix, hra, hrv⟩
      · rintro a v rfl
        exact ⟨hm, hix, hra, hrv⟩
    · simp only [hc, Option.some.injEq]
      refine ⟨?_, ?_, fun _ => ⟨hkeeps.mode.trans hmode, hkeeps.stepIx, hkeeps.ra, hkeeps.rv⟩⟩
      · rintro a rfl
        cases hi
      · rintro a v rfl
        cases hi

end Sys2Proof.Machine
end

section
/-! What a step does to the transport, the trace and the device (spec R10, R14, R17, R36, R39, R40,
R69): a step of the engine by its completion, any other by its command, of which only `DISABLE`
touches the phase, `DATA` or the trace. -/

namespace Sys2Proof.Machine

/-! ### What a command leaves of the bus -/

/-- The part of the transport that only a completion and `DISABLE` change. -/
structure State.SameBus (s t : State) : Prop where
  ph : t.ph = s.ph
  dir : t.dir = s.dir
  rxend : t.rxend = s.rxend
  data : t.data = s.data
  trace : t.trace = s.trace
  dev : t.dev = s.dev

theorem State.SameBus.of_transport {s t u : State} (h : s.SameBus u)
    (htr : t.transport = u.transport) : s.SameBus t := by
  obtain ⟨-, -, -, hph, hdir, hrxend, hdata, htrace, hdev⟩ := State.transport_eq_iff.1 htr
  exact ⟨hph.trans h.ph, hdir.trans h.dir, hrxend.trans h.rxend, hdata.trans h.data,
    htrace.trans h.trace, hdev.trans h.dev⟩

theorem State.SameBus.refl (s : State) : s.SameBus s := ⟨rfl, rfl, rfl, rfl, rfl, rfl⟩

theorem State.executed_sameBus {i : Instr} (hd : i ≠ .disable) (s : State) :
    s.SameBus (s.executed i) := by
  cases hl : isLaunch i with
  | true =>
    rw [State.executed_of_isLaunch hl]
    exact ⟨rfl, rfl, rfl, rfl, rfl, rfl⟩
  | false =>
    by_cases he : i = .enable
    · subst he
      exact ⟨rfl, rfl, rfl, rfl, rfl, rfl⟩
    · exact (State.SameBus.refl s).of_transport (State.executed_transport_of_quiet hl hd he s)

/-- What is left of the current command when the command side has moved. -/
theorem step_transport {s t : State} (h : step s = .next t) (he : ¬ s.EngineMoves) :
    (s.current = some .disable ∧ t.transport = (s.executed .disable).transport) ∨
    (s.current ≠ some .disable ∧ s.SameBus t) := by
  rcases step_executes h he with ⟨hc, htr⟩ | ⟨i, hc, hx⟩
  · exact .inr ⟨by simp [hc], (State.SameBus.refl s).of_transport htr⟩
  by_cases hd : i = .disable
  · subst hd
    exact .inl ⟨hc, hx.transport⟩
  · exact .inr ⟨by simpa [hc] using hd, (State.executed_sameBus hd s).of_transport hx.transport⟩

/-- The fields `DISABLE` resets (R80). -/
theorem State.transport_of_disable {s t : State}
    (h : t.transport = (s.executed .disable).transport) :
    t.en = false ∧ t.pend = .none ∧ t.ph = .idle ∧ t.dir = none ∧ t.rxend = false ∧
    t.data = .unspecified := by
  rw [State.executed_disable] at h
  obtain ⟨hen, -, hpend, hph, hdir, hrxend, hdata, -⟩ := State.transport_eq_iff.1 h
  exact ⟨hen, hpend, hph, hdir, hrxend, hdata⟩

/-- Settles O49: `DISABLE` resets the phase, every other command leaves it. -/
theorem phaseChangesOnly : Obligations.PhaseChangesOnly := by
  unfold Obligations.PhaseChangesOnly
  intro s t h he
  rcases step_transport h he with ⟨hc, htr⟩ | ⟨hc, hsame⟩
  · obtain ⟨-, -, hph, -⟩ := State.transport_of_disable htr
    exact ⟨fun _ => hph, absurd hc⟩
  · exact ⟨fun hd => absurd hd hc, fun _ => hsame.ph⟩

/-- A command that is no launch leaves what is pending, `DISABLE` apart. -/
theorem State.executed_pend_of_keeps {i : Instr} (hl : isLaunch i = false) (hd : i ≠ .disable)
    (s : State) : (s.executed i).pend = s.pend := by
  by_cases he : i = .enable
  · subst he; rfl
  · exact congrArg Transport.pend (State.executed_transport_of_quiet hl hd he s)

theorem State.executed_en_of_keeps {i : Instr} (hd : i ≠ .disable) (he : i ≠ .enable)
    (s : State) : (s.executed i).en = s.en := by
  cases hl : isLaunch i with
  | true => rw [State.executed_of_isLaunch hl, State.launched_en]
  | false => exact congrArg Transport.en (State.executed_transport_of_quiet hl hd he s)

theorem step_en_of_keeps {s t : State} (h : step s = .next t) (he : ¬ s.EngineMoves)
    (hd : s.current ≠ some .disable) (hen : s.current ≠ some .enable) : t.en = s.en := by
  rcases step_executes h he with ⟨-, htr⟩ | ⟨i, hc, hx⟩
  · exact congrArg Transport.en htr
  · rw [hc, ne_eq, Option.some.injEq] at hd hen
    exact (congrArg Transport.en hx.transport).trans (State.executed_en_of_keeps hd hen s)

theorem step_pend_of_keeps {s t : State} (h : step s = .next t) (he : ¬ s.EngineMoves)
    (hd : s.current ≠ some .disable) (hl : ∀ i, s.current = some i → isLaunch i = false) :
    t.pend = s.pend := by
  rcases step_executes h he with ⟨-, htr⟩ | ⟨i, hc, hx⟩
  · exact congrArg Transport.pend htr
  · rw [hc, ne_eq, Option.some.injEq] at hd
    exact (congrArg Transport.pend hx.transport).trans (State.executed_pend_of_keeps (hl i hc) hd s)

theorem step_of_enable {s t : State} (h : step s = .next t) (he : ¬ s.EngineMoves)
    (hc : s.current = some .enable) : t.en = true ∧ t.pend = s.pend := by
  rcases step_executes h he with ⟨hn, -⟩ | ⟨i, hi, hx⟩
  · simp [hn] at hc
  · cases hc.symm.trans hi
    exact ⟨congrArg Transport.en hx.transport, congrArg Transport.pend hx.transport⟩

/-- Settles O50: each field by the commands that write it, and the engine by its frame. -/
theorem transportChangesOnly : Obligations.TransportChangesOnly := by
  unfold Obligations.TransportChangesOnly
  refine fun s t h => ⟨fun he => ?engine, fun he => ⟨fun hc => ?disable, step_of_enable h he,
    fun hc => ?others⟩⟩
  case engine =>
    cases h.symm.trans (step_of_engineMoves he)
    obtain ⟨hen, -⟩ := engineStep_frame s.turnTaken
    exact ⟨hen.trans s.turnTaken_en, engineStep_pend _⟩
  case disable =>
    obtain ⟨-, htr⟩ | ⟨hne, -⟩ := step_transport h he
    · obtain ⟨hen, hpend, -, hdir, hrxend, -⟩ := State.transport_of_disable htr
      exact ⟨hen, hpend, hdir, hrxend⟩
    · exact absurd hc hne
  case others =>
    obtain ⟨hd, -⟩ | ⟨-, hsame⟩ := step_transport h he
    · exact absurd hd hc
    · exact ⟨hsame.dir, hsame.rxend, step_en_of_keeps h he hc, step_pend_of_keeps h he hc⟩

/-! ### What the engine leaves -/

theorem engineStep_data_of_ne_recv {s : State} (h : ∀ k, s.pend ≠ .recv k) :
    (engineStep s).data = s.data := by
  cases hp : s.pend with
  | none => rw [engineStep_of_free hp]
  | start => rw [engineStep_of_start hp]; rfl
  | send b =>
    rw [engineStep_of_send hp, completeSend]
    split <;> rfl
  | recv k => exact absurd hp (h k)
  | stop => rw [engineStep_of_stop hp]; rfl

/-- Settles O51: a completed reception latches the device's byte, `DISABLE` unlatches it. -/
theorem dataChangesOnly : Obligations.DataChangesOnly := by
  unfold Obligations.DataChangesOnly
  refine ⟨rfl, fun s t h => ⟨fun k he hp => ?recv, fun he hp => ?others, fun he hc => ?disable,
    fun he hc => ?commands⟩⟩
  case recv =>
    cases h.symm.trans (step_of_engineMoves he)
    rw [engineStep_of_recv (s.turnTaken_pend.trans hp), completeRecv, State.turnTaken_dev,
      State.turnTaken_trace]
    rfl
  case others =>
    cases h.symm.trans (step_of_engineMoves he)
    exact (engineStep_data_of_ne_recv (by simpa using hp)).trans s.turnTaken_data
  case disable =>
    obtain ⟨-, htr⟩ | ⟨hne, -⟩ := step_transport h he
    · obtain ⟨-, -, -, -, -, hdata⟩ := State.transport_of_disable htr
      exact hdata
    · exact absurd hc hne
  case commands =>
    obtain ⟨hd, -⟩ | ⟨-, hsame⟩ := step_transport h he
    · exact absurd hd hc
    · exact hsame.data

/-- A completion is one event, which goes to the trace and to the device; `Rel` is none of them. -/
theorem engineStep_heard {s : State} (h : s.pend ≠ .none) :
    ∃ e, e ≠ .release ∧ s.Heard [e] (engineStep s) := by
  cases hp : s.pend with
  | none => exact absurd hp h
  | start =>
    refine ⟨startEvent s.ph, ?_, by rw [engineStep_of_start hp]; exact ⟨rfl, rfl⟩⟩
    unfold startEvent
    split <;> nofun
  | send b =>
    refine ⟨.tx b (s.ackOf b), nofun, ?_⟩
    rw [engineStep_of_send hp, completeSend]
    split <;> exact ⟨rfl, rfl⟩
  | recv k =>
    exact ⟨.rx (s.dev.byte s.trace) k, nofun, by rw [engineStep_of_recv hp]; exact ⟨rfl, rfl⟩⟩
  | stop => exact ⟨.stop, nofun, by rw [engineStep_of_stop hp]; exact ⟨rfl, rfl⟩⟩

theorem step_heard_of_engineMoves {s t : State} (h : step s = .next t) (he : s.EngineMoves) :
    ∃ e, e ≠ .release ∧ s.Heard [e] t := by
  cases h.symm.trans (step_of_engineMoves he)
  have hp : s.turnTaken.pend ≠ .none := by simpa using he.pend_ne_none
  obtain ⟨e, hne, htrace, hdev⟩ := engineStep_heard hp
  exact ⟨e, hne, by simpa using htrace, by simpa using hdev⟩

/-! ### The trace and the device -/

/-- Where the command side moves, `Rel` is the only event, and `DISABLE` finds the wires held. -/
theorem step_heard_of_command {s t : State} (h : step s = .next t) (he : ¬ s.EngineMoves) :
    (t.trace = s.trace ∧ t.dev = s.dev) ∨
    (s.current = some .disable ∧ s.wiresHeld = true ∧ s.Heard [.release] t) := by
  rcases step_transport h he with ⟨hc, htr⟩ | ⟨-, hsame⟩
  · rw [State.executed_disable] at htr
    obtain ⟨-, -, -, -, -, -, -, htrace, hdev⟩ := State.transport_eq_iff.1 htr
    cases hw : s.wiresHeld with
    | true =>
      rw [hw] at htrace hdev
      exact .inr ⟨hc, rfl, htrace, hdev⟩
    | false =>
      rw [hw] at htrace hdev
      exact .inl ⟨htrace, hdev⟩
  · exact .inl ⟨hsame.trace, hsame.dev⟩

/-- Settles O53: the engine's event, or the `Rel` of `DISABLE`. -/
theorem traceOnlyGrows : Obligations.TraceOnlyGrows := by
  unfold Obligations.TraceOnlyGrows
  refine fun s t h => ⟨fun he => ?engine, fun he => ?command⟩
  case engine =>
    obtain ⟨e, hne, hheard⟩ := step_heard_of_engineMoves h he
    exact ⟨e, hheard.trace, hne⟩
  case command =>
    exact (step_heard_of_command h he).imp (·.1)
      fun ⟨hc, hw, hheard⟩ => ⟨hheard.trace, hc, State.wiresHeld_iff.1 hw⟩

/-- Whoever moves, the device hears what goes to the trace. -/
theorem step_heard {s t : State} (h : step s = .next t) :
    (t.trace = s.trace ∧ t.dev = s.dev) ∨ ∃ e, s.Heard [e] t := by
  by_cases he : s.EngineMoves
  · obtain ⟨e, -, hheard⟩ := step_heard_of_engineMoves h he
    exact .inr ⟨e, hheard⟩
  · exact (step_heard_of_command h he).imp_right fun ⟨_, _, hheard⟩ => ⟨_, hheard⟩

/-- Settles O56: whatever the device hears keeps the canonical form. -/
theorem registerSpaceStaysCanonical : Obligations.RegisterSpaceStaysCanonical := by
  unfold Obligations.RegisterSpaceStaysCanonical
  intro s t hwf h
  rcases step_heard h with ⟨-, hdev⟩ | ⟨e, -, hdev⟩
  · rwa [hdev]
  · rw [hdev]
    exact Device.hear_wf hwf s.trace e

/-- The device is what replaying the trace on its first state gives. -/
def State.Replays (r : RefDev) (s : State) : Prop :=
  s.dev = .reference (r.replayFrom [] s.trace)

theorem State.Replays.of_step {r : RefDev} {s t : State} (hs : s.Replays r) (h : step s = .next t) :
    t.Replays r := by
  unfold State.Replays at hs ⊢
  rcases step_heard h with ⟨htrace, hdev⟩ | ⟨e, htrace, hdev⟩
  · rw [hdev, htrace, hs]
  · rw [hdev, htrace, hs, RefDev.replayFrom_append, List.nil_append]
    rfl

/-- Settles O58: true of the empty trace, and kept by every step. -/
theorem referenceDeviceReadOffTrace : Obligations.ReferenceDeviceReadOffTrace := by
  unfold Obligations.ReferenceDeviceReadOffTrace
  intro enReset cmds sched draws r n t h
  have hbegin : (State.begin enReset cmds sched draws (.reference r)).Replays r := rfl
  exact steps_keep (fun _ _ => State.Replays.of_step) n hbegin h

/-! ### The engine against the host (R69) -/

/-- What the host's commands do while an operation is pending on an enabled transport. -/
theorem exec_of_pending {s : State} (hen : s.en = true) (hp : s.pend ≠ .none) (hd : s.done = false)
    (i : Instr) :
    exec i s = .fault (.busy i.cmd s.pend) ∨ i = .disable ∨ i = .enable ∨
    (i = .wait ∧ exec i s = .next s) := by
  have busy (hi : (s.en = true ∧ (isLaunch i = true ∨ isTransaction i = true)) ∨ i = .getdata) :
      exec i s = .fault (.busy i.cmd s.pend) := exec_eq_fault.2 (.inr (.inl ⟨hi, hp, rfl⟩))
  cases i with
  | start | send | recv | stop => exact .inl (busy (.inl ⟨hen, .inl rfl⟩))
  | rdreg | wrreg => exact .inl (busy (.inl ⟨hen, .inr rfl⟩))
  | getdata => exact .inl (busy (.inr rfl))
  | disable => exact .inr (.inl rfl)
  | enable => exact .inr (.inr (.inl rfl))
  | wait => exact .inr (.inr (.inr ⟨rfl, exec_wait_of_not_done hd⟩))

/-- Settles O10: the engine's step is the completion, every other step the command side's, and the
command side can do little before the completion. -/
theorem engineStepCompletes : Obligations.EngineStepCompletes := by
  unfold Obligations.EngineStepCompletes
  refine ⟨fun s => State.engineEnabled_iff, fun s he => ?engine, fun s he => ?command,
    fun s hp => step_of_free hp, fun s i hen hp hd => exec_of_pending hen hp hd i⟩
  case engine =>
    have hstep := step_of_engineMoves he
    obtain ⟨hmode, -, -, -, -, hcmds, -⟩ := State.offBus_eq_iff.1 (offBus_of_engineMoves hstep he)
    exact ⟨hstep, engineStep_pend _, engineStep_done (by simpa using he.pend_ne_none), hcmds, hmode⟩
  case command => exact (step_of_command he).imp (·.2) (·.2)

end Sys2Proof.Machine
end

section
/-! A well-sequenced list of commands never meets a busy transport (spec R74, log 18): an operation
can be pending only where the list has a launch without its `WAIT` behind it, and a transaction,
which leaves nothing pending, never raises. -/

namespace Sys2Proof.Machine

/-- A run ends in a fault at the step that raises it. -/
theorem steps_eq_fault {n : Nat} {s : State} {f : Fault} (h : steps n s = .fault f) :
    ∃ m u, steps m s = .next u ∧ step u = .fault f := by
  induction n generalizing s with
  | zero => cases h
  | succ n ih =>
    cases hs : step s with
    | next t =>
      rw [steps_succ_next hs] at h
      obtain ⟨m, u, hm, hu⟩ := ih h
      exact ⟨m + 1, u, (steps_succ_next hs).trans hm, hu⟩
    | fault g =>
      rw [steps_succ_fault hs] at h
      cases h
      exact ⟨0, s, rfl, hs⟩
    | refused r =>
      rw [steps_succ, hs] at h
      cases h

theorem wellSequenced_cons {launched : Bool} {i : Instr} {is : List Instr} :
    wellSequenced launched (i :: is) = true ↔
      (launched = true → needsFree i = false) ∧
      wellSequenced (isLaunch i || (launched && i != .wait)) is = true := by
  cases launched <;> simp [wellSequenced]

/-- The host has the commands `is` left, in a good sequence; `launched` says whether a launch
without its `WAIT` is behind it, which is so where an operation is pending. -/
structure State.Sequenced (s : State) (launched : Bool) (is : List Instr) : Prop where
  cmds : s.cmds = is.map encode
  ordered : wellSequenced launched is = true
  pending : s.pend ≠ .none → launched = true

theorem State.Sequenced.turnTaken {s : State} {launched : Bool} {is : List Instr}
    (h : s.Sequenced launched is) : s.turnTaken.Sequenced launched is :=
  ⟨s.turnTaken_cmds.trans h.cmds, h.ordered, by simpa using h.pending⟩

/-! ### The host's command -/

/-- Only a `WAIT` can stay at the port. -/
theorem exec_retires {i : Instr} (hi : isTransaction i = false) (hw : i ≠ .wait) {s t : State}
    (h : exec i s = .next t) : t.cmds = s.cmds.tail := by
  obtain ⟨a, ha⟩ := exists_ruleOf hi s
  have hcmds : (s.executed i).cmds = s.cmds := congrArg OffBus.cmds (s.executed_offBus hi)
  rw [exec_of_ruleOf ha] at h
  rcases hostResult_eq_next.1 h with ⟨u, rfl, rfl⟩ | ⟨b, u, rfl, rfl⟩ | ⟨rfl, -⟩
  · obtain ⟨rfl, -⟩ := ruleOf_state ha rfl
    exact congrArg List.tail hcmds
  · obtain ⟨rfl, -⟩ := ruleOf_state ha rfl
    exact congrArg List.tail hcmds
  · exact absurd (eq_wait_of_ruleOf_hold ha) hw

/-- A command that raises `Busy` is one that needs the transport free (R111). -/
theorem needsFree_of_busy {i : Instr} {s : State} {c : Cmd} {p : Pend}
    (h : exec i s = .fault (.busy c p)) : needsFree i = true ∧ s.pend ≠ .none := by
  rcases exec_eq_fault.1 h with ⟨-, -, hf⟩ | ⟨hi, hp, -⟩ | ⟨-, -, -, -, hf⟩ | ⟨-, -, -, -, hf⟩
  · cases hf
  · refine ⟨?_, hp⟩
    cases i with
    | wait | disable | enable => simp [isLaunch, isTransaction] at hi
    | start | send | recv | getdata | stop | rdreg | wrreg => rfl
  · cases hf
  · cases hf

section
variable {s : State} {launched : Bool} {i : Instr} {is : List Instr}
  (h : s.Sequenced launched (i :: is))
include h

theorem State.Sequenced.not_busy (c : Cmd) (p : Pend) : exec i s ≠ .fault (.busy c p) := by
  intro hbusy
  obtain ⟨hneeds, hp⟩ := needsFree_of_busy hbusy
  have hfree := (wellSequenced_cons.1 h.ordered).1 (h.pending hp)
  simp [hneeds] at hfree

theorem State.Sequenced.hostStep : Machine.hostStep s = exec i s :=
  hostStep_of_decode_ok h.cmds (decode_encode i)

/-- A command other than `WAIT` retires, and leaves an operation pending only when it is a launch or
follows one. -/
theorem State.Sequenced.of_exec (hi : isTransaction i = false) (hw : i ≠ .wait) {t : State}
    (hx : exec i s = .next t) : t.Sequenced (isLaunch i || (launched && i != .wait)) is where
  cmds := by rw [exec_retires hi hw hx, h.cmds]; rfl
  ordered := (wellSequenced_cons.1 h.ordered).2
  pending hp := by
    cases hl : isLaunch i with
    | true => rfl
    | false =>
      have hpend : t.pend = (s.executed i).pend :=
        congrArg Transport.pend (exec_executes hx).transport
      have hd : i ≠ .disable := by
        rintro rfl
        exact hp (exec_executes hx).pend_of_disable
      rw [hpend, State.executed_pend_of_keeps hl hd] at hp
      simp [h.pending hp, hw]

/-- A transaction finds no launch without its `WAIT` behind it. -/
theorem State.Sequenced.ordered_of_transaction (hi : isTransaction i = true) :
    wellSequenced false is = true := by
  obtain ⟨hfree, hrest⟩ := wellSequenced_cons.1 h.ordered
  cases i with
  | rdreg | wrreg =>
    cases launched with
    | false => exact hrest
    | true => cases hfree rfl
  | start | send | recv | wait | getdata | stop | disable | enable => cases hi

end

/-- A `WAIT` that retires has seen its operation completed; one that holds stays. -/
theorem State.Sequenced.of_wait {s t : State} {launched : Bool} {is : List Instr}
    (h : s.Sequenced launched (.wait :: is)) (hquiet : s.PendingEnabled)
    (hx : exec .wait s = .next t) : ∃ l js, t.Sequenced l js := by
  cases hd : s.done with
  | false =>
    cases hx.symm.trans (exec_wait_of_not_done hd)
    exact ⟨launched, _, h⟩
  | true =>
    cases hx.symm.trans (exec_wait_of_done hd)
    have hfree : s.pend = .none := by
      by_contra hp
      simp [(hquiet hp).2] at hd
    refine ⟨_, is, by rw [State.retire_cmds, h.cmds]; rfl, (wellSequenced_cons.1 h.ordered).2, ?_⟩
    exact fun hp => absurd hfree hp

/-! ### The whole list -/

/-- A point of the run: the host has a well-sequenced list left, or a transaction is on its course
and the list after it is well sequenced. -/
inductive State.OnList (s : State) : Prop
  | host (hmode : s.mode = .none) {launched : Bool} {is : List Instr}
      (hlist : s.Sequenced launched is)
  | running (hmode : s.mode ≠ .none) {n : Nat} {c : Nat → State} (hc : Course n c) {k : Nat}
      (hk : k < n) (hs : s.Follows (c k)) {is : List Instr} (hcmds : s.cmds.tail = is.map encode)
      (hordered : wellSequenced false is = true)

theorem State.onList_of_started {s : State} {launched : Bool} {i : Instr} {is : List Instr}
    (h : s.Sequenced launched (i :: is)) (hi : isTransaction i = true) (hpass : s.PassesR91) :
    (s.executed i).OnList := by
  have hcmds : s.cmds.tail = is.map encode := by rw [h.cmds]; rfl
  have hordered := h.ordered_of_transaction hi
  cases i with
  | rdreg a =>
    exact .running nofun (readCourse_isCourse (x := s.executed (.rdreg a)) rfl hpass)
      (Nat.succ_pos 16) (.refl hpass.free) hcmds hordered
  | wrreg a v =>
    exact .running nofun (writeCourse_isCourse (x := s.executed (.wrreg a v)) rfl hpass)
      (Nat.succ_pos 9) (.refl hpass.free) hcmds hordered
  | start | send | recv | wait | getdata | stop | disable | enable => cases hi

/-- The host's step at a well-sequenced list. -/
theorem State.Sequenced.onList_of_commandStep {s t : State} {launched : Bool} {is : List Instr}
    (h : s.Sequenced launched is) (hmode : s.mode = .none) (hquiet : s.PendingEnabled)
    (hs : commandStep s = .next t) : t.OnList := by
  rw [(commandStep_of_host hmode).1] at hs
  cases is with
  | nil =>
    rw [Machine.hostStep, h.cmds] at hs
    cases hs
    exact .host hmode h
  | cons i is =>
    rw [h.hostStep] at hs
    cases hi : isTransaction i with
    | true =>
      obtain ⟨hpass, rfl⟩ := passesR91_of_exec hi hs
      exact State.onList_of_started h hi hpass
    | false =>
      have hkeeps : t.mode = .none := (exec_hostKeeps hi hs).mode.trans hmode
      by_cases hw : i = .wait
      · subst hw
        obtain ⟨l, js, ht⟩ := h.of_wait hquiet hs
        exact .host hkeeps ht
      · exact .host hkeeps (h.of_exec hi hw hs)

theorem State.OnList.of_step {s t : State} (h : s.OnList) (hquiet : s.PendingEnabled)
    (hs : step s = .next t) : t.OnList := by
  cases h with
  | host hmode hlist =>
    by_cases he : s.EngineMoves
    · obtain ⟨hm, -, -, -, -, hcmds, -⟩ := State.offBus_eq_iff.1 (offBus_of_engineMoves hs he)
      cases hs.symm.trans (step_of_engineMoves he)
      exact .host (hm.trans hmode)
        ⟨hcmds.trans hlist.cmds, hlist.ordered, fun hp => absurd (engineStep_pend _) hp⟩
    · obtain ⟨u, rfl | rfl, hstep⟩ := step_eq_commandStep he
      · exact hlist.onList_of_commandStep hmode hquiet (hstep.symm.trans hs)
      · exact hlist.turnTaken.onList_of_commandStep (s.turnTaken_mode.trans hmode)
          (by simpa [State.PendingEnabled] using hquiet) (hstep.symm.trans hs)
  | running hmode hc hk hf hcmds hordered =>
    obtain ⟨j, hj, ht⟩ := hc.step hk hf hs
    rcases hostHeldDuringTransaction s t hmode hs with ⟨hm, hkeeps, -⟩ | ⟨hm, -, hretired, -⟩
    · have hrun : t.mode ≠ .none := hm.trans_ne hmode
      obtain ⟨hlt, -⟩ := hc.leads_of_running hj ht hrun
      exact .running hrun hc hlt ht (by rw [hkeeps, hcmds]) hordered
    · refine .host hm ⟨hretired.trans hcmds, hordered, fun hp => ?_⟩
      exact absurd hm (State.mode_ne_none_of_microOp (ht.pending hp).1)

/-- Neither the host nor the sequencer meets a busy transport. -/
theorem State.OnList.step_ne_busy {s : State} (h : s.OnList) (c : Cmd) (p : Pend) :
    step s ≠ .fault (.busy c p) := by
  cases h with
  | host hmode hlist =>
    have host {u : State} {launched : Bool} {is : List Instr} (hu : u.Sequenced launched is)
        (hm : u.mode = .none) : commandStep u ≠ .fault (.busy c p) := by
      rw [(commandStep_of_host hm).1]
      cases is with
      | nil => simp [hostStep, hu.cmds]
      | cons i is => exact hu.hostStep ▸ hu.not_busy c p
    by_cases he : s.EngineMoves
    · simp [step_of_engineMoves he]
    · obtain ⟨u, rfl | rfl, hstep⟩ := step_eq_commandStep he
      · exact hstep ▸ host hlist hmode
      · exact hstep ▸ host hlist.turnTaken (s.turnTaken_mode.trans hmode)
  | running hmode hc hk hf hcmds hordered =>
    obtain ⟨m, hl⟩ := hc.leads _ hk
    obtain ⟨t, ht, -⟩ := hf.step hl
    simp [ht]

/-- Settles O45: every state of the run has the list at a point where the next command meets a free
transport or does not need one. -/
theorem wellSequencedNeverBusy : Obligations.WellSequencedNeverBusy := by
  unfold Obligations.WellSequencedNeverBusy
  intro enReset is sched draws dev n c p hordered hfault
  obtain ⟨m, u, hu, hbusy⟩ := steps_eq_fault hfault
  have hbegin : (State.begin enReset (is.map encode) sched draws dev).OnList :=
    .host rfl ⟨rfl, hordered, fun hp => absurd rfl hp⟩
  have hkeep : ∀ s t : State, s.Inv ∧ s.OnList → step s = .next t → t.Inv ∧ t.OnList :=
    fun s t ⟨hinv, hlist⟩ hs =>
      have ⟨hbus, _⟩ := State.inv_iff.1 hinv
      ⟨hinv.of_step hs, hlist.of_step hbus.pendingEnabled hs⟩
  obtain ⟨-, hlist⟩ := steps_keep hkeep m ⟨State.inv_begin enReset _ sched draws dev, hbegin⟩ hu
  exact hlist.step_ne_busy c p hbusy

end Sys2Proof.Machine
end

section
/-! The text of a command (spec R57) is read back: its name, and its operands behind a blank and,
for `WRREG`, a comma. -/

namespace Sys2Proof

/-- An unbroken word before a comma is one token, and so is the comma. -/
theorem tokens_append_comma {cs : List Char} (h : Unbroken cs) (hne : cs ≠ []) (rest : List Char) :
    tokens (cs ++ ',' :: rest) [] = cs :: [','] :: tokens rest [] := by
  rw [tokens_append h, List.append_nil]
  exact closeToken_reverse hne ([','] :: tokens rest [])

/-- A name and two operands with a comma between them are read as a command of two operands. -/
theorem assembleLine_twoOperands {name x y : List Char} (hname : Unbroken name) (hne : name ≠ [])
    (hx : Unbroken x) (hxne : x ≠ []) (hy : Unbroken y) (hyne : y ≠ []) :
    assembleLine (name ++ ' ' :: (x ++ ',' :: ' ' :: y)) = twoOperands name x y := by
  have hblank : tokens (' ' :: y) [] = tokens y [] := rfl
  unfold assembleLine
  rw [tokens_append_blank hname hne, tokens_append_comma hx hxne, hblank,
    tokens_of_unbroken hy hyne]
  rfl

theorem Cmd.unbroken_mnemonic (c : Cmd) : Unbroken c.mnemonic := by
  cases c <;> simp [Unbroken, Cmd.mnemonic]

theorem Cmd.mnemonic_ne_nil (c : Cmd) : c.mnemonic ≠ [] := by
  cases c <;> nofun

/-- A command's name with a byte behind it. -/
theorem assembleLine_byte (c : Cmd) (b : Byte) :
    assembleLine (c.mnemonic ++ ' ' :: byteText b) = oneOperand c.mnemonic (byteText b) :=
  assembleLine_oneOperand c.unbroken_mnemonic c.mnemonic_ne_nil (unbroken_byteText b) nofun

/-- Settles O6: the lines without a byte are read by evaluation; a byte is read back from its
text. -/
theorem textReadsBack : Obligations.TextReadsBack := by
  unfold Obligations.TextReadsBack
  intro i
  cases i with
  | start | wait | getdata | stop | disable | enable => decide
  | recv k => cases k <;> decide
  | send b =>
    calc assembleLine (Cmd.send.mnemonic ++ ' ' :: byteText b)
      _ = (byteOperand (byteText b)).map fun b => [.send b] := assembleLine_byte .send b
      _ = some [.send b] := by rw [byteOperand_byteText]; rfl
  | rdreg a =>
    calc assembleLine (Cmd.rdreg.mnemonic ++ ' ' :: byteText a)
      _ = (byteOperand (byteText a)).map fun a => [.rdreg a] := assembleLine_byte .rdreg a
      _ = some [.rdreg a] := by rw [byteOperand_byteText]; rfl
  | wrreg a v =>
    calc assembleLine (Cmd.wrreg.mnemonic ++ ' ' :: (byteText a ++ ',' :: ' ' :: byteText v))
      _ = twoOperands Cmd.wrreg.mnemonic (byteText a) (byteText v) :=
        assembleLine_twoOperands (Cmd.unbroken_mnemonic _) (Cmd.mnemonic_ne_nil _)
          (unbroken_byteText a) nofun (unbroken_byteText v) nofun
      _ = (byteOperand (byteText a)).bind fun a =>
            (byteOperand (byteText v)).map fun v => [.wrreg a v] := rfl
      _ = some [.wrreg a v] := by rw [byteOperand_byteText, byteOperand_byteText]; rfl

end Sys2Proof
end

section
/-! The step at the command port (spec R60): a word there that decodes is executed, and a table
row's word is placed there so that the very next step does it (log 2, log 20). -/

namespace Sys2Proof.Machine

theorem State.turnTaken_eq (s : State) :
    s.turnTaken = { s with sched := s.turnTaken.sched, draws := s.turnTaken.draws } := by
  unfold State.turnTaken
  split <;> rfl

/-- Settles O8: the host's step at a word that decodes, without a turn and after one. -/
theorem stepPresentsTheCommand : Obligations.StepPresentsTheCommand := by
  unfold Obligations.StepPresentsTheCommand
  intro s w rest i hm hc hd
  refine ⟨fun hoff => step_of_engineOff hoff hm hc hd, fun hon hturn => ?_, s.turnTaken_eq⟩
  have hstep : step s = commandStep s.turnTaken := by simp [step, hon, hturn]
  rw [hstep, (commandStep_of_host (s.turnTaken_mode.trans hm)).1]
  exact hostStep_of_decode_ok (s.turnTaken_cmds.trans hc) hd

/-! ### Placing a word -/

/-- A table row's word fits the port (R50). -/
theorem tableWord_eq (w : Nat) : BitVec.ofNat 24 (w % 2 ^ 24) = BitVec.ofNat 24 w :=
  BitVec.eq_of_toNat_eq (by simp)

theorem decode_of_decodeTableWord {w : Nat} {i : Instr} (h : decodeTableWord 24 w = some i) :
    decode (BitVec.ofNat 24 w) = .ok i := by
  rw [decodeTableWord, if_pos le_rfl, tableWord_eq] at h
  cases hd : decode (BitVec.ofNat 24 w) with
  | ok j => rw [hd] at h; cases h; rfl
  | error e => rw [hd] at h; cases h

/-- Placing a word frees the host and leaves the bus side and the environment. -/
theorem State.hostFreed_eq (s : State) :
    s.hostFreed.mode = .none ∧ s.hostFreed.cmds = s.cmds ∧ s.hostFreed.view = s.view := by
  unfold State.hostFreed
  split
  · next hm => exact ⟨hm, rfl, rfl⟩
  · exact ⟨rfl, rfl, rfl⟩

/-- The turn put in front is the one the next step takes off. -/
theorem step_commandNext (s : State) : step s.commandNext = commandStep s := by
  unfold State.commandNext
  split
  · next hon =>
    have hon' : State.engineEnabled { s with sched := .command :: s.sched } = true := hon
    rw [step, if_pos hon']
    rfl
  · next hoff => rw [step, if_neg hoff]

theorem step_withFetchWord {w : Nat} {i : Instr} (h : decodeTableWord 24 w = some i) (s : State) :
    step (s.withFetchWord 24 w) = exec i (s.withCommand (BitVec.ofNat 24 w)).hostFreed := by
  obtain ⟨hmode, hcmds, -⟩ := (s.withCommand (BitVec.ofNat 24 w)).hostFreed_eq
  rw [State.withFetchWord, tableWord_eq, step_commandNext, (commandStep_of_host hmode).1]
  exact hostStep_of_decode_ok hcmds (decode_of_decodeTableWord h)

/-- Settles O9: the word is at the port of a host that is free to move, and the turn is the command
side's; after reset there is no turn to take. -/
theorem fetchedWordRuns : Obligations.FetchedWordRuns := by
  unfold Obligations.FetchedWordRuns
  refine fun w i h => ⟨?_, fun s => ?_⟩
  · have hreset : State.reset.withFetchWord 24 w =
        (State.reset.withCommand (BitVec.ofNat 24 w)).hostFreed := by
      rw [State.withFetchWord, tableWord_eq]
      rfl
    rw [step_withFetchWord h, hreset]
  · obtain ⟨hmode, hcmds, hview⟩ := (s.withCommand (BitVec.ofNat 24 w)).hostFreed_eq
    exact ⟨_, step_withFetchWord h s, hmode, hcmds, hview⟩

end Sys2Proof.Machine
end

section
/-! `GETDATA` (spec R68). -/

namespace Sys2Proof.Machine

theorem exec_getdata_of_free {s : State} (h : s.pend = .none) :
    exec .getdata s = .next (s.readData.2.retireWith s.readData.1) := by
  rw [exec, execGetdata, getdataRule, if_pos h, hostResult]

/-- Reading while `DATA` is unspecified draws one free value (U1, log 6). -/
theorem State.readData_unspecified {s : State} (h : s.data = .unspecified) :
    s.readData = (Config.freeByte s.draws, { s with draws := s.draws + 1 }) := by
  simp [State.readData, h]

end Sys2Proof.Machine

namespace Sys2Proof.Laws
open Sys2Proof.Machine

/-- Settles O17: the check of `GETDATA`, and its read of a latched and of an unspecified byte. -/
theorem getdataRule : Obligations.GetdataRule := by
  unfold Obligations.GetdataRule
  refine ⟨rfl, fun s => ⟨fun hp => exec_getdata_eq_fault.2 ⟨hp, rfl⟩, fun b hp hb => ?latched,
    fun hp hu => ?unspecified⟩⟩
  case latched =>
    rw [exec_getdata_of_free hp, State.readData_latched hb]
    rfl
  case unspecified =>
    refine ⟨Config.freeByte s.draws, ?_⟩
    rw [exec_getdata_of_free hp, State.readData_unspecified hu]
    rfl

end Sys2Proof.Laws
end

section
/-! The transactions as presented (spec R92, R93), their encodings and micro-programs, and the bus
reset they and `DISABLE` leave behind (R133). -/

namespace Sys2Proof

/-- A word as R93 writes it. -/
theorem joinFields_eq_or (op a b : Byte) :
    joinFields op a b = (op.setWidth 24 <<< 16 ||| a.setWidth 24 <<< 8 ||| b.setWidth 24) := by
  ext i hi
  simp only [joinFields, BitVec.getElem_or, BitVec.getElem_shiftLeft]
  grind

end Sys2Proof

namespace Sys2Proof.Machine

theorem exec_transaction_of_passesR91 {i : Instr} (hi : isTransaction i = true) {s : State}
    (h : s.PassesR91) : exec i s = .next (s.executed i) := by
  rw [exec_of_isTransaction hi]
  exact present_eq_next.2 ⟨h.en, h.free, h.released, rfl⟩

/-- Settles O23: the presentations by the checks they pass; the micro-programs name the address
bytes of the block's own device. -/
theorem transactionsStart : Obligations.TransactionsStart := by
  unfold Obligations.TransactionsStart
  exact ⟨fun a s h => exec_transaction_of_passesR91 (i := .rdreg a) rfl h,
    fun a v s h => exec_transaction_of_passesR91 (i := .wrreg a v) rfl h,
    fun a => joinFields_zero_eq_or 0x10 a, fun a v => joinFields_eq_or 0x11 a v,
    fun s => rfl, fun s => rfl, rfl, rfl⟩

theorem State.readNotReset_of_idle {s : State} (h : s.ph = .idle) : s.readNotReset = false := by
  simp [State.readNotReset, h]

/-- Settles O33: both leave the phase `IDLE`, `RDREG` because it ends with the bus reset. -/
theorem busResetClearsReadHazard : Obligations.BusResetClearsReadHazard := by
  unfold Obligations.BusResetClearsReadHazard
  refine ⟨fun s t h => ?disable, fun a s s1 t n hx hfin => ?rdreg⟩
  case disable =>
    cases h.symm.trans (exec_disable s)
    exact State.readNotReset_of_idle (by rw [State.retire_ph, State.executed_disable]; rfl)
  case rdreg =>
    obtain ⟨hpass, -⟩ := passesR91_of_exec (i := .rdreg a) rfl hx
    obtain ⟨-, -, -, -, -, -, -, hph, -⟩ := readEndState a s s1 t n hpass hx hfin
    exact State.readNotReset_of_idle hph

/-- Settles O46: the two ways of staying at a `WAIT`. -/
theorem waitsHold : Obligations.WaitsHold := by
  unfold Obligations.WaitsHold
  exact ⟨fun _ n h => steps_of_waitNoOperation h n, fun _ _ h => steps_of_engineNotReadyFor h⟩

end Sys2Proof.Machine
end
